-- ==== Sys2Proof/Word.lean ====
section
/-! DEFINITION. The word types of the update engine: unsigned bytes, halves and words (R8, R13). -/

namespace Sys2Proof

/-- `u8` (R13): a FIFO slot, a wire byte, a flash byte. -/
abbrev Byte := BitVec 8

/-- `u16` (R13): the frame's length field. -/
abbrev Half := BitVec 16

/-- `u32` (R8, R13): flash addresses, sizes, CRC values, the millisecond count. -/
abbrev Word := BitVec 32

end Sys2Proof
end

