-- ==== Sys2Proof/Config.lean ====
section
/-! DEFINITION. The parameters of the block: the constants the source fixes (R7), the OPEN parameters as one record of
plain data (R9 to R12), and the free values that the environment draws (R76, R78, R79). -/

namespace Sys2Proof.Config

/-- `P_START_MARKER` (R7). -/
def startMarker : Byte := 0xAA

/-- `P_MAX_PAYLOAD` (R7), in bytes. -/
def maxPayload : Nat := 4096

/-- `P_FRAME_OVERHEAD` (R7): start, opcode, length and crc32. -/
def frameOverhead : Nat := 8

/-- `P_TIMEOUT_MS` (R7). -/
def timeoutMs : Nat := 500

/-- `P_WORD` (R7): the minimum flash program unit, in bytes. -/
def wordBytes : Nat := 4

/-- `P_BOOT_ADDR` (R7): the first address of the protected range (R71). -/
def bootAddr : Nat := 0x08000000

/-- `P_BOOT_SIZE` (R7). -/
def bootSize : Nat := 0x0000C000

/-- `P_META_ADDR` (R7). -/
def metaAddr : Nat := 0x0800C000

/-- `P_META_SIZE` (R7). -/
def metaSize : Nat := 0x00004000

/-- `P_APP_ADDR` (R7). -/
def appAddr : Nat := 0x08010000

/-- `P_APP_SIZE` (R7). -/
def appSize : Nat := 0x00050000

/-- `P_FLASH_BASE` (R10). -/
def flashBase : Nat := 0x08000000

/-- What an erased flash byte reads as (R77), and so what a byte of the flash list that is not listed reads as. -/
def erasedByte : Byte := 0xFF

/-- What a slot of `fifo_mem` or `dec_payload` that nothing has written since block reset holds.
DESIGN CHOICE (log entry 2), unsafe: R32 and R40 leave it unspecified. -/
def slotFill : Byte := 0x00

/-- One entry of `P_SECTORS` (R10, R72). -/
structure Sector where
  /-- the descriptor's own offset, which R72 wants equal to the running offset -/
  offset : Nat
  /-- the sector's size in bytes -/
  size : Nat
deriving DecidableEq, Repr

/-- Which `P_CRC32` the block is built with (R12). `reflected` is the family that the default belongs to.
`uninterpreted` stands for every other triple of `P_CRC_INIT`, `P_CRC_UPDATE` and `P_CRC_FINAL`. -/
inductive CrcSpec where
  /-- least significant bit first: polynomial, initial value, final XOR -/
  | reflected (poly init xorOut : Word)
  /-- the free functions `crcInit`, `crcUpdate` and `crcFinal` at this number -/
  | uninterpreted (id : Nat)
deriving DecidableEq, Repr

/-- The OPEN build-time parameters (R9, R10, R11, R12). Plain data, so that statements range over all of them. -/
structure Params where
  /-- `P_FIFO_SLOTS` (R9): the modulus of the FIFO's cursors -/
  fifoSlots : Nat
  /-- `P_SECTORS` (R10), in order -/
  sectors : List Sector
  /-- `P_VERSION_MAJOR` (R11) -/
  versionMajor : Byte
  /-- `P_VERSION_MINOR` (R11) -/
  versionMinor : Byte
  /-- `P_INQ_SUB_VERSION` (R11) -/
  subVersion : Byte
  /-- `P_INQ_SUB_MTU` (R11) -/
  subMtu : Byte
  /-- `P_CRC32` (R12) -/
  crc : CrcSpec
deriving DecidableEq, Repr

/-- The default `P_CRC32` (R12): CRC-32/ISO-HDLC. -/
def crcIsoHdlc : CrcSpec := .reflected 0xEDB88320 0xFFFFFFFF 0xFFFFFFFF

/-- The default `P_SECTORS` (R10, D17): the STM32F40x 1 MiB table. -/
def defaultSectors : List Sector :=
  [⟨0x00000, 0x4000⟩, ⟨0x04000, 0x4000⟩, ⟨0x08000, 0x4000⟩, ⟨0x0C000, 0x4000⟩, ⟨0x10000, 0x10000⟩,
   ⟨0x20000, 0x20000⟩, ⟨0x40000, 0x20000⟩, ⟨0x60000, 0x20000⟩, ⟨0x80000, 0x20000⟩, ⟨0xA0000, 0x20000⟩,
   ⟨0xC0000, 0x20000⟩, ⟨0xE0000, 0x20000⟩]

/-- The parameters that `State.reset` is built with. The subcodes (D11), the sectors (D17) and the CRC (R12) are the
spec's defaults. DESIGN CHOICE (log entry 1), unsafe: 64 slots and version 1.0 are the values of the spec's test programs. -/
def defaultParams : Params where
  fifoSlots := 64
  sectors := defaultSectors
  versionMajor := 1
  versionMinor := 0
  subVersion := 0x00
  subMtu := 0x01
  crc := crcIsoHdlc

/-- `P_CRC_INIT` of an uninterpreted `P_CRC32` (R12). -/
opaque crcInit : Nat → Word

/-- `P_CRC_UPDATE` of an uninterpreted `P_CRC32` (R12). -/
opaque crcUpdate : Nat → Word → Byte → Word

/-- `P_CRC_FINAL` of an uninterpreted `P_CRC32` (R12). -/
opaque crcFinal : Nat → Word → Word

/-- The n-th byte the environment draws: a read outside the flash array (R76), a byte of a failed erase (R78), a byte of
a failed program or of a program over bytes that are not erased (R79). Log entry 3. -/
opaque freeByte : Nat → Byte

/-- The n-th result the flash controller draws when State lists no result for the request (R78, R79): true is ok.
Log entry 3. -/
opaque freeResult : Nat → Bool

end Sys2Proof.Config
end

