-- ==== Sys2Proof/Syntax.lean ====
section
/-! DEFINITION. The operations of the block, one constructor per row of the opcode table (R2). -/

namespace Sys2Proof

/-- The block's operations (R2): the wire commands, each with the payload bytes of its frame, and the port operations.
The payload is kept as it came, because a payload of the wrong length is a legal frame with an answer of its own (R118). -/
inductive Instr where
  /-- NONE, opcode 0x00 (R227) -/
  | cmdNone (payload : List Byte)
  /-- INQUIRY, opcode 0x10 (R222 to R225) -/
  | cmdInquiry (payload : List Byte)
  /-- BOOT, opcode 0x11 (R232) -/
  | cmdBoot (payload : List Byte)
  /-- RESET, opcode 0x1F (R234) -/
  | cmdReset (payload : List Byte)
  /-- ERASE, opcode 0x20 (R265 to R270) -/
  | cmdErase (payload : List Byte)
  /-- READ, opcode 0x21 (R226) -/
  | cmdRead (payload : List Byte)
  /-- WRITE, opcode 0x22 (R271 to R278) -/
  | cmdWrite (payload : List Byte)
  /-- VERIFY, opcode 0x23 (R279 to R283) -/
  | cmdVerify (payload : List Byte)
  /-- UNRECOGNIZED: a frame whose opcode no other row has (R107, R227) -/
  | cmdUnrecognized (op : Byte) (payload : List Byte)
  /-- FIFO.PUT: PRODUCER's put of the byte on rx_byte (R144) -/
  | fifoPut (b : Byte)
  /-- FIFO.GET (R146) -/
  | fifoGet
  /-- FIFO.IS_EMPTY (R148) -/
  | fifoIsEmpty
  /-- FIFO.FULL (R149) -/
  | fifoFull
  /-- DEC.FEED: take one byte and run the decoder's arm on it (R170 to R181) -/
  | decFeed
  /-- DEC.RESET: decoder reset (R182) -/
  | decReset
  /-- DEC.TIMEOUT: ENGINE's step on an empty FIFO (R186, R187) -/
  | decTimeout
  /-- ENG.DISPATCH: carry out the command of the frame the decoder holds (R220) -/
  | engDispatch
  /-- ENG.TX: hand one byte over to the transmit sink (R229) -/
  | engTx
deriving DecidableEq, Repr

end Sys2Proof
end

