-- ==== Sys2Proof/Machine/State.lean ====
section
/-! DEFINITION. The state of the block (10_state.md), its ports and its environment's pending inputs, all plain data. -/

namespace Sys2Proof.Machine

/-- Bytes by address, in one canonical form (`Memory.wf` in Ops.lean): addresses strictly rising, and no entry equal to
what an unlisted address reads as. `fifo_mem`, `dec_payload` and the flash array are held so (R70). -/
abbrev Memory := List Host.Cell

/-- `dec_state` (R36). `corrupt k` is the value 5 + k, a state that is not in the decoder's table (R120). -/
inductive DecState where
  /-- 0: looking for 0xAA (R171) -/
  | awaitingStart
  /-- 1 (R172) -/
  | awaitingOpcode
  /-- 2 (R173, R174) -/
  | awaitingLength
  /-- 3 (R175, R176) -/
  | awaitingPayload
  /-- 4 (R177 to R179) -/
  | awaitingCrc
  /-- 5, 6 and 7 (R120, R181) -/
  | corrupt (k : Fin 3)
deriving DecidableEq, Repr

/-- `eng_phase` (R44). -/
inductive EngPhase where
  /-- 0: may take a byte or check the timeout -/
  | idle
  /-- 1: carrying out the command of a ready frame -/
  | dispatch
  /-- 2: handing a response to the transmit sink -/
  | tx
  /-- 3: after BOOT or RESET -/
  | halted
deriving DecidableEq, Repr

/-- `eng_after_tx` (R46): what ENGINE does once the response is sent (R230). -/
inductive AfterTx where
  /-- 0: set by a decoder error response -/
  | none
  /-- 1: reset the decoder (R231) -/
  | decoderReset
  /-- 2: raise boot_request (R232) -/
  | boot
  /-- 3: raise reset_request (R234) -/
  | reset
deriving DecidableEq, Repr

/-- A result of the flash port that the environment has ready for a coming request (R49, R78, R79). -/
inductive FlashResult where
  /-- the request succeeds -/
  | ok
  /-- the request fails -/
  | fail
deriving DecidableEq, Repr

/-- A request the block drives on the flash port (R48, R76 to R80). -/
inductive FlashRequest where
  /-- FlashUnlock() -/
  | unlock
  /-- FlashLock() -/
  | lock
  /-- FlashEraseSector(id) -/
  | eraseSector (id : Nat)
  /-- FlashProgramWord(addr, w) -/
  | programWord (addr w : Word)
  /-- MemRead(addr, size) -/
  | read (addr size : Word)
deriving DecidableEq, Repr

/-- Who steps (R18, R326). `other` is a party that is neither of the block's two agents (R151, R355). -/
inductive Agent where
  /-- the byte-received interrupt -/
  | producer
  /-- the foreground loop -/
  | engine
  /-- a second producer or consumer -/
  | other (id : Nat)
deriving DecidableEq, Repr

/-- The four operations of the FIFO's ports (R140). -/
inductive FifoOp where
  /-- the producer port's put -/
  | put (b : Byte)
  /-- the consumer port's get -/
  | get
  /-- the consumer port's is_empty -/
  | isEmpty
  /-- the consumer port's full -/
  | full
deriving DecidableEq, Repr

/-- One pending event: what happens at the next instant, and whose step it is (R49, R84). -/
inductive Turn where
  /-- `rx_byte` strobes a byte: PRODUCER runs put (R321) -/
  | rx (b : Byte)
  /-- ENGINE takes its next step (R318) -/
  | engine
  /-- `tx_accept`: the transmit sink takes one byte (R229) -/
  | txAccept
  /-- `now_ms` advances (R49, R324) -/
  | elapse (ms : Word)
  /-- `rst`: block reset (R350) -/
  | rst
  /-- an agent uses a port of the FIFO directly (R140, R355) -/
  | port (a : Agent) (op : FifoOp)
deriving DecidableEq, Repr

/-- The whole state. -/
structure State where
  /-- the build-time parameters (R51, R353); no step writes them -/
  params : Config.Params
  /-- `fifo_mem` (R32), by slot -/
  fifoMem : Memory
  /-- `fifo_wr` (R33) -/
  fifoWr : Nat
  /-- `fifo_rd` (R34) -/
  fifoRd : Nat
  /-- `dec_state` (R36) -/
  decState : DecState
  /-- `dec_opcode` (R37) -/
  decOpcode : Byte
  /-- `dec_length` (R38) -/
  decLength : Half
  /-- `dec_idx` (R39) -/
  decIdx : BitVec 13
  /-- `dec_payload` (R40), by index -/
  decPayload : Memory
  /-- `dec_crc_rx` (R41) -/
  decCrcRx : Word
  /-- `frame_ready` (R42) -/
  frameReady : Bool
  /-- `last_activity` (R43) -/
  lastActivity : Word
  /-- `eng_phase` (R44) -/
  engPhase : EngPhase
  /-- `tx_buf` (R45) -/
  txBuf : List Byte
  /-- `tx_idx` (R45) -/
  txIdx : Nat
  /-- `eng_after_tx` (R46) -/
  engAfterTx : AfterTx
  /-- the flash array (R77), by address -/
  flash : Memory
  /-- `flash_locked` (R47) -/
  flashLocked : Bool
  /-- `boot_request` (R48) -/
  bootRequest : Bool
  /-- `reset_request` (R48) -/
  resetRequest : Bool
  /-- `frame_dispatched` (R48, R237): high in the state that a dispatch step leaves -/
  frameDispatched : Bool
  /-- the result of the last `put` (R143), if there was one -/
  putResult : Option Bool
  /-- the result of the last `get` (R146), if there was one -/
  getResult : Option (Option Byte)
  /-- the result of the last `is_empty` (R148), if there was one -/
  isEmptyResult : Option Bool
  /-- the result of the last `full` (R149), if there was one -/
  fullResult : Option Bool
  /-- the result of the last `feed` (R183), if there was one -/
  feedResult : Option Bool
  /-- the input `now_ms` (R49, R324) -/
  nowMs : Word
  /-- the flash port's results for the coming requests (R49), oldest first -/
  flashResults : List FlashResult
  /-- the pending events (R49, R84), oldest first -/
  inputs : List Turn
  /-- the transmit byte stream (R48, R70): every byte handed over, oldest first -/
  txOut : List Byte
  /-- the flash port requests (R48), oldest first -/
  flashRequests : List FlashRequest
  /-- the MODEL's own: how many free values have been drawn (log entry 3) -/
  draws : Nat
deriving DecidableEq, Repr

/-- Why the machine stops with a fault. No run from reset reaches one (R184). -/
inductive Fault where
  /-- Raised by DEC.FEED when a payload byte would not fit the declared length or the buffer, and by DEC.FEED and
  ENG.DISPATCH when the declared length is over the buffer's size: the "defect state" of R184, which
  93_implementation_defined.md says to fault. Safe. -/
  | payloadOverflow
  /-- Raised by DEC.FEED when `dec_idx` is outside the field being read (AwaitingLength over 1, AwaitingCrc over 3): R184
  excludes it and no rule gives it an effect. Safe. -/
  | decoderCounter
  /-- Raised by ENG.TX when `tx_idx` is past the end of `tx_buf`: no rule gives it an effect (R229). Safe. -/
  | transmitCursor
deriving DecidableEq, Repr

/-- Why the model refuses. -/
inductive Refusal where
  /-- Raised by exec for an operation that has no meaning in this model yet. Safe. -/
  | notModelled (mnemonic : String)
  /-- Raised by step when `P_FIFO_SLOTS` is below 2 (R9, R353). Safe. -/
  | fifoSlotsTooFew
  /-- Raised by step when `P_SECTORS` has an offset that is not the running offset: "a model refuses it" (R72). Safe. -/
  | illFormedSectorTable
  /-- Raised by step when a party other than PRODUCER runs `put`: "a model refuses it" (R151, R355). Safe. -/
  | secondProducer
  /-- Raised by step when a party other than ENGINE runs `get`, `is_empty` or `full`: "a model refuses it"
  (R151, R355). Safe. -/
  | secondConsumer
deriving DecidableEq, Repr

/-- The block right after power-on reset (R350), with nothing pending at its inputs. -/
def State.reset : State where
  params := Config.defaultParams
  fifoMem := []
  fifoWr := 0
  fifoRd := 0
  decState := .awaitingStart
  decOpcode := 0x00
  decLength := 0
  decIdx := 0
  decPayload := []
  decCrcRx := 0
  frameReady := false
  lastActivity := 0
  engPhase := .idle
  txBuf := []
  txIdx := 0
  engAfterTx := .none
  flash := []
  flashLocked := true
  bootRequest := false
  resetRequest := false
  frameDispatched := false
  putResult := none
  getResult := none
  isEmptyResult := none
  fullResult := none
  feedResult := none
  nowMs := 0
  flashResults := []
  inputs := []
  txOut := []
  flashRequests := []
  draws := 0

end Sys2Proof.Machine
end

