-- ==== Sys2Proof/Machine/Flags.lean ====
section
/-! DEFINITION. The status flags, all derived from the state (R35, R50), and the numbers of the internal encodings
(R119, R121). -/

namespace Sys2Proof.Machine

/-- `adv(c)` (R141): the next slot after a cursor. -/
def advance (slots c : Nat) : Nat := (c + 1) % slots

/-- `fifo_empty` (R35). -/
def fifoEmpty (s : State) : Bool := s.fifoWr == s.fifoRd

/-- `fifo_full` (R35). -/
def fifoIsFull (s : State) : Bool := advance s.params.fifoSlots s.fifoWr == s.fifoRd

/-- `fifo_count` (R35): the difference of the cursors modulo `P_FIFO_SLOTS`. -/
def fifoCount (s : State) : Nat := (s.fifoWr + s.params.fifoSlots - s.fifoRd) % s.params.fifoSlots

/-- A partial frame is in progress (R186). -/
def partialFrame (s : State) : Bool := s.decState != .awaitingStart

/-- `dt` of the idle timeout (R186): the time since the last activity, modulo 2^32. DEDUCED (log entry 17), unsafe: R186
is followed where vector FD18 differs from it. -/
def idleTime (s : State) : Word := s.nowMs - s.lastActivity

/-- The number of a decoder state (R119, R120). -/
def decStateCode : DecState → BitVec 3
  | .awaitingStart => 0
  | .awaitingOpcode => 1
  | .awaitingLength => 2
  | .awaitingPayload => 3
  | .awaitingCrc => 4
  | .corrupt k => BitVec.ofNat 3 (5 + k.val)

/-- The number of an engine phase (R121). -/
def engPhaseCode : EngPhase → BitVec 2
  | .idle => 0
  | .dispatch => 1
  | .tx => 2
  | .halted => 3

/-- The number of an `eng_after_tx` value (R121). -/
def afterTxCode : AfterTx → BitVec 2
  | .none => 0
  | .decoderReset => 1
  | .boot => 2
  | .reset => 3

end Sys2Proof.Machine
end

