-- ==== Sys2Proof/WellFormed.lean ====
section
/-! DEFINITION. Which terms of Instr stand for an operation of the block: the limits of the frame's fields (R101, R107). -/

namespace Sys2Proof

/-- The opcodes that have a row of their own (R106). -/
def assignedOpcodes : List Byte := [0x00, 0x10, 0x11, 0x1F, 0x20, 0x21, 0x22, 0x23]

/-- The length field of a frame is at most 4096 (R101, R105). -/
def payloadFits (p : List Byte) : Bool := p.length ≤ Config.maxPayload

/-- An unrecognized opcode is one that no other row claims (R107). -/
def opcodeUnassigned (op : Byte) : Bool := !assignedOpcodes.contains op

/-- Every limit the spec puts on an operation's operands. -/
def Instr.wf : Instr → Bool
  | .cmdNone p => payloadFits p
  | .cmdInquiry p => payloadFits p
  | .cmdBoot p => payloadFits p
  | .cmdReset p => payloadFits p
  | .cmdErase p => payloadFits p
  | .cmdRead p => payloadFits p
  | .cmdWrite p => payloadFits p
  | .cmdVerify p => payloadFits p
  | .cmdUnrecognized op p => opcodeUnassigned op && payloadFits p
  | .fifoPut _ => true
  | .fifoGet => true
  | .fifoIsEmpty => true
  | .fifoFull => true
  | .decFeed => true
  | .decReset => true
  | .decTimeout => true
  | .engDispatch => true
  | .engTx => true

end Sys2Proof
end

