-- ==== Sys2Proof/Decode.lean ====
section
/-! DEFINITION. Frames as bytes: the byte order of the wire (R100), the CRC (R12, R103), the frame (R101 to R105), the
opcode map (R106, R107), decoding a frame to an operation, and the encoder. -/

namespace Sys2Proof

/-! ## Byte order -/

/-- `bytes16` (R14, R100). -/
def bytes16 (v : Half) : List Byte := [v.extractLsb' 0 8, v.extractLsb' 8 8]

/-- `bytes32` (R14, R100). -/
def bytes32 (v : Word) : List Byte :=
  [v.extractLsb' 0 8, v.extractLsb' 8 8, v.extractLsb' 16 8, v.extractLsb' 24 8]

/-- `le16` (R14). -/
def le16 (b0 b1 : Byte) : Half := BitVec.ofNat 16 (b0.toNat + 256 * b1.toNat)

/-- `le32` (R14). -/
def le32 (b0 b1 b2 b3 : Byte) : Word :=
  BitVec.ofNat 32 (b0.toNat + 2 ^ 8 * b1.toNat + 2 ^ 16 * b2.toNat + 2 ^ 24 * b3.toNat)

/-! ## `P_CRC32` -/

/-- One bit of a least-significant-bit-first CRC. -/
def crcBit (poly c : Word) : Word := if c.getLsbD 0 then (c >>> 1) ^^^ poly else c >>> 1

/-- Eight bits of a least-significant-bit-first CRC. -/
def crcBits (poly : Word) : Nat → Word → Word
  | 0, c => c
  | n + 1, c => crcBits poly n (crcBit poly c)

/-- `P_CRC_INIT` (R12). -/
def crcStart : Config.CrcSpec → Word
  | .reflected _ init _ => init
  | .uninterpreted id => Config.crcInit id

/-- `P_CRC_UPDATE` (R12). -/
def crcAdd : Config.CrcSpec → Word → Byte → Word
  | .reflected poly _ _, c, b => crcBits poly 8 (c ^^^ b.setWidth 32)
  | .uninterpreted id, c, b => Config.crcUpdate id c b

/-- `P_CRC_FINAL` (R12). -/
def crcEnd : Config.CrcSpec → Word → Word
  | .reflected _ _ xorOut, c => c ^^^ xorOut
  | .uninterpreted id, c => Config.crcFinal id c

/-- `P_CRC32` (R12): the final value of the fold over the bytes. -/
def crc32 (c : Config.CrcSpec) (bs : List Byte) : Word := crcEnd c (bs.foldl (crcAdd c) (crcStart c))

/-! ## The frame -/

/-- The bytes the CRC covers (R103): start, opcode, length and payload. -/
def frameBody (op : Byte) (p : List Byte) : List Byte :=
  [Config.startMarker, op] ++ bytes16 (BitVec.ofNat 16 p.length) ++ p

/-- `Frame(op, p)` (R104). -/
def frame (c : Config.CrcSpec) (op : Byte) (p : List Byte) : List Byte :=
  frameBody op p ++ bytes32 (crc32 c (frameBody op p))

/-! ## The opcode map -/

/-- The command that an opcode selects (R106, R107, R221). Only the opcode is looked at. -/
def selectCommand (op : Byte) (p : List Byte) : Instr :=
  if op = 0x00 then .cmdNone p
  else if op = 0x10 then .cmdInquiry p
  else if op = 0x11 then .cmdBoot p
  else if op = 0x1F then .cmdReset p
  else if op = 0x20 then .cmdErase p
  else if op = 0x21 then .cmdRead p
  else if op = 0x22 then .cmdWrite p
  else if op = 0x23 then .cmdVerify p
  else .cmdUnrecognized op p

/-- The opcode and the payload of a wire command; a port operation has none (R106, R107). -/
def wireFields : Instr → Option (Byte × List Byte)
  | .cmdNone p => some (0x00, p)
  | .cmdInquiry p => some (0x10, p)
  | .cmdBoot p => some (0x11, p)
  | .cmdReset p => some (0x1F, p)
  | .cmdErase p => some (0x20, p)
  | .cmdRead p => some (0x21, p)
  | .cmdWrite p => some (0x22, p)
  | .cmdVerify p => some (0x23, p)
  | .cmdUnrecognized op p => some (op, p)
  | .fifoPut _ => none
  | .fifoGet => none
  | .fifoIsEmpty => none
  | .fifoFull => none
  | .decFeed => none
  | .decReset => none
  | .decTimeout => none
  | .engDispatch => none
  | .engTx => none

/-! ## Decoding a frame -/

/-- Why a byte sequence does not begin with a frame. -/
inductive DecodeError where
  /-- the first byte is not 0xAA (R171) -/
  | noStartMarker
  /-- the bytes end inside the frame (R102) -/
  | truncated
  /-- the length field is over 4096 (R105) -/
  | oversize
  /-- the CRC field differs from the CRC of the frame (R103) -/
  | crcMismatch
deriving DecidableEq, Repr

/-- An operation and the bytes after its frame, or the reason there is none. -/
inductive Decoded where
  /-- the frame's operation and the bytes that follow the frame -/
  | instr (i : Instr) (rest : List Byte)
  /-- the bytes do not begin with a frame -/
  | reject (e : DecodeError)
deriving DecidableEq, Repr

/-- The part of a frame after the header: `length` payload bytes and four CRC bytes (R101, R116). -/
def decodeBody (c : Config.CrcSpec) (op : Byte) (length : Nat) (bs : List Byte) : Decoded :=
  match bs.drop length with
  | c0 :: c1 :: c2 :: c3 :: rest =>
    if le32 c0 c1 c2 c3 = crc32 c (frameBody op (bs.take length)) then
      .instr (selectCommand op (bs.take length)) rest
    else .reject .crcMismatch
  | _ => .reject .truncated

/-- Decoding, total on any bytes (R101 to R107): the frame at the head of the list. -/
def decode (c : Config.CrcSpec) : List Byte → Decoded
  | [] => .reject .truncated
  | start :: bs =>
    if start = Config.startMarker then
      match bs with
      | op :: l0 :: l1 :: body =>
        if (le16 l0 l1).toNat ≤ Config.maxPayload then decodeBody c op (le16 l0 l1).toNat body
        else .reject .oversize
      | _ => .reject .truncated
    else .reject .noStartMarker

/-- The words of an operation: the frame of a wire command. A port operation has no bytes (opcode table). -/
def encode (c : Config.CrcSpec) (i : Instr) : Option (List Byte) :=
  (wireFields i).map fun f => frame c f.1 f.2

/-! ## The opcode table's numbering -/

/-- The opcode and the payload of a table word: byte 0, the least significant, is the opcode, and payload bytes follow. -/
def tableFields (nbits w : Nat) : Byte × List Byte :=
  (BitVec.ofNat 8 w, (List.range (nbits / 8 - 1)).map fun k => BitVec.ofNat 8 (w >>> (8 * (k + 1))))

/-- The operation this decoder reads from a table word. The table numbers only the opcode byte; start, length and CRC are
those of the frame with that opcode and that payload (log entry 4). -/
def decodeTableWord (nbits w : Nat) : Option Instr :=
  match decode Config.crcIsoHdlc (frame Config.crcIsoHdlc (tableFields nbits w).1 (tableFields nbits w).2) with
  | .instr i _ => some i
  | .reject _ => none

end Sys2Proof
end

