-- ==== Sys2Proof/Machine/Operands.lean ====
section
/-! DEFINITION. The operands of the wire commands, read from the payload (R110 to R113), and the request range and its
protection predicate (R261, R262). -/

namespace Sys2Proof.Machine

/-- The u32 field at bytes `k .. k+3` of a payload (R111 to R113); it is read only where the payload is long enough. -/
def field32 (p : List Byte) (k : Nat) : Word :=
  le32 (p.getD k 0) (p.getD (k + 1) 0) (p.getD (k + 2) 0) (p.getD (k + 3) 0)

/-- A request range (R261): a start address and a size. -/
structure Range where
  /-- `address` -/
  address : Word
  /-- `size` -/
  size : Word
deriving DecidableEq, Repr

/-- The first address of the range. -/
def Range.first (r : Range) : Nat := r.address.toNat

/-- The end of the range, without wrap-around (R261). -/
def Range.limit (r : Range) : Nat := r.address.toNat + r.size.toNat

/-- `Intersects` (R262): the range meets the protected range. -/
def Range.intersectsProtected (r : Range) : Bool :=
  0 < r.size.toNat && r.first < Config.bootAddr + Config.bootSize && Config.bootAddr < r.limit

/-- The `{address, size}` prefix of an ERASE, WRITE or VERIFY payload (R111 to R113). -/
def rangeOf (p : List Byte) : Range := ⟨field32 p 0, field32 p 4⟩

/-- INQUIRY's operand (R110, R222): the subcode, when the payload is one byte. -/
def inquiryOperand : List Byte → Option Byte
  | [subcode] => some subcode
  | _ => none

/-- ERASE's operands (R111, R266): the range, when the payload is 8 bytes. -/
def eraseOperand (p : List Byte) : Option Range := if p.length = 8 then some (rangeOf p) else none

/-- WRITE's operands (R112, R272): the range and the data, when the payload is `8 + size` bytes. -/
def writeOperand (p : List Byte) : Option (Range × List Byte) :=
  if 8 ≤ p.length ∧ p.length = 8 + (rangeOf p).size.toNat then some (rangeOf p, p.drop 8) else none

/-- VERIFY's operands (R113, R280): the range and the expected CRC, when the payload is 12 bytes. -/
def verifyOperand (p : List Byte) : Option (Range × Word) :=
  if p.length = 12 then some (rangeOf p, field32 p 8) else none

/-- The word of WRITE's loop at byte offset `i` (R274): four data bytes, 0xFF past the end of the data (R275). -/
def dataWord (data : List Byte) (i : Nat) : Word :=
  le32 (data.getD i 0xFF) (data.getD (i + 1) 0xFF) (data.getD (i + 2) 0xFF) (data.getD (i + 3) 0xFF)

/-- How many program requests WRITE makes: `ceil(size / 4)` (R274). -/
def wordCount (size : Nat) : Nat := (size + 3) / Config.wordBytes

end Sys2Proof.Machine
end

