-- ==== Sys2Proof/Machine/Ops.lean ====
section
/-! DEFINITION. The named operations that the meanings share: bytes by address, the FIFO's cursors and slots, responses
and the error path (R310, R316, R317), decoder reset, block reset and the flash port primitives (R76 to R80). -/

namespace Sys2Proof.Machine

/-! ## Bytes by address -/

/-- The canonical form: addresses strictly rising, no entry equal to the fill that an unlisted address reads as. -/
abbrev Memory.wf (fill : Byte) (m : Memory) : Prop := m.Pairwise (fun c d => c.1 < d.1) ∧ ∀ c ∈ m, c.2 ≠ fill

/-- The byte at an address. -/
def Memory.read (fill : Byte) : Memory → Nat → Byte
  | [], _ => fill
  | c :: m, a => if c.1 = a then c.2 else Memory.read fill m a

/-- Writing one byte; writing the fill takes the entry out. -/
def Memory.write (fill : Byte) : Memory → Nat → Byte → Memory
  | [], a, b => if b = fill then [] else [(a, b)]
  | c :: m, a, b =>
    if a < c.1 then (if b = fill then c :: m else (a, b) :: c :: m)
    else if a = c.1 then (if b = fill then m else (a, b) :: m)
    else c :: Memory.write fill m a b

/-- Writing consecutive bytes from an address on. -/
def Memory.writeBytes (fill : Byte) : Memory → Nat → List Byte → Memory
  | m, _, [] => m
  | m, a, b :: bs => Memory.writeBytes fill (Memory.write fill m a b) (a + 1) bs

/-- Setting every byte of `[lo, hi)` to the fill. -/
def Memory.clear (m : Memory) (lo hi : Nat) : Memory := m.filter fun c => !(lo ≤ c.1 && c.1 < hi)

/-- `n` consecutive bytes. -/
def Memory.readBytes (fill : Byte) (m : Memory) (a n : Nat) : List Byte :=
  (List.range n).map fun k => Memory.read fill m (a + k)

/-! ## Buffers and flash, byte by byte -/

/-- FIFO slot `i` (R15). -/
def fifoSlot (s : State) (i : Nat) : Byte := s.fifoMem.read Config.slotFill i

/-- Payload byte `i` (R15). -/
def payloadByte (s : State) (i : Nat) : Byte := s.decPayload.read Config.slotFill i

/-- Flash byte `a` (R77). -/
def flashByte (s : State) (a : Nat) : Byte := s.flash.read Config.erasedByte a

/-- The payload of the frame the decoder holds (R40, R220): `dec_payload[0 .. dec_length-1]`. -/
def heldPayload (s : State) : List Byte := s.decPayload.readBytes Config.slotFill 0 s.decLength.toNat

/-- The bytes the FIFO holds, oldest first (R153). -/
def fifoHeld (s : State) : List Byte :=
  (List.range (fifoCount s)).map fun k => fifoSlot s ((s.fifoRd + k) % s.params.fifoSlots)

/-- `put`'s two sub-steps when the FIFO is not full (R144). -/
def putSlot (b : Byte) (s : State) : State :=
  { s with
    fifoMem := s.fifoMem.write Config.slotFill s.fifoWr b
    fifoWr := advance s.params.fifoSlots s.fifoWr
    putResult := some true }

/-- `get`'s two sub-steps when the FIFO is not empty (R146). -/
def takeSlot (s : State) : State :=
  { s with
    fifoRd := advance s.params.fifoSlots s.fifoRd
    getResult := some (some (fifoSlot s s.fifoRd)) }

/-! ## Responses and the error path -/

/-- Response codes (R108). -/
def codeOk : Byte := 0x00

/-- `ERR_OPCODE` (R108). -/
def codeErrOpcode : Byte := 0x01

/-- `ERR_OVERFLOW` (R108). -/
def codeErrOverflow : Byte := 0x02

/-- `ERR_TIMEOUT` (R108), never emitted (R109). -/
def codeErrTimeout : Byte := 0x03

/-- `ERR_FORMAT` (R108), never emitted (R109). -/
def codeErrFormat : Byte := 0x04

/-- `ERR_VERIFY` (R108). -/
def codeErrVerify : Byte := 0x05

/-- `ERR_PARAM` (R108). -/
def codeErrParam : Byte := 0x06

/-- `ERR_UNKNOWN` (R108). -/
def codeErrUnknown : Byte := 0xFF

/-- `Respond(op, payload)` (R17, R229): queue the response frame and enter TX. -/
def respond (op : Byte) (p : List Byte) (s : State) : State :=
  { s with txBuf := frame s.params.crc op p, txIdx := 0, engPhase := .tx }

/-- `Ack(op)` (R17). -/
def ack (op : Byte) (s : State) : State := respond op [codeOk] s

/-- `Err(op, code)` (R17), the block's error entry: it saves nothing, writes the response and enters TX (R316). -/
def err (op code : Byte) (s : State) : State := respond op [code] s

/-- Decoder reset (R182). -/
def decoderReset (s : State) : State :=
  { s with decState := .awaitingStart, decIdx := 0, decCrcRx := 0, frameReady := false }

/-- A decoder error (R174, R178, R181): the error response with nothing to do after it, and decoder reset at once. -/
def decoderError (code : Byte) (s : State) : State :=
  decoderReset { err s.decOpcode code s with engAfterTx := .none }

/-- What every dispatch does beside the command's own rule (R220, R237): the pulse, and what follows the response. -/
def beginDispatch (after : AfterTx) (s : State) : State :=
  { s with frameDispatched := true, engAfterTx := after }

/-- The end of a response, and the return from the error path (R230, R231, R232, R234, R317). `last_activity`
is written after every dispatch (R43, R185 (c)), BOOT and RESET included (DEDUCED, log entry 26, unsafe). After BOOT and RESET
`frame_ready` stays 1, because R230 resets the decoder for DECODER_RESET alone (DEDUCED, log entry 9, unsafe). -/
def endOfTransmit (s : State) : State :=
  match s.engAfterTx with
  | .none => { s with engPhase := .idle }
  | .decoderReset =>
    { decoderReset s with lastActivity := s.nowMs, engPhase := .idle, engAfterTx := .none }
  | .boot => { s with bootRequest := true, lastActivity := s.nowMs, engPhase := .halted }
  | .reset => { s with resetRequest := true, lastActivity := s.nowMs, engPhase := .halted }

/-- Block reset (R350): the block's registers take their reset values. The flash array (R77), the parameters and what
belongs to the environment stay: the inputs, and the record of what the block has put out. DEDUCED (log entry 12), safe. -/
def blockReset (s : State) : State :=
  { State.reset with
    params := s.params
    flash := s.flash
    lastActivity := s.nowMs
    nowMs := s.nowMs
    flashResults := s.flashResults
    inputs := s.inputs
    txOut := s.txOut
    flashRequests := s.flashRequests
    draws := s.draws }

/-! ## The sector table -/

/-- The sectors as (start, size), in order, from a running offset on (R72). -/
def sectorSpans : List Config.Sector → Nat → List (Nat × Nat)
  | [], _ => []
  | x :: xs, off => (Config.flashBase + off, x.size) :: sectorSpans xs (off + x.size)

/-- Each sector's start and size (R72). -/
def spans (p : Config.Params) : List (Nat × Nat) := sectorSpans p.sectors 0

/-- Every descriptor's offset is the running offset (R72). -/
def offsetsMatch : List Config.Sector → Nat → Bool
  | [], _ => true
  | x :: xs, off => x.offset == off && offsetsMatch xs (off + x.size)

/-- An address of the flash array (R72): it lies in some sector. -/
def inFlash (p : Config.Params) (a : Nat) : Bool := (spans p).any fun sp => sp.1 ≤ a && a < sp.1 + sp.2

/-- `[a, a+4)` lies inside one sector (R79). -/
def wordInOneSector (p : Config.Params) (a : Nat) : Bool :=
  (spans p).any fun sp => sp.1 ≤ a && a + Config.wordBytes ≤ sp.1 + sp.2

/-- An address of the protected range (R20, R71). -/
def inProtected (a : Nat) : Bool := Config.bootAddr ≤ a && a < Config.bootAddr + Config.bootSize

/-! ## Flash port primitives -/

/-- The result of the next flash request: the one the environment has ready, else a free value (R78, R79). -/
def nextResult (s : State) : FlashResult × State :=
  match s.flashResults with
  | r :: rest => (r, { s with flashResults := rest })
  | [] => (if Config.freeResult s.draws then .ok else .fail, { s with draws := s.draws + 1 })

/-- `n` free bytes, from the k-th on. -/
def freeBytes (k n : Nat) : List Byte := (List.range n).map fun j => Config.freeByte (k + j)

/-- `n` consecutive flash bytes become free values (R78, R79). -/
def drawFlash (a n : Nat) (s : State) : State :=
  { s with flash := s.flash.writeBytes Config.erasedByte a (freeBytes s.draws n), draws := s.draws + n }

/-- Record a request driven on the flash port (R48). -/
def request (r : FlashRequest) (s : State) : State := { s with flashRequests := s.flashRequests ++ [r] }

/-- `FlashUnlock()` (R80). -/
def flashUnlock (s : State) : State := { request .unlock s with flashLocked := false }

/-- `FlashLock()` (R80). -/
def flashLock (s : State) : State := { request .lock s with flashLocked := true }

/-- What the flash controller does on an erase of the sector at `[start, start + size)` (R78). -/
def eraseSpan (start size : Nat) (s : State) : State :=
  if s.flashLocked then s
  else
    match nextResult s with
    | (.ok, t) => { t with flash := t.flash.clear start (start + size) }
    | (.fail, t) => drawFlash start size t

/-- `FlashEraseSector(id)` (R78). -/
def flashEraseSector (id : Nat) (s : State) : State :=
  match (spans s.params)[id]? with
  | some sp => eraseSpan sp.1 sp.2 (request (.eraseSector id) s)
  | none => request (.eraseSector id) s

/-- The bytes at `[a, a+4)` are all erased (R79). -/
def wordErased (s : State) (a : Nat) : Bool :=
  (s.flash.readBytes Config.erasedByte a Config.wordBytes).all (· == Config.erasedByte)

/-- What the flash controller does on a program of `w` at `addr`, and its answer (R79). -/
def programWord (addr w : Word) (s : State) : FlashResult × State :=
  if s.flashLocked then (.fail, s)
  else if addr.toNat % Config.wordBytes ≠ 0 then (.fail, s)
  else if !wordInOneSector s.params addr.toNat then (.fail, s)
  else
    match nextResult s with
    | (.ok, t) =>
      if wordErased t addr.toNat then
        (.ok, { t with flash := t.flash.writeBytes Config.erasedByte addr.toNat (bytes32 w) })
      else (.ok, drawFlash addr.toNat Config.wordBytes t)
    | (.fail, t) => (.fail, drawFlash addr.toNat Config.wordBytes t)

/-- `FlashProgramWord(addr, w)` (R79). -/
def flashProgramWord (addr w : Word) (s : State) : FlashResult × State :=
  programWord addr w (request (.programWord addr w) s)

/-- `MemRead(addr, 1)` (R76) when `k` free values have been drawn: the byte, and how many have been drawn after it. -/
def memReadByte (s : State) (k : Nat) (addr : Word) : Byte × Nat :=
  if inFlash s.params addr.toNat then (flashByte s addr.toNat, k) else (Config.freeByte k, k + 1)

/-- `MemRead(addr, n)` (R16): n bytes, each address modulo 2^32. -/
def memReadBytes (s : State) : Nat → Nat → Word → List Byte × Nat
  | 0, k, _ => ([], k)
  | n + 1, k, addr =>
    ((memReadByte s k addr).1 :: (memReadBytes s n (memReadByte s k addr).2 (addr + 1)).1,
      (memReadBytes s n (memReadByte s k addr).2 (addr + 1)).2)

/-- `MemRead` over a request range (R16, R281): the bytes, and the state with the read recorded. -/
def memRead (r : Range) (s : State) : List Byte × State :=
  ((memReadBytes s r.size.toNat s.draws r.address).1,
    { request (.read r.address r.size) s with draws := (memReadBytes s r.size.toNat s.draws r.address).2 })

end Sys2Proof.Machine
end

