-- ==== Sys2Proof/Machine/Decoder.lean ====
section
/-! DEFINITION. The frame decoder (41_frame_decoder.md). -/

namespace Sys2Proof.Machine

/-- `crc_calc` (R180): the CRC of the frame as it was received. -/
def crcCalc (s : State) : Word := crc32 s.params.crc (frameBody s.decOpcode (heldPayload s))

/-- Byte `k` of the received CRC put at bits `[8k+7 : 8k]` (R41, R179). -/
def placeCrcByte (rx : Word) (k : Nat) (b : Byte) : Word :=
  (rx &&& ~~~((0xFF : Word) <<< (8 * k))) ||| (b.setWidth 32 <<< (8 * k))

/-- Count one byte of the field being read (R39). -/
def countByte (s : State) : State := { s with decIdx := s.decIdx + 1 }

/-- Begin a new field (R39): its byte count starts at 0. -/
def enterField (d : DecState) (s : State) : State := { s with decState := d, decIdx := 0 }

/-- `dec_payload[dec_idx] <- b` (R175, R176). -/
def storePayload (b : Byte) (s : State) : State :=
  { s with decPayload := s.decPayload.write Config.slotFill s.decIdx.toNat b }

/-- The arm for the second length byte (R174), once `dec_length` holds the whole length. -/
def judgeLength (s : State) : State :=
  if Config.maxPayload < s.decLength.toNat then decoderError codeErrOverflow s
  else if s.decLength = 0 then enterField .awaitingCrc s
  else enterField .awaitingPayload s

/-- The arm for the fourth CRC byte (R177, R178), once `dec_crc_rx` holds the whole received CRC. -/
def judgeCrc (s : State) : State :=
  if s.decCrcRx = crcCalc s then { s with frameReady := true, engPhase := .dispatch, feedResult := some true }
  else decoderError codeErrVerify s

/-- The answer false, which every arm of `feed` gives but one (R183). -/
def answerFalse (s : State) : State := { s with feedResult := some false }

/-- `feed(b)` (R171 to R181). Its result is false but where `judgeCrc` accepts the frame (R183). -/
def feed (b : Byte) (s : State) : Host.Outcome State Fault Refusal :=
  let s := answerFalse s
  match s.decState with
  | .awaitingStart => .next (if b = Config.startMarker then { s with decState := .awaitingOpcode } else s)
  | .awaitingOpcode => .next (enterField .awaitingLength { s with decOpcode := b })
  | .awaitingLength =>
    if s.decIdx = 0 then .next (countByte { s with decLength := b.setWidth 16 })
    else if s.decIdx = 1 then .next (judgeLength { s with decLength := le16 (s.decLength.extractLsb' 0 8) b })
    else .fault .decoderCounter
  | .awaitingPayload =>
    if Config.maxPayload ≤ s.decIdx.toNat then .fault .payloadOverflow
    else if s.decIdx.toNat + 1 < s.decLength.toNat then .next (countByte (storePayload b s))
    else if s.decIdx.toNat + 1 = s.decLength.toNat then .next (enterField .awaitingCrc (storePayload b s))
    else .fault .payloadOverflow
  | .awaitingCrc =>
    if s.decIdx.toNat < 3 then
      .next (countByte { s with decCrcRx := placeCrcByte s.decCrcRx s.decIdx.toNat b })
    else if s.decIdx = 3 then
      if Config.maxPayload < s.decLength.toNat then .fault .payloadOverflow
      else .next (judgeCrc { s with decCrcRx := placeCrcByte s.decCrcRx 3 b })
    else .fault .decoderCounter
  | .corrupt _ => .next (decoderError codeErrOpcode s)

/-- ENGINE takes the oldest byte: `get`, and the activity timestamp (R170, R185). -/
def takeByte (s : State) : State := { takeSlot s with lastActivity := s.nowMs }

/-- DEC.FEED (R170): one ENGINE step that takes a byte and feeds it. Outside IDLE, and on an empty FIFO, no byte is
taken. -/
def execDecFeed (s : State) : Host.Outcome State Fault Refusal :=
  if s.engPhase = .idle ∧ fifoEmpty s = false then
    feed (fifoSlot s s.fifoRd) (takeByte s)
  else .next s

/-- DEC.RESET (R182). -/
def execDecReset (s : State) : Host.Outcome State Fault Refusal := .next (decoderReset s)

/-- DEC.TIMEOUT: ENGINE's step in IDLE on an empty FIFO, the idle timeout (R186) when a partial frame is in progress and
the idle refresh (R187) when none is. -/
def execDecTimeout (s : State) : Host.Outcome State Fault Refusal :=
  if s.engPhase = .idle ∧ fifoEmpty s = true then
    if partialFrame s then .next (if Config.timeoutMs < (idleTime s).toNat then decoderReset s else s)
    else .next { s with lastActivity := s.nowMs }
  else .next s

end Sys2Proof.Machine
end

