-- ==== Sys2Proof/Machine/Commands.lean ====
section
/-! DEFINITION. The commands that touch no flash: NONE, INQUIRY, BOOT, RESET, READ and unrecognized opcodes
(42_dispatch.md). Each meaning is the whole dispatch step of R220 with the command's own rule in it. -/

namespace Sys2Proof.Machine

/-- An opcode that is not recognized (R227). -/
def answerUnknown (op : Byte) (s : State) : State := err op codeErrUnknown (beginDispatch .decoderReset s)

/-- NONE (R227). -/
def execCmdNone (_payload : List Byte) (s : State) : Host.Outcome State Fault Refusal := .next (answerUnknown 0x00 s)

/-- UNRECOGNIZED (R227): the response echoes the opcode. -/
def execCmdUnrecognized (op : Byte) (_payload : List Byte) (s : State) : Host.Outcome State Fault Refusal :=
  .next (answerUnknown op s)

/-- INQUIRY's response payload (R222 to R225). DESIGN CHOICE (log entry 16), unsafe: the version goes first where the two
subcodes are equal. -/
def inquiryAnswer (p : Config.Params) (payload : List Byte) : List Byte :=
  match inquiryOperand payload with
  | none => [codeErrParam]
  | some subcode =>
    if subcode = p.subVersion then [codeOk, p.versionMajor, p.versionMinor]
    else if subcode = p.subMtu then codeOk :: bytes16 (BitVec.ofNat 16 Config.maxPayload)
    else [codeErrParam]

/-- INQUIRY (R222 to R225). -/
def execCmdInquiry (payload : List Byte) (s : State) : Host.Outcome State Fault Refusal :=
  .next (respond 0x10 (inquiryAnswer s.params payload) (beginDispatch .decoderReset s))

/-- BOOT (R232): the ack; the request is raised when the ack has been sent. -/
def execCmdBoot (_payload : List Byte) (s : State) : Host.Outcome State Fault Refusal :=
  .next (ack 0x11 (beginDispatch .boot s))

/-- RESET (R234): the ack; the request is raised when the ack has been sent. -/
def execCmdReset (_payload : List Byte) (s : State) : Host.Outcome State Fault Refusal :=
  .next (ack 0x1F (beginDispatch .reset s))

/-- READ (R226): an ack and nothing else. -/
def execCmdRead (_payload : List Byte) (s : State) : Host.Outcome State Fault Refusal :=
  .next (ack 0x21 (beginDispatch .decoderReset s))

end Sys2Proof.Machine
end

