-- ==== Sys2Proof/Machine/Flash.lean ====
section
/-! DEFINITION. The flash sequencer's commands: ERASE, WRITE and VERIFY (43_flash_sequencer.md). Each meaning is the whole
dispatch step of R220 with the command's own rule in it. -/

namespace Sys2Proof.Machine

/-- ERASE's sector walk (R268) over the sectors from number `j` on, whose starts are given. -/
def eraseWalk (r : Range) : List (Nat × Nat) → Nat → State → State
  | [], _, s => s
  | sp :: rest, j, s =>
    eraseWalk r rest (j + 1) (if r.first ≤ sp.1 ∧ sp.1 < r.limit then flashEraseSector j s else s)

/-- ERASE's flash requests between the checks and the ack (R264, R268). -/
def eraseRange (r : Range) (s : State) : State := flashLock (eraseWalk r (spans s.params) 0 (flashUnlock s))

/-- ERASE (R265 to R270). -/
def execCmdErase (payload : List Byte) (s : State) : Host.Outcome State Fault Refusal :=
  let s := beginDispatch .decoderReset s
  match eraseOperand payload with
  | none => .next (err 0x20 codeErrParam s)
  | some r =>
    if r.intersectsProtected then .next (err 0x20 codeErrUnknown s) else .next (ack 0x20 (eraseRange r s))

/-- WRITE's word loop (R274): `n` words from byte offset `i` on. A failed program changes nothing here (R276). -/
def programWords (address : Word) (data : List Byte) : Nat → Nat → State → State
  | 0, _, s => s
  | n + 1, i, s =>
    programWords address data n (i + Config.wordBytes)
      (flashProgramWord (address + BitVec.ofNat 32 i) (dataWord data i) s).2

/-- WRITE's flash requests between the checks and the ack (R264, R274). -/
def writeRange (r : Range) (data : List Byte) (s : State) : State :=
  flashLock (programWords r.address data (wordCount r.size.toNat) 0 (flashUnlock s))

/-- WRITE (R271 to R278). -/
def execCmdWrite (payload : List Byte) (s : State) : Host.Outcome State Fault Refusal :=
  let s := beginDispatch .decoderReset s
  match writeOperand payload with
  | none => .next (err 0x22 codeErrParam s)
  | some (r, data) =>
    if r.intersectsProtected then .next (err 0x22 codeErrUnknown s) else .next (ack 0x22 (writeRange r data s))

/-- VERIFY (R279 to R283). -/
def execCmdVerify (payload : List Byte) (s : State) : Host.Outcome State Fault Refusal :=
  let s := beginDispatch .decoderReset s
  match verifyOperand payload with
  | none => .next (err 0x23 codeErrParam s)
  | some (r, crc) =>
    if crc32 s.params.crc (memRead r s).1 = crc then .next (ack 0x23 (memRead r s).2)
    else .next (err 0x23 codeErrVerify (memRead r s).2)

end Sys2Proof.Machine
end

