-- ==== Sys2Proof/Machine/Engine.lean ====
section
/-! DEFINITION. ENGINE's dispatch and transmit steps (R220, R221, R229). -/

namespace Sys2Proof.Machine

/-- The command of the frame the decoder holds, selected by its opcode alone (R221). -/
def runCommand (op : Byte) (payload : List Byte) (s : State) : Host.Outcome State Fault Refusal :=
  if op = 0x10 then execCmdInquiry payload s
  else if op = 0x11 then execCmdBoot payload s
  else if op = 0x1F then execCmdReset payload s
  else if op = 0x20 then execCmdErase payload s
  else if op = 0x21 then execCmdRead payload s
  else if op = 0x22 then execCmdWrite payload s
  else if op = 0x23 then execCmdVerify payload s
  else if op = 0x00 then execCmdNone payload s
  else execCmdUnrecognized op payload s

/-- ENG.DISPATCH (R220). Outside DISPATCH there is no such step. -/
def execEngDispatch (s : State) : Host.Outcome State Fault Refusal :=
  if s.engPhase = .dispatch then
    if Config.maxPayload < s.decLength.toNat then .fault .payloadOverflow
    else runCommand s.decOpcode (heldPayload s) s
  else .next s

/-- Hand over one byte of the response (R229). -/
def handOver (b : Byte) (s : State) : State := { s with txOut := s.txOut ++ [b], txIdx := s.txIdx + 1 }

/-- ENG.TX (R229): hand over the next byte, and end the response when it was the last (R230). Outside TX there is no
such step. -/
def execEngTx (s : State) : Host.Outcome State Fault Refusal :=
  if s.engPhase = .tx then
    match s.txBuf[s.txIdx]? with
    | some b => .next (if s.txIdx + 1 = s.txBuf.length then endOfTransmit (handOver b s) else handOver b s)
    | none => if s.txIdx = s.txBuf.length then .next (endOfTransmit s) else .fault .transmitCursor
  else .next s

end Sys2Proof.Machine
end

