-- ==== Sys2Proof/Machine/Fifo.lean ====
section
/-! DEFINITION. The FIFO's port operations (40_fifo.md). -/

namespace Sys2Proof.Machine

/-- FIFO.PUT (R144): a byte that finds the FIFO full is dropped (R145). -/
def execFifoPut (b : Byte) (s : State) : Host.Outcome State Fault Refusal :=
  .next (if fifoIsFull s then { s with putResult := some false } else putSlot b s)

/-- FIFO.GET (R146): nothing on an empty FIFO (R147). -/
def execFifoGet (s : State) : Host.Outcome State Fault Refusal :=
  .next (if fifoEmpty s then { s with getResult := some none } else takeSlot s)

/-- FIFO.IS_EMPTY (R148). -/
def execFifoIsEmpty (s : State) : Host.Outcome State Fault Refusal :=
  .next { s with isEmptyResult := some (fifoEmpty s) }

/-- FIFO.FULL (R149). -/
def execFifoFull (s : State) : Host.Outcome State Fault Refusal :=
  .next { s with fullResult := some (fifoIsFull s) }

end Sys2Proof.Machine
end

