-- ==== Sys2Proof/Machine/Dispatch.lean ====
section
/-! DEFINITION. One arm per operation: which meaning each constructor of Instr has. -/

namespace Sys2Proof.Machine

def exec (i : Instr) (s : State) : Host.Outcome State Fault Refusal :=
  match i with
  | .cmdNone payload => Sys2Proof.Machine.execCmdNone payload s
  | .cmdInquiry payload => Sys2Proof.Machine.execCmdInquiry payload s
  | .cmdBoot payload => Sys2Proof.Machine.execCmdBoot payload s
  | .cmdReset payload => Sys2Proof.Machine.execCmdReset payload s
  | .cmdErase payload => Sys2Proof.Machine.execCmdErase payload s
  | .cmdRead payload => Sys2Proof.Machine.execCmdRead payload s
  | .cmdWrite payload => Sys2Proof.Machine.execCmdWrite payload s
  | .cmdVerify payload => Sys2Proof.Machine.execCmdVerify payload s
  | .cmdUnrecognized op payload => Sys2Proof.Machine.execCmdUnrecognized op payload s
  | .fifoPut b => Sys2Proof.Machine.execFifoPut b s
  | .fifoGet => Sys2Proof.Machine.execFifoGet s
  | .fifoIsEmpty => Sys2Proof.Machine.execFifoIsEmpty s
  | .fifoFull => Sys2Proof.Machine.execFifoFull s
  | .decFeed => Sys2Proof.Machine.execDecFeed s
  | .decReset => Sys2Proof.Machine.execDecReset s
  | .decTimeout => Sys2Proof.Machine.execDecTimeout s
  | .engDispatch => Sys2Proof.Machine.execEngDispatch s
  | .engTx => Sys2Proof.Machine.execEngTx s

end Sys2Proof.Machine
end

