-- ==== Sys2Proof/Machine/Turns.lean ====
section
/-! DEFINITION. What one instant of the block does: which agent steps and which operation it runs (R84, R318), the
environment's events (R49), and the refusals of what is outside the rules (R72, R353, R355). -/

namespace Sys2Proof.Machine

/-- The operation ENGINE's next step runs, in the order of R318. In TX the sink's acceptance moves ENGINE, not its own
step (R229), and in HALTED it has no step (R235). -/
def engineOp (s : State) : Option Instr :=
  match s.engPhase with
  | .halted => none
  | .tx => none
  | .dispatch => some .engDispatch
  | .idle => if fifoEmpty s then some .decTimeout else some .decFeed

/-- ENGINE's step. -/
def engineTurn (s : State) : Host.Outcome State Fault Refusal :=
  match engineOp s with
  | some i => exec i s
  | none => .next s

/-- The operation of a FIFO port. -/
def portInstr : FifoOp → Instr
  | .put b => .fifoPut b
  | .get => .fifoGet
  | .isEmpty => .fifoIsEmpty
  | .full => .fifoFull

/-- The SPSC discipline (R151, R355): PRODUCER alone has the producer port and ENGINE alone the consumer port (R140). Log
entry 14, safe. -/
def portRefusal : Agent → FifoOp → Option Refusal
  | .producer, .put _ => none
  | _, .put _ => some .secondProducer
  | .engine, _ => none
  | _, _ => some .secondConsumer

/-- An agent uses a port of the FIFO directly. ENGINE is at that point of its loop only in IDLE (R170, R235). -/
def portTurn (a : Agent) (op : FifoOp) (s : State) : Host.Outcome State Fault Refusal :=
  match portRefusal a op with
  | some r => .refused r
  | none => if a = .engine ∧ s.engPhase ≠ .idle then .next s else exec (portInstr op) s

/-- One pending event. -/
def runTurn (t : Turn) (s : State) : Host.Outcome State Fault Refusal :=
  match t with
  | .rx b => exec (.fifoPut b) s
  | .engine => engineTurn s
  | .txAccept => exec .engTx s
  | .elapse ms => .next { s with nowMs := s.nowMs + ms }
  | .rst => .next (blockReset s)
  | .port a op => portTurn a op s

/-- The event of the next instant: the oldest pending one; with none pending ENGINE polls (R328). DESIGN CHOICE (log
entry 5), safe. -/
def nextTurn (s : State) : Turn := s.inputs.headD .engine

/-- The state in which the next event happens: the event is taken from the pending ones, and the pulse of the last
dispatch is over (R48, R237). DESIGN CHOICE (log entry 7), unsafe: the length of the pulse. -/
def beginTurn (s : State) : State := { s with inputs := s.inputs.tail, frameDispatched := false }

/-- What must be fixed before the block's rules hold (R353): at least two slots (R9) and a well-formed sector table
(R72). DESIGN CHOICE (log entry 25), unsafe: a table whose sectors run past address 2^32 is accepted. -/
def configRefusal (p : Config.Params) : Option Refusal :=
  if p.fifoSlots < 2 then some .fifoSlotsTooFew
  else if !offsetsMatch p.sectors 0 then some .illFormedSectorTable
  else none

/-- One step of the machine. -/
def takeStep (s : State) : Host.Outcome State Fault Refusal :=
  match configRefusal s.params with
  | some r => .refused r
  | none => runTurn (nextTurn s) (beginTurn s)

/-- A delivery of the receive callback (R150): one `put` per byte, in order, before what is already pending. -/
def deliver (bs : List Byte) (s : State) : State := { s with inputs := bs.map Turn.rx ++ s.inputs }

/-- The state in which the decoder holds the frame with this opcode and this payload, as R177 leaves it, with ENGINE to
step next. -/
def holdFrame (op : Byte) (p : List Byte) (s : State) : State :=
  { s with
    decState := .awaitingCrc
    decOpcode := op
    decLength := BitVec.ofNat 16 p.length
    decIdx := 3
    decPayload := Memory.writeBytes Config.slotFill s.decPayload 0 p
    decCrcRx := crc32 s.params.crc (frameBody op p)
    frameReady := true
    engPhase := .dispatch
    inputs := .engine :: s.inputs }

end Sys2Proof.Machine
end

