-- ==== Sys2Proof/Machine/Step.lean ====
section
/-! DEFINITION. The step of the machine, and placing an instruction where the next step runs it. -/

namespace Sys2Proof.Machine

/-- One step: the next event, the agent's operation (R84, R318). -/
def step (s : State) : Host.Outcome State Fault Refusal := takeStep s

/-- The frame of a table word, held by the decoder and about to be dispatched: byte 0 of the word is the opcode and the
payload follows (log entry 4). -/
def State.withFetchWord (s : State) (nbits w : Nat) : State :=
  holdFrame (tableFields nbits w).1 (tableFields nbits w).2 s

end Sys2Proof.Machine
end

