-- ==== Sys2Proof/Safety.lean ====
section
/-! DEFINITION. What the statements are said in: the invariant of every reachable state (R153, R184, R45, R357), runs of
the machine, the FIFO's history (R85) and what a command asks of the flash port (R268, R274). -/

namespace Sys2Proof.Safety

open Sys2Proof.Machine

/-! ## The invariant -/

/-- The limits of R184 on `dec_state`, `dec_idx` and `dec_length`. -/
def DecoderOk (s : State) : Prop :=
  match s.decState with
  | .awaitingStart => s.decIdx = 0
  | .awaitingOpcode => s.decIdx = 0
  | .awaitingLength => s.decIdx.toNat ≤ 1
  | .awaitingPayload =>
    1 ≤ s.decLength.toNat ∧ s.decLength.toNat ≤ Config.maxPayload ∧ s.decIdx.toNat < s.decLength.toNat
  | .awaitingCrc => s.decLength.toNat ≤ Config.maxPayload ∧ s.decIdx.toNat ≤ 3
  | .corrupt _ => False

/-- The decoder holds an accepted frame (R42, R177). -/
def HoldsFrame (s : State) : Prop := s.frameReady = true ∧ s.decState = .awaitingCrc

/-- What each phase says of the rest of the engine (R44 to R46, R230). R184 lists DISPATCH and TX as the phases with
`frame_ready = 1`; R230 keeps the frame of a BOOT or RESET in HALTED too (log entry 9). -/
def EngineOk (s : State) : Prop :=
  match s.engPhase with
  | .idle => s.frameReady = false ∧ s.engAfterTx = .none
  | .dispatch => HoldsFrame s ∧ s.engAfterTx = .none
  | .tx =>
    s.txIdx < s.txBuf.length ∧
      (s.engAfterTx = .none → s.frameReady = false ∧ s.decState = .awaitingStart) ∧
      (s.engAfterTx ≠ .none → HoldsFrame s)
  | .halted =>
    HoldsFrame s ∧
      ((s.engAfterTx = .boot ∧ s.bootRequest = true ∧ s.resetRequest = false) ∨
        (s.engAfterTx = .reset ∧ s.bootRequest = false ∧ s.resetRequest = true))

/-- The invariant of every state that a run reaches. -/
structure Inv (s : State) : Prop where
  /-- the parameters are those of a block (R9, R72, R353) -/
  config : configRefusal s.params = none
  /-- a cursor never leaves `[0, P_FIFO_SLOTS)` (R141) -/
  cursors : s.fifoWr < s.params.fifoSlots ∧ s.fifoRd < s.params.fifoSlots
  /-- the FIFO's slots are in canonical form, and only slots are listed -/
  fifoForm : s.fifoMem.wf Config.slotFill ∧ ∀ c ∈ s.fifoMem, c.1 < s.params.fifoSlots
  /-- the payload buffer is in canonical form, and only its bytes are listed: it never overflows (R184) -/
  payloadForm : s.decPayload.wf Config.slotFill ∧ ∀ c ∈ s.decPayload, c.1 < Config.maxPayload
  /-- the flash list is in canonical form, and only bytes of the flash array are listed -/
  flashForm : s.flash.wf Config.erasedByte ∧ ∀ c ∈ s.flash, inFlash s.params c.1 = true
  /-- the controller is locked between steps (R357) -/
  locked : s.flashLocked = true
  /-- a response is at most 11 bytes long (R45) -/
  response : s.txBuf.length ≤ Config.frameOverhead + 3
  /-- the decoder (R184) -/
  decoder : DecoderOk s
  /-- the engine -/
  engine : EngineOk s
  /-- a request to the surrounding system is raised only in HALTED (R232, R234) -/
  requests : s.engPhase ≠ .halted → s.bootRequest = false ∧ s.resetRequest = false

/-! ## Runs -/

/-- `n` steps, stopping at the first fault or refusal. -/
def runSteps : Nat → State → Host.Outcome State Fault Refusal
  | 0, s => .next s
  | n + 1, s =>
    match step s with
    | .next t => runSteps n t
    | .fault f => .fault f
    | .refused r => .refused r

/-- An infinite run under a schedule: `turns n` is the event of instant `n`, and no other event is pending. -/
def Run (turns : Nat → Turn) (ρ : Nat → State) : Prop := ∀ n, step { ρ n with inputs := [turns n] } = .next (ρ (n + 1))

/-! ## Fairness

R329's assumptions about the environment of a run, none of which the step builds in: a claim that needs one names it. Flash
requests need none: each completes within its step (R87). -/

/-- The byte that an event has PRODUCER put (R321). -/
def putOf : Turn → List Byte
  | .rx b => [b]
  | .port .producer (.put b) => [b]
  | _ => []

/-- The bytes put in the first `n` instants, oldest first. -/
def putBytes (turns : Nat → Turn) : Nat → List Byte
  | 0 => []
  | n + 1 => putBytes turns n ++ putOf (turns n)

/-- PRODUCER is fair (R329): every byte that the receive side has for it comes to its put. -/
def ProducerFair (wire : List Byte) (turns : Nat → Turn) : Prop := ∃ n, wire <+: putBytes turns n

/-- ENGINE is weakly fair (R329): again and again it steps, unless it has no step (R235). -/
def EngineFair (turns : Nat → Turn) (ρ : Nat → State) : Prop :=
  ∀ n, ∃ m, n ≤ m ∧ (turns m = .engine ∨ (ρ m).engPhase = .halted)

/-- The transmit sink at last accepts (R329): it does not leave a byte waiting for ever. -/
def SinkFair (turns : Nat → Turn) (ρ : Nat → State) : Prop :=
  ∀ n, ∃ m, n ≤ m ∧ (turns m = .txAccept ∨ (ρ m).engPhase ≠ .tx)

/-! ## Streams -/

/-- A byte stream that arrives slowly enough for ENGINE to take each byte before the next comes. -/
def slowly (bs : List Byte) : List Turn := bs.flatMap fun b => [.rx b, .engine]

/-! ## What the rules' conclusions have in common -/

/-- A state in which ENGINE has taken the oldest byte of the FIFO and `feed` has answered false (R146, R170, R185). -/
def tookByte (s : State) : State :=
  { s with
    fifoRd := (s.fifoRd + 1) % s.params.fifoSlots
    getResult := some (some (fifoSlot s s.fifoRd))
    lastActivity := s.nowMs
    feedResult := some false }

/-- A state in which a decoder error has been entered (R174, R178, R181, R316): the response is queued, nothing follows
it, and the decoder is reset. -/
def erroredWith (code : Byte) (s : State) : State :=
  { s with
    txBuf := frame s.params.crc s.decOpcode [code]
    txIdx := 0
    engPhase := .tx
    engAfterTx := .none
    decState := .awaitingStart
    decIdx := 0
    decCrcRx := 0
    frameReady := false }

/-- A state in which a command has been dispatched and has answered (R220, R228, R229, R237). -/
def answered (after : AfterTx) (op : Byte) (p : List Byte) (s : State) : State :=
  { s with
    frameDispatched := true
    engAfterTx := after
    txBuf := frame s.params.crc op p
    txIdx := 0
    engPhase := .tx }

/-- The request range of a payload meets the protected range (R262), with the values of R71 written out. -/
def meetsProtected (p : List Byte) : Prop :=
  0 < (rangeOf p).size.toNat ∧ (rangeOf p).address.toNat < 0x0800C000 ∧
    0x08000000 < (rangeOf p).address.toNat + (rangeOf p).size.toNat

/-- The i-th address of a read of the range (R16): `(address + i) mod 2^32`. -/
def readAddress (r : Range) (i : Nat) : Nat := (r.address.toNat + i) % 2 ^ 32

/-! ## The FIFO's history -/

/-- The bytes that the next step's `put` accepts (R144). -/
def acceptedNext (s : State) : List Byte :=
  match nextTurn s with
  | .rx b => if fifoIsFull s then [] else [b]
  | .port .producer (.put b) => if fifoIsFull s then [] else [b]
  | _ => []

/-- The bytes that the next step's `get` returns (R146): ENGINE's own, in IDLE on a FIFO that is not empty. -/
def takenNext (s : State) : List Byte :=
  match nextTurn s with
  | .engine => if s.engPhase = .idle ∧ fifoEmpty s = false then [fifoSlot s s.fifoRd] else []
  | .port .engine .get => if s.engPhase = .idle ∧ fifoEmpty s = false then [fifoSlot s s.fifoRd] else []
  | _ => []

/-- A run with no block reset in it, from one state to another, with the bytes accepted and the bytes taken on the way. -/
inductive FifoRun : State → List Byte → List Byte → State → Prop where
  /-- no step -/
  | refl (s : State) : FifoRun s [] [] s
  /-- one more step at the end -/
  | step {s t u : State} {accepted taken : List Byte} (run : FifoRun s accepted taken t)
      (noReset : nextTurn t ≠ .rst) (last : step t = .next u) :
      FifoRun s (accepted ++ acceptedNext t) (taken ++ takenNext t) u

/-! ## What a command asks of the flash port -/

/-- The numbers of the sectors whose start lies in the request range (R268), in increasing order. -/
def selectedSectors (p : Config.Params) (r : Range) : List Nat :=
  (List.range (spans p).length).filter fun j =>
    match (spans p)[j]? with
    | some sp => r.first ≤ sp.1 && sp.1 < r.limit
    | none => false

/-- An address of a sector that an ERASE of this range selects (R268). -/
def inSelectedSector (p : Config.Params) (r : Range) (a : Nat) : Prop :=
  ∃ sp ∈ spans p, (r.first ≤ sp.1 ∧ sp.1 < r.limit) ∧ sp.1 ≤ a ∧ a < sp.1 + sp.2

/-- The address of WRITE's k-th word (R274): `(address + 4k) mod 2^32`. -/
def wordAddress (r : Range) (k : Nat) : Word := BitVec.ofNat 32 (r.address.toNat + 4 * k)

/-- An address of a word that a WRITE of this range requests to program (R274). -/
def inWrittenWords (r : Range) (a : Nat) : Prop :=
  ∃ k < wordCount r.size.toNat, (wordAddress r k).toNat ≤ a ∧ a < (wordAddress r k).toNat + 4

/-- The sector starts in the protected range (R284). -/
def startsInProtected (p : Config.Params) (j : Nat) : Bool :=
  match (spans p)[j]? with
  | some sp => inProtected sp.1
  | none => false

end Sys2Proof.Safety
end

