-- ==== Sys2Proof/Certificates/Slice0/Obligations.lean ====
section
/-! DEFINITION. The statements for the provers. -/

open Sys2Proof Sys2Proof.Machine Sys2Proof.Safety

/-! ## Frames and their encoding -/

/-- Decoding an encoded well-formed command gives it back, whatever `P_CRC32` and whatever bytes follow
(R101 to R107, R110 to R116). -/
def Obligations.EncodedCommandDecodesToItself : Prop :=
  ∀ (c : Config.CrcSpec) (i : Instr) (bytes rest : List Byte),
    i.wf = true → encode c i = some bytes → decode c (bytes ++ rest) = .instr i rest

/-- R104: bytes that decode are exactly the frame of a well-formed command, followed by the rest. -/
def Obligations.DecodedBytesAreTheCommandsFrame : Prop :=
  ∀ (c : Config.CrcSpec) (bytes rest : List Byte) (i : Instr),
    decode c bytes = .instr i rest → i.wf = true ∧ ∃ f, encode c i = some f ∧ bytes = f ++ rest

/-- R101, R102: the places of a frame's fields and its length. -/
def Obligations.FrameFieldsStandAtTheirOffsets : Prop :=
  ∀ (c : Config.CrcSpec) (op : Byte) (p : List Byte), p.length ≤ 4096 →
    (frame c op p).length = 8 + p.length ∧
    (frame c op p)[0]? = some 0xAA ∧
    (frame c op p)[1]? = some op ∧
    (∃ l0 l1, (frame c op p)[2]? = some l0 ∧ (frame c op p)[3]? = some l1 ∧ l0.toNat + 256 * l1.toNat = p.length) ∧
    (∀ k, k < p.length → (frame c op p)[4 + k]? = p[k]?) ∧
    ∃ c0 c1 c2 c3, (frame c op p).drop (4 + p.length) = [c0, c1, c2, c3] ∧
      c0.toNat + 2 ^ 8 * c1.toNat + 2 ^ 16 * c2.toNat + 2 ^ 24 * c3.toNat =
        (crc32 c ((frame c op p).take (4 + p.length))).toNat

/-- R106, R107, R221: which command each opcode selects, and that the payload plays no part. -/
def Obligations.OpcodeAloneSelectsTheCommand : Prop :=
  ∀ p : List Byte,
    selectCommand 0x00 p = .cmdNone p ∧ selectCommand 0x10 p = .cmdInquiry p ∧ selectCommand 0x11 p = .cmdBoot p ∧
    selectCommand 0x1F p = .cmdReset p ∧ selectCommand 0x20 p = .cmdErase p ∧ selectCommand 0x21 p = .cmdRead p ∧
    selectCommand 0x22 p = .cmdWrite p ∧ selectCommand 0x23 p = .cmdVerify p ∧
    ∀ op : Byte, op ∉ [0x00, 0x10, 0x11, 0x1F, 0x20, 0x21, 0x22, 0x23] → selectCommand op p = .cmdUnrecognized op p

/-- Frames of the spec's vectors X1, X5, X6 and X7, and of L1-8, decode to the commands they stand for. -/
def Obligations.VectorFramesDecode : Prop :=
  decode Config.crcIsoHdlc [0xAA, 0x10, 0x01, 0x00, 0x00, 0x82, 0x4D, 0x6E, 0xAD] = .instr (.cmdInquiry [0x00]) [] ∧
  decode Config.crcIsoHdlc [0xAA, 0x21, 0x00, 0x00, 0xAA, 0x0A, 0x1D, 0x3A] = .instr (.cmdRead []) [] ∧
  decode Config.crcIsoHdlc [0xAA, 0x00, 0x00, 0x00, 0x7D, 0x26, 0x92, 0x03] = .instr (.cmdNone []) [] ∧
  decode Config.crcIsoHdlc [0xAA, 0x7E, 0x00, 0x00, 0x27, 0x63, 0xFD, 0x5D] = .instr (.cmdUnrecognized 0x7E []) [] ∧
  decode Config.crcIsoHdlc
      [0xAA, 0x20, 0x08, 0x00, 0x00, 0x00, 0x00, 0x08, 0x00, 0x10, 0x00, 0x00, 0x84, 0xBD, 0x09, 0x50] =
    .instr (.cmdErase [0x00, 0x00, 0x00, 0x08, 0x00, 0x10, 0x00, 0x00]) []

/-- R81, R111 to R113: the address and size of a payload are its first two little-endian u32 fields, and VERIFY's crc the
third. -/
def Obligations.PayloadFieldsAreLittleEndian : Prop :=
  ∀ (address size crc : Word) (rest : List Byte),
    rangeOf (bytes32 address ++ bytes32 size ++ rest) = ⟨address, size⟩ ∧
    verifyOperand (bytes32 address ++ bytes32 size ++ bytes32 crc) = some (⟨address, size⟩, crc)

/-- R81, R275: byte k of the word that WRITE makes at offset i is data byte i + k, and 0xFF past the end of the data. -/
def Obligations.DataWordIsLittleEndianAndPadded : Prop :=
  ∀ (data : List Byte) (i k : Nat), k < 4 →
    (dataWord data i).extractLsb' (8 * k) 8 = if h : i + k < data.length then data[i + k] else 0xFF

/-! ## The FIFO -/

/-- R144: put, on a full FIFO and on one that is not full. The cursors are in range in every reachable state
(StepKeepsInvariant). -/
def Obligations.PutStoresTheByteAtTheWriteCursor : Prop :=
  ∀ (s : State) (b : Byte), 2 ≤ s.params.fifoSlots → s.fifoWr < s.params.fifoSlots → s.fifoRd < s.params.fifoSlots →
    s.fifoMem.wf Config.slotFill →
    ((s.fifoWr + 1) % s.params.fifoSlots = s.fifoRd →
      exec (.fifoPut b) s = .next { s with putResult := some false }) ∧
    ((s.fifoWr + 1) % s.params.fifoSlots ≠ s.fifoRd →
      ∃ t, exec (.fifoPut b) s = .next t ∧
        t = { s with
              fifoMem := t.fifoMem, fifoWr := (s.fifoWr + 1) % s.params.fifoSlots, putResult := some true } ∧
        (∀ i, fifoSlot t i = if i = s.fifoWr then b else fifoSlot s i) ∧
        fifoEmpty t = false ∧
        (fifoIsFull t = true ↔ fifoCount t = s.params.fifoSlots - 1) ∧
        fifoCount t = fifoCount s + 1)

/-- R145: put on a full FIFO. -/
def Obligations.PutOnFullFifoDropsTheByte : Prop :=
  ∀ (s : State) (b : Byte), (s.fifoWr + 1) % s.params.fifoSlots = s.fifoRd →
    exec (.fifoPut b) s = .next { s with putResult := some false }

/-- R146: get, on an empty FIFO and on one that is not empty. -/
def Obligations.GetTakesTheByteAtTheReadCursor : Prop :=
  ∀ s : State, 2 ≤ s.params.fifoSlots → s.fifoWr < s.params.fifoSlots → s.fifoRd < s.params.fifoSlots →
    (s.fifoWr = s.fifoRd → exec .fifoGet s = .next { s with getResult := some none }) ∧
    (s.fifoWr ≠ s.fifoRd →
      ∃ t, exec .fifoGet s = .next t ∧
        t = { s with
              fifoRd := (s.fifoRd + 1) % s.params.fifoSlots, getResult := some (some (fifoSlot s s.fifoRd)) } ∧
        fifoIsFull t = false ∧
        (fifoEmpty t = true ↔ fifoCount t = 0) ∧
        fifoCount t + 1 = fifoCount s)

/-- R147: get on an empty FIFO. -/
def Obligations.GetOnEmptyFifoReturnsNothing : Prop :=
  ∀ s : State, s.fifoWr = s.fifoRd → exec .fifoGet s = .next { s with getResult := some none }

/-- R148, R149: the two queries report the cursors' relation and change nothing else. -/
def Obligations.FifoQueriesReportTheFlags : Prop :=
  ∀ s : State,
    exec .fifoIsEmpty s = .next { s with isEmptyResult := some (decide (s.fifoWr = s.fifoRd)) } ∧
    exec .fifoFull s = .next { s with fullResult := some (decide ((s.fifoWr + 1) % s.params.fifoSlots = s.fifoRd)) }

/-- R85: from an empty FIFO, in any run of the machine without a block reset, the bytes ENGINE has taken are a prefix of the
bytes that put has accepted, and the FIFO holds the rest in order. -/
def Obligations.FifoDeliversAcceptedBytesInOrder : Prop :=
  ∀ (s t : State) (accepted taken : List Byte), Inv s → fifoHeld s = [] → FifoRun s accepted taken t →
    taken <+: accepted ∧ accepted = taken ++ fifoHeld t

/-- R152: a put and a get at the same instant, each seeing the other's cursor as it was, have the result of put first on a
full FIFO, of get first on an empty one, and of both orders alike otherwise. -/
def Obligations.SimultaneousPutAndGetHaveOneResult : Prop :=
  ∀ (s : State) (b : Byte), Inv s →
    (fifoIsFull s = true →
      ∃ t u, exec (.fifoPut b) s = .next t ∧ exec .fifoGet t = .next u ∧
        u.putResult = some false ∧ u.getResult = some (some (fifoSlot s s.fifoRd)) ∧ fifoHeld u = (fifoHeld s).tail) ∧
    (fifoEmpty s = true →
      ∃ t u, exec .fifoGet s = .next t ∧ exec (.fifoPut b) t = .next u ∧
        u.getResult = some none ∧ u.putResult = some true ∧ fifoHeld u = [b]) ∧
    (fifoIsFull s = false → fifoEmpty s = false →
      ∃ t u v, exec (.fifoPut b) s = .next t ∧ exec .fifoGet s = .next u ∧
        exec .fifoGet t = .next v ∧ exec (.fifoPut b) u = .next v ∧
        v.putResult = some true ∧ v.getResult = some (some (fifoSlot s s.fifoRd)) ∧
        fifoHeld v = (fifoHeld s).tail ++ [b])

/-- R150: a delivery (its events in order, log entry 5) with no get in between stores as many of its bytes, in order, as
there is room for. -/
def Obligations.DeliveryStoresWhatFits : Prop :=
  ∀ (s : State) (bs : List Byte), Inv s →
    ∃ t, runSteps bs.length (deliver bs s) = .next t ∧ t.inputs = s.inputs ∧
      fifoHeld t = fifoHeld s ++ bs.take (s.params.fifoSlots - 1 - fifoCount s)

/-- R84, R220: a put during a dispatch step gives what it gives before or after it. That it is placed before or after the
whole step is the model's choice (log entry 15). -/
def Obligations.PutCommutesWithDispatch : Prop :=
  ∀ (s t : State) (b : Byte), exec .engDispatch s = .next t →
    ∃ u v, exec (.fifoPut b) t = .next u ∧ exec (.fifoPut b) s = .next v ∧ exec .engDispatch v = .next u

/-! ## The decoder -/

/-- R171: a byte taken in AwaitingStart. -/
def Obligations.StartByteIsJudged : Prop :=
  ∀ s : State, s.engPhase = .idle → s.fifoWr ≠ s.fifoRd → s.decState = .awaitingStart →
    exec .decFeed s = .next
      (if fifoSlot s s.fifoRd = 0xAA then { tookByte s with decState := .awaitingOpcode } else tookByte s)

/-- R172: a byte taken in AwaitingOpcode. -/
def Obligations.OpcodeByteIsStored : Prop :=
  ∀ s : State, s.engPhase = .idle → s.fifoWr ≠ s.fifoRd → s.decState = .awaitingOpcode →
    exec .decFeed s = .next
      { tookByte s with decOpcode := fifoSlot s s.fifoRd, decState := .awaitingLength, decIdx := 0 }

/-- R173: the first length byte. -/
def Obligations.FirstLengthByteIsTheLowByte : Prop :=
  ∀ s : State, s.engPhase = .idle → s.fifoWr ≠ s.fifoRd → s.decState = .awaitingLength → s.decIdx = 0 →
    exec .decFeed s = .next { tookByte s with decLength := (fifoSlot s s.fifoRd).setWidth 16, decIdx := 1 }

/-- R174: the second length byte. `L` is the little-endian length. -/
def Obligations.SecondLengthByteIsJudged : Prop :=
  ∀ (s : State) (L : Half), s.engPhase = .idle → s.fifoWr ≠ s.fifoRd → s.decState = .awaitingLength → s.decIdx = 1 →
    L.toNat = s.decLength.toNat % 256 + 256 * (fifoSlot s s.fifoRd).toNat →
    exec .decFeed s = .next
      (if 4096 < L.toNat then erroredWith 0x02 { tookByte s with decLength := L }
       else if L.toNat = 0 then { tookByte s with decLength := L, decState := .awaitingCrc, decIdx := 0 }
       else { tookByte s with decLength := L, decState := .awaitingPayload, decIdx := 0 })

/-- R175, R176: a payload byte is stored at `dec_idx`, and the last one begins the CRC field. -/
def Obligations.PayloadByteIsStoredAtItsIndex : Prop :=
  ∀ s : State, s.engPhase = .idle → s.fifoWr ≠ s.fifoRd → s.decState = .awaitingPayload →
    s.decLength.toNat ≤ 4096 → s.decIdx.toNat < s.decLength.toNat → s.decPayload.wf Config.slotFill →
    ∃ t, exec .decFeed s = .next t ∧
      (∀ i, payloadByte t i = if i = s.decIdx.toNat then fifoSlot s s.fifoRd else payloadByte s i) ∧
      (s.decIdx.toNat + 1 < s.decLength.toNat →
        t = { tookByte s with decPayload := t.decPayload, decIdx := s.decIdx + 1 }) ∧
      (s.decIdx.toNat + 1 = s.decLength.toNat →
        t = { tookByte s with decPayload := t.decPayload, decState := .awaitingCrc, decIdx := 0 })

/-- R179: CRC bytes 0 to 2. -/
def Obligations.CrcByteIsPlacedAtItsBits : Prop :=
  ∀ s : State, s.engPhase = .idle → s.fifoWr ≠ s.fifoRd → s.decState = .awaitingCrc → s.decIdx.toNat < 3 →
    ∃ t, exec .decFeed s = .next t ∧
      t = { tookByte s with decCrcRx := t.decCrcRx, decIdx := s.decIdx + 1 } ∧
      ∀ k, k < 4 → t.decCrcRx.extractLsb' (8 * k) 8 =
        if k = s.decIdx.toNat then fifoSlot s s.fifoRd else s.decCrcRx.extractLsb' (8 * k) 8

/-- R177, R178, R180: the fourth CRC byte. `rx` is the whole received CRC. That `dec_crc_rx` holds it after a match is read
from R41 (log entry 8). -/
def Obligations.FourthCrcByteDecidesTheFrame : Prop :=
  ∀ (s : State) (rx : Word), s.engPhase = .idle → s.fifoWr ≠ s.fifoRd → s.decState = .awaitingCrc → s.decIdx = 3 →
    s.decLength.toNat ≤ 4096 →
    rx.toNat = s.decCrcRx.toNat % 2 ^ 24 + 2 ^ 24 * (fifoSlot s s.fifoRd).toNat →
    exec .decFeed s = .next
      (if rx = crc32 s.params.crc ([0xAA, s.decOpcode] ++ bytes16 s.decLength ++ heldPayload s) then
        { tookByte s with decCrcRx := rx, frameReady := true, engPhase := .dispatch, feedResult := some true }
       else erroredWith 0x05 (tookByte s))

/-- R181: a byte taken in a state that is not in the table. -/
def Obligations.CorruptDecoderStateAnswersErrOpcode : Prop :=
  ∀ (s : State) (k : Fin 3), s.engPhase = .idle → s.fifoWr ≠ s.fifoRd → s.decState = .corrupt k →
    exec .decFeed s = .next (erroredWith 0x01 (tookByte s))

/-- R170, R183: feed answers true only on the fourth CRC byte of a frame whose CRC matches, and then ENGINE leaves IDLE, so
that no byte is taken until decoder reset. Two clauses are the model's choice: that `dec_crc_rx` holds the whole received CRC
(log entry 8), and that a further DEC.FEED goes on with no change (log entry 6). -/
def Obligations.FeedIsTrueOnlyOnAnAcceptedFrame : Prop :=
  ∀ s t : State, s.engPhase = .idle → s.fifoWr ≠ s.fifoRd → exec .decFeed s = .next t →
    (t.feedResult = some true →
      s.decState = .awaitingCrc ∧ s.decIdx = 3 ∧ t.decCrcRx = crcCalc s ∧ t.frameReady = true ∧ t.engPhase = .dispatch ∧
        exec .decFeed t = .next t) ∧
    (t.feedResult ≠ some true → t.feedResult = some false ∧ t.engPhase ≠ .dispatch)

/-- R170, R186, R220, R229, R235: the ENGINE operations that wait for a phase do nothing in another one: no byte is taken
while `eng_phase` is DISPATCH, TX or HALTED. That such an operation goes on with no change is the model's reading of "no
step" (log entry 6). -/
def Obligations.EngineOperationsWaitForTheirPhase : Prop :=
  ∀ s : State,
    (s.engPhase ≠ .idle → exec .decFeed s = .next s ∧ exec .decTimeout s = .next s) ∧
    (s.engPhase ≠ .dispatch → exec .engDispatch s = .next s) ∧
    (s.engPhase ≠ .tx → exec .engTx s = .next s)

/-- R182: decoder reset. -/
def Obligations.DecoderResetClearsOnlyItsRegisters : Prop :=
  ∀ s : State, exec .decReset s = .next
    { s with decState := .awaitingStart, decIdx := 0, decCrcRx := 0, frameReady := false }

/-- R186: the idle timeout, strict, with the elapsed time modulo 2^32. -/
def Obligations.StaleFrameIsDroppedAfterTheTimeout : Prop :=
  ∀ s : State, s.engPhase = .idle → s.fifoWr = s.fifoRd → s.decState ≠ .awaitingStart →
    exec .decTimeout s = .next
      (if 500 < (s.nowMs.toNat + 2 ^ 32 - s.lastActivity.toNat) % 2 ^ 32 then
        { s with decState := .awaitingStart, decIdx := 0, decCrcRx := 0, frameReady := false }
       else s)

/-- R187: the idle refresh. -/
def Obligations.IdleRefreshSetsTheTimestamp : Prop :=
  ∀ s : State, s.engPhase = .idle → s.fifoWr = s.fifoRd → s.decState = .awaitingStart →
    exec .decTimeout s = .next { s with lastActivity := s.nowMs }

/-- R189: a well-formed frame that arrives with no timeout in it is accepted on its last byte, once, with its fields, and
nothing is sent. -/
def Obligations.WellFormedFrameIsAcceptedOnItsLastByte : Prop :=
  ∀ (s : State) (op : Byte) (p : List Byte) (rest : List Turn), Inv s → s.engPhase = .idle →
    s.decState = .awaitingStart → s.fifoWr = s.fifoRd → p.length ≤ 4096 →
    s.inputs = slowly (frame s.params.crc op p) ++ rest →
    ∃ t, runSteps (2 * (8 + p.length)) s = .next t ∧
      t.feedResult = some true ∧ t.frameReady = true ∧ t.engPhase = .dispatch ∧
      t.decOpcode = op ∧ t.decLength.toNat = p.length ∧ heldPayload t = p ∧
      t.inputs = rest ∧ t.txOut = s.txOut ∧ t.flash = s.flash ∧
      ∀ k u, k < 2 * (8 + p.length) → runSteps k s = .next u → u.frameReady = false

/-! ## Dispatch and responses -/

/-- R220, R221: ENG.DISPATCH carries out the command that the held frame's opcode selects; and where ENGINE is fair no
frame waits in DISPATCH for ever (R329). -/
def Obligations.DispatchRunsTheSelectedCommand : Prop :=
  (∀ s : State, s.engPhase = .dispatch → s.decLength.toNat ≤ 4096 →
    ∃ t, exec .engDispatch s = .next t ∧ exec (selectCommand s.decOpcode (heldPayload s)) s = .next t) ∧
  ∀ (turns : Nat → Turn) (ρ : Nat → State) (n : Nat), Run turns ρ → EngineFair turns ρ → (ρ n).engPhase = .dispatch →
    ∃ m, n ≤ m ∧ (ρ m).engPhase ≠ .dispatch

/-- A step runs the decoded instruction: where the held frame decodes to `i` and ENGINE steps next, the step is `exec i` in
the state in which the pending event is taken and the last dispatch pulse is over: the list of events and the length of the
pulse are the model's choices (log entries 5 and 7). -/
def Obligations.StepRunsTheDecodedFrame : Prop :=
  ∀ (s : State) (i : Instr) (rest : List Byte), configRefusal s.params = none → nextTurn s = .engine →
    s.engPhase = .dispatch → s.decLength.toNat ≤ 4096 →
    decode s.params.crc (frame s.params.crc s.decOpcode (heldPayload s)) = .instr i rest →
    step s = exec i { s with inputs := s.inputs.tail, frameDispatched := false }

/-- R318, R321, R229, R49, R350: which operation a step runs, for every event that the rules allow. The model's choices: the
list of pending events and the wait of an ENGINE event in TX, whose byte leaves on the sink's accept (log entry 5); the step
that goes on unchanged in HALTED and the port use of ENGINE outside IDLE that changes nothing (log entry 6); the pulse that
`beginTurn` lowers (log entry 7). -/
def Obligations.StepRunsTheAgentsOperation : Prop :=
  ∀ s : State, configRefusal s.params = none →
    (∀ b, nextTurn s = .rx b → step s = exec (.fifoPut b) (beginTurn s)) ∧
    (nextTurn s = .txAccept → step s = exec .engTx (beginTurn s)) ∧
    (nextTurn s = .engine → s.engPhase = .halted → step s = .next (beginTurn s)) ∧
    (nextTurn s = .engine → s.engPhase = .tx → step s = .next (beginTurn s)) ∧
    (nextTurn s = .engine → s.engPhase = .dispatch → step s = exec .engDispatch (beginTurn s)) ∧
    (nextTurn s = .engine → s.engPhase = .idle → s.fifoWr ≠ s.fifoRd → step s = exec .decFeed (beginTurn s)) ∧
    (nextTurn s = .engine → s.engPhase = .idle → s.fifoWr = s.fifoRd → step s = exec .decTimeout (beginTurn s)) ∧
    (∀ b, nextTurn s = .port .producer (.put b) → step s = exec (.fifoPut b) (beginTurn s)) ∧
    (∀ op, (∀ b, op ≠ .put b) → nextTurn s = .port .engine op → s.engPhase ≠ .idle → step s = .next (beginTurn s)) ∧
    (nextTurn s = .port .engine .get → s.engPhase = .idle → step s = exec .fifoGet (beginTurn s)) ∧
    (nextTurn s = .port .engine .isEmpty → s.engPhase = .idle → step s = exec .fifoIsEmpty (beginTurn s)) ∧
    (nextTurn s = .port .engine .full → s.engPhase = .idle → step s = exec .fifoFull (beginTurn s)) ∧
    (∀ ms, nextTurn s = .elapse ms →
      ∃ now : Word, now.toNat = (s.nowMs.toNat + ms.toNat) % 2 ^ 32 ∧ step s = .next { beginTurn s with nowMs := now }) ∧
    (nextTurn s = .rst → step s = .next (blockReset (beginTurn s)))

/-- R229: a byte of the response that is not the last is handed over. -/
def Obligations.TransmitHandsOverTheNextByte : Prop :=
  ∀ (s : State) (b : Byte), s.engPhase = .tx → s.txBuf[s.txIdx]? = some b → s.txIdx + 1 < s.txBuf.length →
    exec .engTx s = .next { s with txOut := s.txOut ++ [b], txIdx := s.txIdx + 1 }

/-- R230, R231, R232, R234, R185 (c): what follows the last byte of a response. After BOOT and RESET two clauses are the
model's choice: `frame_ready` stays 1, where R184 lists only DISPATCH and TX (log entry 9), and `last_activity` is refreshed
as after every dispatch, where R230 names R231 for DECODER_RESET alone (log entry 26). -/
def Obligations.LastResponseByteDecidesWhatFollows : Prop :=
  ∀ (s : State) (b : Byte), s.engPhase = .tx → s.txBuf[s.txIdx]? = some b → s.txIdx + 1 = s.txBuf.length →
    exec .engTx s = .next
      (let sent := { s with txOut := s.txOut ++ [b], txIdx := s.txIdx + 1 }
       match s.engAfterTx with
       | .none => { sent with engPhase := .idle }
       | .decoderReset =>
         { sent with
           decState := .awaitingStart, decIdx := 0, decCrcRx := 0, frameReady := false, lastActivity := s.nowMs
           engPhase := .idle, engAfterTx := .none }
       | .boot => { sent with bootRequest := true, lastActivity := s.nowMs, engPhase := .halted }
       | .reset => { sent with resetRequest := true, lastActivity := s.nowMs, engPhase := .halted })

/-- R229: as often as the sink accepts, the response's bytes leave in order, and then the response is over. R329: where the
sink at last accepts every response ends, and where it never does ENGINE stays in TX, with the same response, for ever. That
a byte leaves on the sink's accept event is the model's choice (log entry 5). -/
def Obligations.ResponseLeavesWholeAndInOrder : Prop :=
  (∀ (s : State) (rest : List Turn), configRefusal s.params = none → s.engPhase = .tx → s.txIdx = 0 → s.txBuf ≠ [] →
    s.inputs = List.replicate s.txBuf.length .txAccept ++ rest →
    ∃ t, runSteps s.txBuf.length s = .next t ∧ t.txOut = s.txOut ++ s.txBuf ∧ t.engPhase ≠ .tx ∧ t.inputs = rest ∧
      t.fifoRd = s.fifoRd ∧ t.flash = s.flash) ∧
  (∀ (turns : Nat → Turn) (ρ : Nat → State) (n : Nat), Run turns ρ → SinkFair turns ρ → (ρ n).engPhase = .tx →
    ∃ m, n ≤ m ∧ (ρ m).engPhase ≠ .tx) ∧
  ∀ (turns : Nat → Turn) (ρ : Nat → State) (n : Nat), Run turns ρ → (ρ n).engPhase = .tx →
    (∀ m, n ≤ m → turns m ≠ .txAccept ∧ turns m ≠ .rst) →
    ∀ m, n ≤ m → (ρ m).engPhase = .tx ∧ (ρ m).txBuf = (ρ n).txBuf ∧ (ρ m).txIdx = (ρ n).txIdx ∧
      (ρ m).txOut = (ρ n).txOut ∧ (ρ m).fifoRd = (ρ n).fifoRd

/-- R228, R236: every command answers with a frame of its own opcode whose payload is 1 or 3 bytes long, and that frame
decodes. -/
def Obligations.EveryCommandAnswersWithItsOpcode : Prop :=
  ∀ (s : State) (i : Instr) (op : Byte) (p : List Byte), wireFields i = some (op, p) →
    ∃ t q, exec i s = .next t ∧ t.txBuf = frame s.params.crc op q ∧ t.txIdx = 0 ∧ t.engPhase = .tx ∧
      t.frameDispatched = true ∧ t.engAfterTx ≠ .none ∧ (q.length = 1 ∨ q.length = 3) ∧
      decode s.params.crc t.txBuf = .instr (selectCommand op q) []

/-! ## The commands that touch no flash -/

/-- R222 to R225: INQUIRY. That the version is answered where the two subcodes are equal is the model's choice (log entry
16). -/
def Obligations.InquiryAnswersVersionOrMtu : Prop :=
  ∀ s : State,
    (∀ p : List Byte, p.length ≠ 1 → exec (.cmdInquiry p) s = .next (answered .decoderReset 0x10 [0x06] s)) ∧
    (∀ sub : Byte, sub = s.params.subVersion → exec (.cmdInquiry [sub]) s =
      .next (answered .decoderReset 0x10 [0x00, s.params.versionMajor, s.params.versionMinor] s)) ∧
    (∀ sub : Byte, sub = s.params.subMtu → sub ≠ s.params.subVersion → exec (.cmdInquiry [sub]) s =
      .next (answered .decoderReset 0x10 [0x00, 0x00, 0x10] s)) ∧
    (∀ sub : Byte, sub ≠ s.params.subMtu → sub ≠ s.params.subVersion → exec (.cmdInquiry [sub]) s =
      .next (answered .decoderReset 0x10 [0x06] s))

/-- R226: READ is acked, whatever its payload. -/
def Obligations.ReadIsAckedOnly : Prop :=
  ∀ (s : State) (p : List Byte), exec (.cmdRead p) s = .next (answered .decoderReset 0x21 [0x00] s)

/-- R227: NONE and every unrecognized opcode are answered ERR_UNKNOWN under their own opcode. -/
def Obligations.UnknownOpcodeAnswersErrUnknown : Prop :=
  ∀ (s : State) (op : Byte) (p : List Byte),
    exec (.cmdNone p) s = .next (answered .decoderReset 0x00 [0xFF] s) ∧
    exec (.cmdUnrecognized op p) s = .next (answered .decoderReset op [0xFF] s)

/-- R232, R234: BOOT and RESET are acked, and what follows the ack is noted. -/
def Obligations.BootAndResetAckFirst : Prop :=
  ∀ (s : State) (p : List Byte),
    exec (.cmdBoot p) s = .next (answered .boot 0x11 [0x00] s) ∧
    exec (.cmdReset p) s = .next (answered .reset 0x1F [0x00] s)

/-- R235, R361: only block reset leaves HALTED; until then every step goes on and changes nothing but what PRODUCER's put and
the passing of time change, the pending events and the pulse. The model's choices: that such a step goes on (log entry 6) and
that it lowers the pulse (log entry 7). -/
def Obligations.HaltedUntilBlockReset : Prop :=
  ∀ s : State, configRefusal s.params = none → s.engPhase = .halted → nextTurn s ≠ .rst →
    (∀ a op, nextTurn s = .port a op → portRefusal a op = none) →
    ∃ t, step s = .next t ∧
      t = { s with
            fifoMem := t.fifoMem, fifoWr := t.fifoWr, putResult := t.putResult
            nowMs := t.nowMs, inputs := s.inputs.tail, frameDispatched := false } ∧
      ((∀ b, nextTurn s ≠ .rx b) → (∀ b, nextTurn s ≠ .port .producer (.put b)) →
        t.fifoMem = s.fifoMem ∧ t.fifoWr = s.fifoWr ∧ t.putResult = s.putResult) ∧
      ((∀ ms, nextTurn s ≠ .elapse ms) → t.nowMs = s.nowMs)

/-! ## ERASE -/

/-- R263, R266, R267: the rejections of ERASE, in the order of its checks; no flash request is made. -/
def Obligations.EraseIsRejectedBeforeAnyRequest : Prop :=
  ∀ (s : State) (p : List Byte),
    (p.length ≠ 8 → exec (.cmdErase p) s = .next (answered .decoderReset 0x20 [0x06] s)) ∧
    (p.length = 8 → meetsProtected p → exec (.cmdErase p) s = .next (answered .decoderReset 0x20 [0xFF] s))

/-- R264, R268, R269: ERASE unlocks, erases in increasing order exactly the sectors whose start lies in the range, locks,
and acks. Every flash byte outside those sectors keeps its value, and when the controller's results are ok every byte of
them reads 0xFF (R78). R78 says only that an erase may fail, and gives the block no result: that each erase uses up the oldest
listed result, and that the listed results decide which erases succeed, is the model's choice (log entry 3). -/
def Obligations.EraseErasesTheSelectedSectors : Prop :=
  ∀ (s : State) (p : List Byte), p.length = 8 → ¬ meetsProtected p →
    ∃ t, exec (.cmdErase p) s = .next t ∧
      t = { answered .decoderReset 0x20 [0x00] s with
            flash := t.flash
            flashLocked := true
            flashRequests := s.flashRequests ++ [.unlock] ++
              (selectedSectors s.params (rangeOf p)).map .eraseSector ++ [.lock]
            flashResults := s.flashResults.drop (selectedSectors s.params (rangeOf p)).length
            draws := t.draws } ∧
      (∀ a, ¬ inSelectedSector s.params (rangeOf p) a → flashByte t a = flashByte s a) ∧
      ((selectedSectors s.params (rangeOf p)).length ≤ s.flashResults.length →
        (∀ r ∈ s.flashResults.take (selectedSectors s.params (rangeOf p)).length, r = .ok) →
        ∀ a, inSelectedSector s.params (rangeOf p) a → flashByte t a = 0xFF)

/-! ## WRITE -/

/-- R263, R272, R273: the rejections of WRITE; no flash request is made. -/
def Obligations.WriteIsRejectedBeforeAnyRequest : Prop :=
  ∀ (s : State) (p : List Byte),
    (p.length < 8 ∨ p.length ≠ 8 + (rangeOf p).size.toNat →
      exec (.cmdWrite p) s = .next (answered .decoderReset 0x22 [0x06] s)) ∧
    (p.length = 8 + (rangeOf p).size.toNat → meetsProtected p →
      exec (.cmdWrite p) s = .next (answered .decoderReset 0x22 [0xFF] s))

/-- R264, R274, R276, R277: WRITE unlocks, requests every word in increasing order, locks, and acks whatever the results.
Every flash byte outside those words keeps its value, and every byte does when the address is misaligned (R79, R278). -/
def Obligations.WriteRequestsEveryWord : Prop :=
  ∀ (s : State) (p : List Byte), p.length = 8 + (rangeOf p).size.toNat → ¬ meetsProtected p →
    ∃ t, exec (.cmdWrite p) s = .next t ∧
      t = { answered .decoderReset 0x22 [0x00] s with
            flash := t.flash
            flashLocked := true
            flashRequests := s.flashRequests ++ [.unlock] ++
              (List.range (wordCount (rangeOf p).size.toNat)).map
                (fun k => .programWord (wordAddress (rangeOf p) k) (dataWord (p.drop 8) (4 * k))) ++ [.lock]
            flashResults := t.flashResults
            draws := t.draws } ∧
      (∀ a, ¬ inWrittenWords (rangeOf p) a → flashByte t a = flashByte s a) ∧
      ((rangeOf p).address.toNat % 4 ≠ 0 → t.flash = s.flash)

/-- R79, R81, R274, R275: a WRITE to erased, aligned words inside the sectors, whose programs succeed, leaves the data in
flash, and 0xFF in the rest of the last word. That the listed results decide which programs succeed is the model's choice
(log entry 3). -/
def Obligations.WriteToErasedWordsStoresTheData : Prop :=
  ∀ (s : State) (p : List Byte), s.flash.wf Config.erasedByte →
    p.length = 8 + (rangeOf p).size.toNat → p.length ≤ 4096 → ¬ meetsProtected p →
    (rangeOf p).address.toNat % 4 = 0 →
    (∀ k < wordCount (rangeOf p).size.toNat, wordInOneSector s.params (wordAddress (rangeOf p) k).toNat = true) →
    (∀ a, inWrittenWords (rangeOf p) a → flashByte s a = 0xFF) →
    (∀ r ∈ s.flashResults.take (wordCount (rangeOf p).size.toNat), r = .ok) →
    wordCount (rangeOf p).size.toNat ≤ s.flashResults.length →
    ∃ t, exec (.cmdWrite p) s = .next t ∧
      ∀ i < 4 * wordCount (rangeOf p).size.toNat,
        flashByte t (readAddress (rangeOf p) i) = ((p.drop 8)[i]?).getD 0xFF

/-! ## VERIFY -/

/-- R280 to R282: VERIFY compares the CRC of the bytes read, in increasing address order, each address modulo 2^32; a byte
outside the flash array is any byte (R76). Apart from the response nothing changes, and the only requests are reads. -/
def Obligations.VerifyComparesTheCrcOfTheRange : Prop :=
  ∀ (s : State) (p : List Byte),
    (p.length ≠ 12 → exec (.cmdVerify p) s = .next (answered .decoderReset 0x23 [0x06] s)) ∧
    (p.length = 12 →
      ∃ (bytes : List Byte) (drawn : Nat) (reads : List FlashRequest), bytes.length = (rangeOf p).size.toNat ∧
        (∀ i < (rangeOf p).size.toNat, inFlash s.params (readAddress (rangeOf p) i) = true →
          bytes[i]? = some (flashByte s (readAddress (rangeOf p) i))) ∧
        (∀ q ∈ reads, ∃ a n, q = .read a n) ∧
        exec (.cmdVerify p) s = .next
          { answered .decoderReset 0x23 (if crc32 s.params.crc bytes = field32 p 8 then [0x00] else [0x05]) s with
            flashRequests := s.flashRequests ++ reads
            draws := drawn })

/-- R283 (b): VERIFY with the same operands on the same flash gives the same response, inside the flash array. -/
def Obligations.VerifyIsIdempotentInsideFlash : Prop :=
  ∀ (s t s' t' : State) (p : List Byte), s.params = s'.params → (∀ a, flashByte s a = flashByte s' a) →
    (∀ i < (rangeOf p).size.toNat, inFlash s.params (readAddress (rangeOf p) i) = true) →
    exec (.cmdVerify p) s = .next t → exec (.cmdVerify p) s' = .next t' →
    t.txBuf = t'.txBuf ∧ t.flash = s.flash ∧ t'.flash = s'.flash

/-! ## Flash primitives and protection -/

/-- R79: FlashProgramWord fails with no change on a locked controller, at a misaligned address and outside the sectors;
otherwise it answers what the port draws, and stores the word little-endian when the port succeeds on erased bytes; it never
changes a byte outside the word. R79 says only that the port draws ok or fail: that the draw is the oldest listed result where
there is one, and a free value where there is none, is the model's choice (log entry 3). -/
def Obligations.ProgramWordPrimitiveFollowsItsTable : Prop :=
  ∀ (s : State) (addr w : Word), s.flash.wf Config.erasedByte →
    (s.flashLocked = true ∨ addr.toNat % 4 ≠ 0 ∨ wordInOneSector s.params addr.toNat = false →
      (flashProgramWord addr w s).1 = .fail ∧ (flashProgramWord addr w s).2.flash = s.flash) ∧
    (s.flashLocked = false → addr.toNat % 4 = 0 → wordInOneSector s.params addr.toNat = true →
      (flashProgramWord addr w s).1 = (nextResult (request (.programWord addr w) s)).1 ∧
      ((nextResult (request (.programWord addr w) s)).1 = .ok → (∀ k < 4, flashByte s (addr.toNat + k) = 0xFF) →
        ∀ k < 4, flashByte (flashProgramWord addr w s).2 (addr.toNat + k) = w.extractLsb' (8 * k) 8)) ∧
    (∀ r rest, s.flashResults = r :: rest → (nextResult (request (.programWord addr w) s)).1 = r) ∧
    (∀ a, ¬ (addr.toNat ≤ a ∧ a < addr.toNat + 4) →
      flashByte (flashProgramWord addr w s).2 a = flashByte s a)

/-- R284, R71: no step of the machine changes a byte of the protected range. -/
def Obligations.ProtectedRangeIsNeverChanged : Prop :=
  ∀ (s t : State) (a : Nat), step s = .next t → 0x08000000 ≤ a → a < 0x0800C000 → flashByte t a = flashByte s a

/-- R264, R284 (a): the flash requests of a step never erase a sector whose start lies in the protected range, and a step
that erases or programs unlocks first and locks last. -/
def Obligations.FlashRequestsAreBracketedAndOutsideProtection : Prop :=
  ∀ s t : State, step s = .next t →
    ∃ new, t.flashRequests = s.flashRequests ++ new ∧
      (∀ j, .eraseSector j ∈ new → startsInProtected s.params j = false) ∧
      ((∃ j, .eraseSector j ∈ new) ∨ (∃ a w, .programWord a w ∈ new) →
        new.head? = some .unlock ∧ new.getLast? = some .lock ∧ t.flashLocked = true)

/-! ## The whole machine -/

/-- R153, R184, R45, R357: every step keeps the invariant. That `frame_ready` stays 1 in HALTED, beyond the phases R184
lists, is R230's (log entry 9). -/
def Obligations.StepKeepsInvariant : Prop :=
  ∀ s t : State, Inv s → step s = .next t → Inv t

/-- The invariant holds right after reset. -/
def Obligations.ResetMeetsInvariant : Prop := Inv State.reset

/-- From a state that meets the invariant, a step goes on to a next state, except where an agent that has no right to a
FIFO port uses it (R151, R184, R310, R355): no fault is reachable. That a step goes on in HALTED is the model's choice (log
entry 6), and so is the refusal of `full` by another agent than ENGINE (log entry 14). -/
def Obligations.InvariantStatesNeverFault : Prop :=
  ∀ s : State, Inv s →
    (∃ t, step s = .next t) ∨
    ∃ a op r, nextTurn s = .port a op ∧ portRefusal a op = some r ∧ step s = .refused r

/-- R51: no step changes a parameter. -/
def Obligations.NoStepChangesAParameter : Prop :=
  ∀ s t : State, step s = .next t → t.params = s.params

/-- R154, R316: every operation but the FIFO's own and DEC.FEED leaves the FIFO's storage and cursors untouched. -/
def Obligations.OnlyFifoOperationsTouchTheFifo : Prop :=
  ∀ (s t : State) (i : Instr), exec i s = .next t →
    ((∀ b, i ≠ .fifoPut b) → t.fifoMem = s.fifoMem ∧ t.fifoWr = s.fifoWr) ∧
    (i ≠ .fifoGet → i ≠ .decFeed → t.fifoRd = s.fifoRd)

/-- R350, R77, R351: block reset. The buffers' contents are not stated (R32, R40). That `now_ms` is kept is the model's
choice (log entry 12). -/
def Obligations.BlockResetClearsTheBlockAndKeepsFlash : Prop :=
  ∀ s : State, configRefusal s.params = none → nextTurn s = .rst →
    ∃ t, step s = .next t ∧ t.fifoWr = 0 ∧ t.fifoRd = 0 ∧ t.decState = .awaitingStart ∧ t.decOpcode = 0x00 ∧
      t.decLength = 0 ∧ t.decIdx = 0 ∧ t.decCrcRx = 0 ∧ t.frameReady = false ∧ t.engPhase = .idle ∧ t.txBuf = [] ∧
      t.txIdx = 0 ∧ t.engAfterTx = .none ∧ t.flashLocked = true ∧ t.bootRequest = false ∧ t.resetRequest = false ∧
      t.frameDispatched = false ∧ t.flash = s.flash ∧ t.params = s.params ∧ t.nowMs = s.nowMs

/-- R43: the first ENGINE step after block reset, whether bytes have come in or not, sets `last_activity` to `now_ms`. -/
def Obligations.FirstEngineStepSetsTheTimestamp : Prop :=
  ∀ s : State, configRefusal s.params = none → nextTurn s = .engine → s.engPhase = .idle →
    s.decState = .awaitingStart →
    ∃ t, step s = .next t ∧ t.lastActivity = s.nowMs

/-- R72, R151, R353, R355: what the model refuses: fewer than two slots, a sector table whose offsets are not the running
offsets, a second producer and a second consumer. Two of the refusals are the model's choice (log entry 14). -/
def Obligations.OutsideTheRulesIsRefused : Prop :=
  ∀ s : State,
    (s.params.fifoSlots < 2 → step s = .refused .fifoSlotsTooFew) ∧
    (2 ≤ s.params.fifoSlots → offsetsMatch s.params.sectors 0 = false → step s = .refused .illFormedSectorTable) ∧
    (∀ a b, configRefusal s.params = none → nextTurn s = .port a (.put b) → a ≠ .producer →
      step s = .refused .secondProducer) ∧
    (∀ a op, configRefusal s.params = none → nextTurn s = .port a op → a ≠ .engine → (∀ b, op ≠ .put b) →
      step s = .refused .secondConsumer)
end

