-- ==== Sys2Proof/Laws/Decode.lean ====
section
/-! SUPPORT. The byte-order functions undo each other (R14, R100), what the encoding limits say, and how a command and its
wire fields belong together (R106, R107). -/

namespace Sys2Proof

theorem payloadFits_iff {p : List Byte} : payloadFits p = true ↔ p.length ≤ 4096 := by
  unfold payloadFits; rw [decide_eq_true_iff]; rfl

theorem le32_toNat (a b c d : Byte) :
    (le32 a b c d).toNat = a.toNat + 2 ^ 8 * b.toNat + 2 ^ 16 * c.toNat + 2 ^ 24 * d.toNat := by
  have := a.isLt; have := b.isLt; have := c.isLt; have := d.isLt
  simp [le32]; omega

theorem le16_toNat (a b : Byte) : (le16 a b).toNat = a.toNat + 256 * b.toNat := by
  have := a.isLt; have := b.isLt
  simp [le16]; omega

theorem le32_bytes32 (v : Word) :
    le32 (v.extractLsb' 0 8) (v.extractLsb' 8 8) (v.extractLsb' 16 8) (v.extractLsb' 24 8) = v := by
  apply BitVec.eq_of_toNat_eq
  have := v.isLt
  simp [le32, BitVec.extractLsb'_toNat, Nat.shiftRight_eq_div_pow]; omega

theorem bytes32_le32 (a b c d : Byte) : bytes32 (le32 a b c d) = [a, b, c, d] := by
  have := a.isLt; have := b.isLt; have := c.isLt; have := d.isLt
  simp only [bytes32, List.cons.injEq, and_true]
  refine ⟨?_, ?_, ?_, ?_⟩ <;> apply BitVec.eq_of_toNat_eq <;>
    simp only [BitVec.extractLsb'_toNat, Nat.shiftRight_eq_div_pow, le32_toNat] <;> omega

theorem le16_bytes16 (v : Half) : le16 (v.extractLsb' 0 8) (v.extractLsb' 8 8) = v := by
  apply BitVec.eq_of_toNat_eq
  have := v.isLt
  simp [le16, BitVec.extractLsb'_toNat, Nat.shiftRight_eq_div_pow]; omega

theorem bytes16_le16 (a b : Byte) : bytes16 (le16 a b) = [a, b] := by
  have := a.isLt; have := b.isLt
  simp only [bytes16, List.cons.injEq, and_true]
  refine ⟨?_, ?_⟩ <;> apply BitVec.eq_of_toNat_eq <;>
    simp only [BitVec.extractLsb'_toNat, Nat.shiftRight_eq_div_pow, le16_toNat] <;> omega

/-- Two words with the same four bytes are the same word. -/
theorem word_eq_of_bytes {x y : Word} (h : ∀ j < 4, x.extractLsb' (8 * j) 8 = y.extractLsb' (8 * j) 8) : x = y := by
  apply BitVec.eq_of_toNat_eq
  have h0 := congrArg BitVec.toNat (h 0 (by omega))
  have h1 := congrArg BitVec.toNat (h 1 (by omega))
  have h2 := congrArg BitVec.toNat (h 2 (by omega))
  have h3 := congrArg BitVec.toNat (h 3 (by omega))
  simp [BitVec.extractLsb'_toNat, Nat.shiftRight_eq_div_pow] at h0 h1 h2 h3
  have := x.isLt; have := y.isLt
  omega

@[simp] theorem length_bytes16 (v : Half) : (bytes16 v).length = 2 := rfl
@[simp] theorem length_bytes32 (v : Word) : (bytes32 v).length = 4 := rfl
@[simp] theorem length_frameBody (op : Byte) (p : List Byte) : (frameBody op p).length = 4 + p.length := by
  simp [frameBody]; omega

theorem length_frame (c : Config.CrcSpec) (op : Byte) (p : List Byte) : (frame c op p).length = 8 + p.length := by
  simp [frame]; omega

/-- The wire fields of a selected command are the opcode and payload it was selected by. -/
theorem wireFields_selectCommand (op : Byte) (p : List Byte) : wireFields (selectCommand op p) = some (op, p) := by
  unfold selectCommand
  repeat' split
  all_goals simp_all [wireFields]

theorem wf_selectCommand {p : List Byte} (op : Byte) (h : p.length ≤ 4096) : (selectCommand op p).wf = true := by
  have := payloadFits_iff.2 h
  unfold selectCommand
  repeat' split
  all_goals simp_all [Instr.wf, opcodeUnassigned, assignedOpcodes]

/-- A well-formed command is the one its opcode selects, and its payload fits. -/
theorem eq_selectCommand {i : Instr} {op : Byte} {p : List Byte} (hw : i.wf = true)
    (h : wireFields i = some (op, p)) : i = selectCommand op p ∧ p.length ≤ 4096 := by
  cases i <;> simp [wireFields] at h <;> obtain ⟨rfl, rfl⟩ := h <;>
    simp [Instr.wf, payloadFits_iff, opcodeUnassigned, assignedOpcodes] at hw <;> simp [selectCommand, hw]

end Sys2Proof
end

