-- ==== Sys2Proof/Laws/State.lean ====
section
/-! SUPPORT. One lemma per field per named update of State, each true by rfl. -/

namespace Sys2Proof.Machine

@[simp] theorem ack_eq (op : Byte) (s : State) : ack op s = respond op [codeOk] s := rfl
@[simp] theorem err_eq (op code : Byte) (s : State) : err op code s = respond op [code] s := rfl

/-! ### putSlot -/

@[simp] theorem putSlot_params (b : Byte) (s : State) : (putSlot b s).params = s.params := rfl
@[simp] theorem putSlot_fifoMem (b : Byte) (s : State) :
    (putSlot b s).fifoMem = s.fifoMem.write Config.slotFill s.fifoWr b := rfl
@[simp] theorem putSlot_fifoWr (b : Byte) (s : State) :
    (putSlot b s).fifoWr = advance s.params.fifoSlots s.fifoWr := rfl
@[simp] theorem putSlot_fifoRd (b : Byte) (s : State) : (putSlot b s).fifoRd = s.fifoRd := rfl
@[simp] theorem putSlot_decState (b : Byte) (s : State) : (putSlot b s).decState = s.decState := rfl
@[simp] theorem putSlot_decOpcode (b : Byte) (s : State) : (putSlot b s).decOpcode = s.decOpcode := rfl
@[simp] theorem putSlot_decLength (b : Byte) (s : State) : (putSlot b s).decLength = s.decLength := rfl
@[simp] theorem putSlot_decIdx (b : Byte) (s : State) : (putSlot b s).decIdx = s.decIdx := rfl
@[simp] theorem putSlot_decPayload (b : Byte) (s : State) : (putSlot b s).decPayload = s.decPayload := rfl
@[simp] theorem putSlot_decCrcRx (b : Byte) (s : State) : (putSlot b s).decCrcRx = s.decCrcRx := rfl
@[simp] theorem putSlot_frameReady (b : Byte) (s : State) : (putSlot b s).frameReady = s.frameReady := rfl
@[simp] theorem putSlot_lastActivity (b : Byte) (s : State) : (putSlot b s).lastActivity = s.lastActivity := rfl
@[simp] theorem putSlot_engPhase (b : Byte) (s : State) : (putSlot b s).engPhase = s.engPhase := rfl
@[simp] theorem putSlot_txBuf (b : Byte) (s : State) : (putSlot b s).txBuf = s.txBuf := rfl
@[simp] theorem putSlot_txIdx (b : Byte) (s : State) : (putSlot b s).txIdx = s.txIdx := rfl
@[simp] theorem putSlot_engAfterTx (b : Byte) (s : State) : (putSlot b s).engAfterTx = s.engAfterTx := rfl
@[simp] theorem putSlot_flash (b : Byte) (s : State) : (putSlot b s).flash = s.flash := rfl
@[simp] theorem putSlot_flashLocked (b : Byte) (s : State) : (putSlot b s).flashLocked = s.flashLocked := rfl
@[simp] theorem putSlot_bootRequest (b : Byte) (s : State) : (putSlot b s).bootRequest = s.bootRequest := rfl
@[simp] theorem putSlot_resetRequest (b : Byte) (s : State) : (putSlot b s).resetRequest = s.resetRequest := rfl
@[simp] theorem putSlot_frameDispatched (b : Byte) (s : State) :
    (putSlot b s).frameDispatched = s.frameDispatched := rfl
@[simp] theorem putSlot_putResult (b : Byte) (s : State) : (putSlot b s).putResult = some true := rfl
@[simp] theorem putSlot_getResult (b : Byte) (s : State) : (putSlot b s).getResult = s.getResult := rfl
@[simp] theorem putSlot_isEmptyResult (b : Byte) (s : State) : (putSlot b s).isEmptyResult = s.isEmptyResult := rfl
@[simp] theorem putSlot_fullResult (b : Byte) (s : State) : (putSlot b s).fullResult = s.fullResult := rfl
@[simp] theorem putSlot_feedResult (b : Byte) (s : State) : (putSlot b s).feedResult = s.feedResult := rfl
@[simp] theorem putSlot_nowMs (b : Byte) (s : State) : (putSlot b s).nowMs = s.nowMs := rfl
@[simp] theorem putSlot_flashResults (b : Byte) (s : State) : (putSlot b s).flashResults = s.flashResults := rfl
@[simp] theorem putSlot_inputs (b : Byte) (s : State) : (putSlot b s).inputs = s.inputs := rfl
@[simp] theorem putSlot_txOut (b : Byte) (s : State) : (putSlot b s).txOut = s.txOut := rfl
@[simp] theorem putSlot_flashRequests (b : Byte) (s : State) : (putSlot b s).flashRequests = s.flashRequests := rfl
@[simp] theorem putSlot_draws (b : Byte) (s : State) : (putSlot b s).draws = s.draws := rfl

/-! ### takeSlot -/

@[simp] theorem takeSlot_params (s : State) : (takeSlot s).params = s.params := rfl
@[simp] theorem takeSlot_fifoMem (s : State) : (takeSlot s).fifoMem = s.fifoMem := rfl
@[simp] theorem takeSlot_fifoWr (s : State) : (takeSlot s).fifoWr = s.fifoWr := rfl
@[simp] theorem takeSlot_fifoRd (s : State) : (takeSlot s).fifoRd = advance s.params.fifoSlots s.fifoRd := rfl
@[simp] theorem takeSlot_decState (s : State) : (takeSlot s).decState = s.decState := rfl
@[simp] theorem takeSlot_decOpcode (s : State) : (takeSlot s).decOpcode = s.decOpcode := rfl
@[simp] theorem takeSlot_decLength (s : State) : (takeSlot s).decLength = s.decLength := rfl
@[simp] theorem takeSlot_decIdx (s : State) : (takeSlot s).decIdx = s.decIdx := rfl
@[simp] theorem takeSlot_decPayload (s : State) : (takeSlot s).decPayload = s.decPayload := rfl
@[simp] theorem takeSlot_decCrcRx (s : State) : (takeSlot s).decCrcRx = s.decCrcRx := rfl
@[simp] theorem takeSlot_frameReady (s : State) : (takeSlot s).frameReady = s.frameReady := rfl
@[simp] theorem takeSlot_lastActivity (s : State) : (takeSlot s).lastActivity = s.lastActivity := rfl
@[simp] theorem takeSlot_engPhase (s : State) : (takeSlot s).engPhase = s.engPhase := rfl
@[simp] theorem takeSlot_txBuf (s : State) : (takeSlot s).txBuf = s.txBuf := rfl
@[simp] theorem takeSlot_txIdx (s : State) : (takeSlot s).txIdx = s.txIdx := rfl
@[simp] theorem takeSlot_engAfterTx (s : State) : (takeSlot s).engAfterTx = s.engAfterTx := rfl
@[simp] theorem takeSlot_flash (s : State) : (takeSlot s).flash = s.flash := rfl
@[simp] theorem takeSlot_flashLocked (s : State) : (takeSlot s).flashLocked = s.flashLocked := rfl
@[simp] theorem takeSlot_bootRequest (s : State) : (takeSlot s).bootRequest = s.bootRequest := rfl
@[simp] theorem takeSlot_resetRequest (s : State) : (takeSlot s).resetRequest = s.resetRequest := rfl
@[simp] theorem takeSlot_frameDispatched (s : State) : (takeSlot s).frameDispatched = s.frameDispatched := rfl
@[simp] theorem takeSlot_putResult (s : State) : (takeSlot s).putResult = s.putResult := rfl
@[simp] theorem takeSlot_getResult (s : State) : (takeSlot s).getResult = some (some (fifoSlot s s.fifoRd)) := rfl
@[simp] theorem takeSlot_isEmptyResult (s : State) : (takeSlot s).isEmptyResult = s.isEmptyResult := rfl
@[simp] theorem takeSlot_fullResult (s : State) : (takeSlot s).fullResult = s.fullResult := rfl
@[simp] theorem takeSlot_feedResult (s : State) : (takeSlot s).feedResult = s.feedResult := rfl
@[simp] theorem takeSlot_nowMs (s : State) : (takeSlot s).nowMs = s.nowMs := rfl
@[simp] theorem takeSlot_flashResults (s : State) : (takeSlot s).flashResults = s.flashResults := rfl
@[simp] theorem takeSlot_inputs (s : State) : (takeSlot s).inputs = s.inputs := rfl
@[simp] theorem takeSlot_txOut (s : State) : (takeSlot s).txOut = s.txOut := rfl
@[simp] theorem takeSlot_flashRequests (s : State) : (takeSlot s).flashRequests = s.flashRequests := rfl
@[simp] theorem takeSlot_draws (s : State) : (takeSlot s).draws = s.draws := rfl

/-! ### takeByte -/

@[simp] theorem takeByte_params (s : State) : (takeByte s).params = s.params := rfl
@[simp] theorem takeByte_fifoMem (s : State) : (takeByte s).fifoMem = s.fifoMem := rfl
@[simp] theorem takeByte_fifoWr (s : State) : (takeByte s).fifoWr = s.fifoWr := rfl
@[simp] theorem takeByte_fifoRd (s : State) : (takeByte s).fifoRd = advance s.params.fifoSlots s.fifoRd := rfl
@[simp] theorem takeByte_decState (s : State) : (takeByte s).decState = s.decState := rfl
@[simp] theorem takeByte_decOpcode (s : State) : (takeByte s).decOpcode = s.decOpcode := rfl
@[simp] theorem takeByte_decLength (s : State) : (takeByte s).decLength = s.decLength := rfl
@[simp] theorem takeByte_decIdx (s : State) : (takeByte s).decIdx = s.decIdx := rfl
@[simp] theorem takeByte_decPayload (s : State) : (takeByte s).decPayload = s.decPayload := rfl
@[simp] theorem takeByte_decCrcRx (s : State) : (takeByte s).decCrcRx = s.decCrcRx := rfl
@[simp] theorem takeByte_frameReady (s : State) : (takeByte s).frameReady = s.frameReady := rfl
@[simp] theorem takeByte_lastActivity (s : State) : (takeByte s).lastActivity = s.nowMs := rfl
@[simp] theorem takeByte_engPhase (s : State) : (takeByte s).engPhase = s.engPhase := rfl
@[simp] theorem takeByte_txBuf (s : State) : (takeByte s).txBuf = s.txBuf := rfl
@[simp] theorem takeByte_txIdx (s : State) : (takeByte s).txIdx = s.txIdx := rfl
@[simp] theorem takeByte_engAfterTx (s : State) : (takeByte s).engAfterTx = s.engAfterTx := rfl
@[simp] theorem takeByte_flash (s : State) : (takeByte s).flash = s.flash := rfl
@[simp] theorem takeByte_flashLocked (s : State) : (takeByte s).flashLocked = s.flashLocked := rfl
@[simp] theorem takeByte_bootRequest (s : State) : (takeByte s).bootRequest = s.bootRequest := rfl
@[simp] theorem takeByte_resetRequest (s : State) : (takeByte s).resetRequest = s.resetRequest := rfl
@[simp] theorem takeByte_frameDispatched (s : State) : (takeByte s).frameDispatched = s.frameDispatched := rfl
@[simp] theorem takeByte_putResult (s : State) : (takeByte s).putResult = s.putResult := rfl
@[simp] theorem takeByte_getResult (s : State) : (takeByte s).getResult = some (some (fifoSlot s s.fifoRd)) := rfl
@[simp] theorem takeByte_isEmptyResult (s : State) : (takeByte s).isEmptyResult = s.isEmptyResult := rfl
@[simp] theorem takeByte_fullResult (s : State) : (takeByte s).fullResult = s.fullResult := rfl
@[simp] theorem takeByte_feedResult (s : State) : (takeByte s).feedResult = s.feedResult := rfl
@[simp] theorem takeByte_nowMs (s : State) : (takeByte s).nowMs = s.nowMs := rfl
@[simp] theorem takeByte_flashResults (s : State) : (takeByte s).flashResults = s.flashResults := rfl
@[simp] theorem takeByte_inputs (s : State) : (takeByte s).inputs = s.inputs := rfl
@[simp] theorem takeByte_txOut (s : State) : (takeByte s).txOut = s.txOut := rfl
@[simp] theorem takeByte_flashRequests (s : State) : (takeByte s).flashRequests = s.flashRequests := rfl
@[simp] theorem takeByte_draws (s : State) : (takeByte s).draws = s.draws := rfl

/-! ### answerFalse -/

@[simp] theorem answerFalse_params (s : State) : (answerFalse s).params = s.params := rfl
@[simp] theorem answerFalse_fifoMem (s : State) : (answerFalse s).fifoMem = s.fifoMem := rfl
@[simp] theorem answerFalse_fifoWr (s : State) : (answerFalse s).fifoWr = s.fifoWr := rfl
@[simp] theorem answerFalse_fifoRd (s : State) : (answerFalse s).fifoRd = s.fifoRd := rfl
@[simp] theorem answerFalse_decState (s : State) : (answerFalse s).decState = s.decState := rfl
@[simp] theorem answerFalse_decOpcode (s : State) : (answerFalse s).decOpcode = s.decOpcode := rfl
@[simp] theorem answerFalse_decLength (s : State) : (answerFalse s).decLength = s.decLength := rfl
@[simp] theorem answerFalse_decIdx (s : State) : (answerFalse s).decIdx = s.decIdx := rfl
@[simp] theorem answerFalse_decPayload (s : State) : (answerFalse s).decPayload = s.decPayload := rfl
@[simp] theorem answerFalse_decCrcRx (s : State) : (answerFalse s).decCrcRx = s.decCrcRx := rfl
@[simp] theorem answerFalse_frameReady (s : State) : (answerFalse s).frameReady = s.frameReady := rfl
@[simp] theorem answerFalse_lastActivity (s : State) : (answerFalse s).lastActivity = s.lastActivity := rfl
@[simp] theorem answerFalse_engPhase (s : State) : (answerFalse s).engPhase = s.engPhase := rfl
@[simp] theorem answerFalse_txBuf (s : State) : (answerFalse s).txBuf = s.txBuf := rfl
@[simp] theorem answerFalse_txIdx (s : State) : (answerFalse s).txIdx = s.txIdx := rfl
@[simp] theorem answerFalse_engAfterTx (s : State) : (answerFalse s).engAfterTx = s.engAfterTx := rfl
@[simp] theorem answerFalse_flash (s : State) : (answerFalse s).flash = s.flash := rfl
@[simp] theorem answerFalse_flashLocked (s : State) : (answerFalse s).flashLocked = s.flashLocked := rfl
@[simp] theorem answerFalse_bootRequest (s : State) : (answerFalse s).bootRequest = s.bootRequest := rfl
@[simp] theorem answerFalse_resetRequest (s : State) : (answerFalse s).resetRequest = s.resetRequest := rfl
@[simp] theorem answerFalse_frameDispatched (s : State) : (answerFalse s).frameDispatched = s.frameDispatched := rfl
@[simp] theorem answerFalse_putResult (s : State) : (answerFalse s).putResult = s.putResult := rfl
@[simp] theorem answerFalse_getResult (s : State) : (answerFalse s).getResult = s.getResult := rfl
@[simp] theorem answerFalse_isEmptyResult (s : State) : (answerFalse s).isEmptyResult = s.isEmptyResult := rfl
@[simp] theorem answerFalse_fullResult (s : State) : (answerFalse s).fullResult = s.fullResult := rfl
@[simp] theorem answerFalse_feedResult (s : State) : (answerFalse s).feedResult = some false := rfl
@[simp] theorem answerFalse_nowMs (s : State) : (answerFalse s).nowMs = s.nowMs := rfl
@[simp] theorem answerFalse_flashResults (s : State) : (answerFalse s).flashResults = s.flashResults := rfl
@[simp] theorem answerFalse_inputs (s : State) : (answerFalse s).inputs = s.inputs := rfl
@[simp] theorem answerFalse_txOut (s : State) : (answerFalse s).txOut = s.txOut := rfl
@[simp] theorem answerFalse_flashRequests (s : State) : (answerFalse s).flashRequests = s.flashRequests := rfl
@[simp] theorem answerFalse_draws (s : State) : (answerFalse s).draws = s.draws := rfl

/-! ### respond -/

@[simp] theorem respond_params (op : Byte) (p : List Byte) (s : State) : (respond op p s).params = s.params := rfl
@[simp] theorem respond_fifoMem (op : Byte) (p : List Byte) (s : State) : (respond op p s).fifoMem = s.fifoMem := rfl
@[simp] theorem respond_fifoWr (op : Byte) (p : List Byte) (s : State) : (respond op p s).fifoWr = s.fifoWr := rfl
@[simp] theorem respond_fifoRd (op : Byte) (p : List Byte) (s : State) : (respond op p s).fifoRd = s.fifoRd := rfl
@[simp] theorem respond_decState (op : Byte) (p : List Byte) (s : State) :
    (respond op p s).decState = s.decState := rfl
@[simp] theorem respond_decOpcode (op : Byte) (p : List Byte) (s : State) :
    (respond op p s).decOpcode = s.decOpcode := rfl
@[simp] theorem respond_decLength (op : Byte) (p : List Byte) (s : State) :
    (respond op p s).decLength = s.decLength := rfl
@[simp] theorem respond_decIdx (op : Byte) (p : List Byte) (s : State) : (respond op p s).decIdx = s.decIdx := rfl
@[simp] theorem respond_decPayload (op : Byte) (p : List Byte) (s : State) :
    (respond op p s).decPayload = s.decPayload := rfl
@[simp] theorem respond_decCrcRx (op : Byte) (p : List Byte) (s : State) :
    (respond op p s).decCrcRx = s.decCrcRx := rfl
@[simp] theorem respond_frameReady (op : Byte) (p : List Byte) (s : State) :
    (respond op p s).frameReady = s.frameReady := rfl
@[simp] theorem respond_lastActivity (op : Byte) (p : List Byte) (s : State) :
    (respond op p s).lastActivity = s.lastActivity := rfl
@[simp] theorem respond_engPhase (op : Byte) (p : List Byte) (s : State) : (respond op p s).engPhase = .tx := rfl
@[simp] theorem respond_txBuf (op : Byte) (p : List Byte) (s : State) :
    (respond op p s).txBuf = frame s.params.crc op p := rfl
@[simp] theorem respond_txIdx (op : Byte) (p : List Byte) (s : State) : (respond op p s).txIdx = 0 := rfl
@[simp] theorem respond_engAfterTx (op : Byte) (p : List Byte) (s : State) :
    (respond op p s).engAfterTx = s.engAfterTx := rfl
@[simp] theorem respond_flash (op : Byte) (p : List Byte) (s : State) : (respond op p s).flash = s.flash := rfl
@[simp] theorem respond_flashLocked (op : Byte) (p : List Byte) (s : State) :
    (respond op p s).flashLocked = s.flashLocked := rfl
@[simp] theorem respond_bootRequest (op : Byte) (p : List Byte) (s : State) :
    (respond op p s).bootRequest = s.bootRequest := rfl
@[simp] theorem respond_resetRequest (op : Byte) (p : List Byte) (s : State) :
    (respond op p s).resetRequest = s.resetRequest := rfl
@[simp] theorem respond_frameDispatched (op : Byte) (p : List Byte) (s : State) :
    (respond op p s).frameDispatched = s.frameDispatched := rfl
@[simp] theorem respond_putResult (op : Byte) (p : List Byte) (s : State) :
    (respond op p s).putResult = s.putResult := rfl
@[simp] theorem respond_getResult (op : Byte) (p : List Byte) (s : State) :
    (respond op p s).getResult = s.getResult := rfl
@[simp] theorem respond_isEmptyResult (op : Byte) (p : List Byte) (s : State) :
    (respond op p s).isEmptyResult = s.isEmptyResult := rfl
@[simp] theorem respond_fullResult (op : Byte) (p : List Byte) (s : State) :
    (respond op p s).fullResult = s.fullResult := rfl
@[simp] theorem respond_feedResult (op : Byte) (p : List Byte) (s : State) :
    (respond op p s).feedResult = s.feedResult := rfl
@[simp] theorem respond_nowMs (op : Byte) (p : List Byte) (s : State) : (respond op p s).nowMs = s.nowMs := rfl
@[simp] theorem respond_flashResults (op : Byte) (p : List Byte) (s : State) :
    (respond op p s).flashResults = s.flashResults := rfl
@[simp] theorem respond_inputs (op : Byte) (p : List Byte) (s : State) : (respond op p s).inputs = s.inputs := rfl
@[simp] theorem respond_txOut (op : Byte) (p : List Byte) (s : State) : (respond op p s).txOut = s.txOut := rfl
@[simp] theorem respond_flashRequests (op : Byte) (p : List Byte) (s : State) :
    (respond op p s).flashRequests = s.flashRequests := rfl
@[simp] theorem respond_draws (op : Byte) (p : List Byte) (s : State) : (respond op p s).draws = s.draws := rfl

/-! ### decoderReset -/

@[simp] theorem decoderReset_params (s : State) : (decoderReset s).params = s.params := rfl
@[simp] theorem decoderReset_fifoMem (s : State) : (decoderReset s).fifoMem = s.fifoMem := rfl
@[simp] theorem decoderReset_fifoWr (s : State) : (decoderReset s).fifoWr = s.fifoWr := rfl
@[simp] theorem decoderReset_fifoRd (s : State) : (decoderReset s).fifoRd = s.fifoRd := rfl
@[simp] theorem decoderReset_decState (s : State) : (decoderReset s).decState = .awaitingStart := rfl
@[simp] theorem decoderReset_decOpcode (s : State) : (decoderReset s).decOpcode = s.decOpcode := rfl
@[simp] theorem decoderReset_decLength (s : State) : (decoderReset s).decLength = s.decLength := rfl
@[simp] theorem decoderReset_decIdx (s : State) : (decoderReset s).decIdx = 0 := rfl
@[simp] theorem decoderReset_decPayload (s : State) : (decoderReset s).decPayload = s.decPayload := rfl
@[simp] theorem decoderReset_decCrcRx (s : State) : (decoderReset s).decCrcRx = 0 := rfl
@[simp] theorem decoderReset_frameReady (s : State) : (decoderReset s).frameReady = false := rfl
@[simp] theorem decoderReset_lastActivity (s : State) : (decoderReset s).lastActivity = s.lastActivity := rfl
@[simp] theorem decoderReset_engPhase (s : State) : (decoderReset s).engPhase = s.engPhase := rfl
@[simp] theorem decoderReset_txBuf (s : State) : (decoderReset s).txBuf = s.txBuf := rfl
@[simp] theorem decoderReset_txIdx (s : State) : (decoderReset s).txIdx = s.txIdx := rfl
@[simp] theorem decoderReset_engAfterTx (s : State) : (decoderReset s).engAfterTx = s.engAfterTx := rfl
@[simp] theorem decoderReset_flash (s : State) : (decoderReset s).flash = s.flash := rfl
@[simp] theorem decoderReset_flashLocked (s : State) : (decoderReset s).flashLocked = s.flashLocked := rfl
@[simp] theorem decoderReset_bootRequest (s : State) : (decoderReset s).bootRequest = s.bootRequest := rfl
@[simp] theorem decoderReset_resetRequest (s : State) : (decoderReset s).resetRequest = s.resetRequest := rfl
@[simp] theorem decoderReset_frameDispatched (s : State) : (decoderReset s).frameDispatched = s.frameDispatched := rfl
@[simp] theorem decoderReset_putResult (s : State) : (decoderReset s).putResult = s.putResult := rfl
@[simp] theorem decoderReset_getResult (s : State) : (decoderReset s).getResult = s.getResult := rfl
@[simp] theorem decoderReset_isEmptyResult (s : State) : (decoderReset s).isEmptyResult = s.isEmptyResult := rfl
@[simp] theorem decoderReset_fullResult (s : State) : (decoderReset s).fullResult = s.fullResult := rfl
@[simp] theorem decoderReset_feedResult (s : State) : (decoderReset s).feedResult = s.feedResult := rfl
@[simp] theorem decoderReset_nowMs (s : State) : (decoderReset s).nowMs = s.nowMs := rfl
@[simp] theorem decoderReset_flashResults (s : State) : (decoderReset s).flashResults = s.flashResults := rfl
@[simp] theorem decoderReset_inputs (s : State) : (decoderReset s).inputs = s.inputs := rfl
@[simp] theorem decoderReset_txOut (s : State) : (decoderReset s).txOut = s.txOut := rfl
@[simp] theorem decoderReset_flashRequests (s : State) : (decoderReset s).flashRequests = s.flashRequests := rfl
@[simp] theorem decoderReset_draws (s : State) : (decoderReset s).draws = s.draws := rfl

/-! ### decoderError -/

@[simp] theorem decoderError_params (code : Byte) (s : State) : (decoderError code s).params = s.params := rfl
@[simp] theorem decoderError_fifoMem (code : Byte) (s : State) : (decoderError code s).fifoMem = s.fifoMem := rfl
@[simp] theorem decoderError_fifoWr (code : Byte) (s : State) : (decoderError code s).fifoWr = s.fifoWr := rfl
@[simp] theorem decoderError_fifoRd (code : Byte) (s : State) : (decoderError code s).fifoRd = s.fifoRd := rfl
@[simp] theorem decoderError_decState (code : Byte) (s : State) :
    (decoderError code s).decState = .awaitingStart := rfl
@[simp] theorem decoderError_decOpcode (code : Byte) (s : State) :
    (decoderError code s).decOpcode = s.decOpcode := rfl
@[simp] theorem decoderError_decLength (code : Byte) (s : State) :
    (decoderError code s).decLength = s.decLength := rfl
@[simp] theorem decoderError_decIdx (code : Byte) (s : State) : (decoderError code s).decIdx = 0 := rfl
@[simp] theorem decoderError_decPayload (code : Byte) (s : State) :
    (decoderError code s).decPayload = s.decPayload := rfl
@[simp] theorem decoderError_decCrcRx (code : Byte) (s : State) : (decoderError code s).decCrcRx = 0 := rfl
@[simp] theorem decoderError_frameReady (code : Byte) (s : State) : (decoderError code s).frameReady = false := rfl
@[simp] theorem decoderError_lastActivity (code : Byte) (s : State) :
    (decoderError code s).lastActivity = s.lastActivity := rfl
@[simp] theorem decoderError_engPhase (code : Byte) (s : State) : (decoderError code s).engPhase = .tx := rfl
@[simp] theorem decoderError_txBuf (code : Byte) (s : State) :
    (decoderError code s).txBuf = frame s.params.crc s.decOpcode [code] := rfl
@[simp] theorem decoderError_txIdx (code : Byte) (s : State) : (decoderError code s).txIdx = 0 := rfl
@[simp] theorem decoderError_engAfterTx (code : Byte) (s : State) : (decoderError code s).engAfterTx = .none := rfl
@[simp] theorem decoderError_flash (code : Byte) (s : State) : (decoderError code s).flash = s.flash := rfl
@[simp] theorem decoderError_flashLocked (code : Byte) (s : State) :
    (decoderError code s).flashLocked = s.flashLocked := rfl
@[simp] theorem decoderError_bootRequest (code : Byte) (s : State) :
    (decoderError code s).bootRequest = s.bootRequest := rfl
@[simp] theorem decoderError_resetRequest (code : Byte) (s : State) :
    (decoderError code s).resetRequest = s.resetRequest := rfl
@[simp] theorem decoderError_frameDispatched (code : Byte) (s : State) :
    (decoderError code s).frameDispatched = s.frameDispatched := rfl
@[simp] theorem decoderError_putResult (code : Byte) (s : State) :
    (decoderError code s).putResult = s.putResult := rfl
@[simp] theorem decoderError_getResult (code : Byte) (s : State) :
    (decoderError code s).getResult = s.getResult := rfl
@[simp] theorem decoderError_isEmptyResult (code : Byte) (s : State) :
    (decoderError code s).isEmptyResult = s.isEmptyResult := rfl
@[simp] theorem decoderError_fullResult (code : Byte) (s : State) :
    (decoderError code s).fullResult = s.fullResult := rfl
@[simp] theorem decoderError_feedResult (code : Byte) (s : State) :
    (decoderError code s).feedResult = s.feedResult := rfl
@[simp] theorem decoderError_nowMs (code : Byte) (s : State) : (decoderError code s).nowMs = s.nowMs := rfl
@[simp] theorem decoderError_flashResults (code : Byte) (s : State) :
    (decoderError code s).flashResults = s.flashResults := rfl
@[simp] theorem decoderError_inputs (code : Byte) (s : State) : (decoderError code s).inputs = s.inputs := rfl
@[simp] theorem decoderError_txOut (code : Byte) (s : State) : (decoderError code s).txOut = s.txOut := rfl
@[simp] theorem decoderError_flashRequests (code : Byte) (s : State) :
    (decoderError code s).flashRequests = s.flashRequests := rfl
@[simp] theorem decoderError_draws (code : Byte) (s : State) : (decoderError code s).draws = s.draws := rfl

/-! ### beginDispatch -/

@[simp] theorem beginDispatch_params (after : AfterTx) (s : State) : (beginDispatch after s).params = s.params := rfl
@[simp] theorem beginDispatch_fifoMem (after : AfterTx) (s : State) :
    (beginDispatch after s).fifoMem = s.fifoMem := rfl
@[simp] theorem beginDispatch_fifoWr (after : AfterTx) (s : State) : (beginDispatch after s).fifoWr = s.fifoWr := rfl
@[simp] theorem beginDispatch_fifoRd (after : AfterTx) (s : State) : (beginDispatch after s).fifoRd = s.fifoRd := rfl
@[simp] theorem beginDispatch_decState (after : AfterTx) (s : State) :
    (beginDispatch after s).decState = s.decState := rfl
@[simp] theorem beginDispatch_decOpcode (after : AfterTx) (s : State) :
    (beginDispatch after s).decOpcode = s.decOpcode := rfl
@[simp] theorem beginDispatch_decLength (after : AfterTx) (s : State) :
    (beginDispatch after s).decLength = s.decLength := rfl
@[simp] theorem beginDispatch_decIdx (after : AfterTx) (s : State) : (beginDispatch after s).decIdx = s.decIdx := rfl
@[simp] theorem beginDispatch_decPayload (after : AfterTx) (s : State) :
    (beginDispatch after s).decPayload = s.decPayload := rfl
@[simp] theorem beginDispatch_decCrcRx (after : AfterTx) (s : State) :
    (beginDispatch after s).decCrcRx = s.decCrcRx := rfl
@[simp] theorem beginDispatch_frameReady (after : AfterTx) (s : State) :
    (beginDispatch after s).frameReady = s.frameReady := rfl
@[simp] theorem beginDispatch_lastActivity (after : AfterTx) (s : State) :
    (beginDispatch after s).lastActivity = s.lastActivity := rfl
@[simp] theorem beginDispatch_engPhase (after : AfterTx) (s : State) :
    (beginDispatch after s).engPhase = s.engPhase := rfl
@[simp] theorem beginDispatch_txBuf (after : AfterTx) (s : State) : (beginDispatch after s).txBuf = s.txBuf := rfl
@[simp] theorem beginDispatch_txIdx (after : AfterTx) (s : State) : (beginDispatch after s).txIdx = s.txIdx := rfl
@[simp] theorem beginDispatch_engAfterTx (after : AfterTx) (s : State) :
    (beginDispatch after s).engAfterTx = after := rfl
@[simp] theorem beginDispatch_flash (after : AfterTx) (s : State) : (beginDispatch after s).flash = s.flash := rfl
@[simp] theorem beginDispatch_flashLocked (after : AfterTx) (s : State) :
    (beginDispatch after s).flashLocked = s.flashLocked := rfl
@[simp] theorem beginDispatch_bootRequest (after : AfterTx) (s : State) :
    (beginDispatch after s).bootRequest = s.bootRequest := rfl
@[simp] theorem beginDispatch_resetRequest (after : AfterTx) (s : State) :
    (beginDispatch after s).resetRequest = s.resetRequest := rfl
@[simp] theorem beginDispatch_frameDispatched (after : AfterTx) (s : State) :
    (beginDispatch after s).frameDispatched = true := rfl
@[simp] theorem beginDispatch_putResult (after : AfterTx) (s : State) :
    (beginDispatch after s).putResult = s.putResult := rfl
@[simp] theorem beginDispatch_getResult (after : AfterTx) (s : State) :
    (beginDispatch after s).getResult = s.getResult := rfl
@[simp] theorem beginDispatch_isEmptyResult (after : AfterTx) (s : State) :
    (beginDispatch after s).isEmptyResult = s.isEmptyResult := rfl
@[simp] theorem beginDispatch_fullResult (after : AfterTx) (s : State) :
    (beginDispatch after s).fullResult = s.fullResult := rfl
@[simp] theorem beginDispatch_feedResult (after : AfterTx) (s : State) :
    (beginDispatch after s).feedResult = s.feedResult := rfl
@[simp] theorem beginDispatch_nowMs (after : AfterTx) (s : State) : (beginDispatch after s).nowMs = s.nowMs := rfl
@[simp] theorem beginDispatch_flashResults (after : AfterTx) (s : State) :
    (beginDispatch after s).flashResults = s.flashResults := rfl
@[simp] theorem beginDispatch_inputs (after : AfterTx) (s : State) : (beginDispatch after s).inputs = s.inputs := rfl
@[simp] theorem beginDispatch_txOut (after : AfterTx) (s : State) : (beginDispatch after s).txOut = s.txOut := rfl
@[simp] theorem beginDispatch_flashRequests (after : AfterTx) (s : State) :
    (beginDispatch after s).flashRequests = s.flashRequests := rfl
@[simp] theorem beginDispatch_draws (after : AfterTx) (s : State) : (beginDispatch after s).draws = s.draws := rfl

/-! ### request -/

@[simp] theorem request_params (r : FlashRequest) (s : State) : (request r s).params = s.params := rfl
@[simp] theorem request_fifoMem (r : FlashRequest) (s : State) : (request r s).fifoMem = s.fifoMem := rfl
@[simp] theorem request_fifoWr (r : FlashRequest) (s : State) : (request r s).fifoWr = s.fifoWr := rfl
@[simp] theorem request_fifoRd (r : FlashRequest) (s : State) : (request r s).fifoRd = s.fifoRd := rfl
@[simp] theorem request_decState (r : FlashRequest) (s : State) : (request r s).decState = s.decState := rfl
@[simp] theorem request_decOpcode (r : FlashRequest) (s : State) : (request r s).decOpcode = s.decOpcode := rfl
@[simp] theorem request_decLength (r : FlashRequest) (s : State) : (request r s).decLength = s.decLength := rfl
@[simp] theorem request_decIdx (r : FlashRequest) (s : State) : (request r s).decIdx = s.decIdx := rfl
@[simp] theorem request_decPayload (r : FlashRequest) (s : State) : (request r s).decPayload = s.decPayload := rfl
@[simp] theorem request_decCrcRx (r : FlashRequest) (s : State) : (request r s).decCrcRx = s.decCrcRx := rfl
@[simp] theorem request_frameReady (r : FlashRequest) (s : State) : (request r s).frameReady = s.frameReady := rfl
@[simp] theorem request_lastActivity (r : FlashRequest) (s : State) :
    (request r s).lastActivity = s.lastActivity := rfl
@[simp] theorem request_engPhase (r : FlashRequest) (s : State) : (request r s).engPhase = s.engPhase := rfl
@[simp] theorem request_txBuf (r : FlashRequest) (s : State) : (request r s).txBuf = s.txBuf := rfl
@[simp] theorem request_txIdx (r : FlashRequest) (s : State) : (request r s).txIdx = s.txIdx := rfl
@[simp] theorem request_engAfterTx (r : FlashRequest) (s : State) : (request r s).engAfterTx = s.engAfterTx := rfl
@[simp] theorem request_flash (r : FlashRequest) (s : State) : (request r s).flash = s.flash := rfl
@[simp] theorem request_flashLocked (r : FlashRequest) (s : State) : (request r s).flashLocked = s.flashLocked := rfl
@[simp] theorem request_bootRequest (r : FlashRequest) (s : State) : (request r s).bootRequest = s.bootRequest := rfl
@[simp] theorem request_resetRequest (r : FlashRequest) (s : State) :
    (request r s).resetRequest = s.resetRequest := rfl
@[simp] theorem request_frameDispatched (r : FlashRequest) (s : State) :
    (request r s).frameDispatched = s.frameDispatched := rfl
@[simp] theorem request_putResult (r : FlashRequest) (s : State) : (request r s).putResult = s.putResult := rfl
@[simp] theorem request_getResult (r : FlashRequest) (s : State) : (request r s).getResult = s.getResult := rfl
@[simp] theorem request_isEmptyResult (r : FlashRequest) (s : State) :
    (request r s).isEmptyResult = s.isEmptyResult := rfl
@[simp] theorem request_fullResult (r : FlashRequest) (s : State) : (request r s).fullResult = s.fullResult := rfl
@[simp] theorem request_feedResult (r : FlashRequest) (s : State) : (request r s).feedResult = s.feedResult := rfl
@[simp] theorem request_nowMs (r : FlashRequest) (s : State) : (request r s).nowMs = s.nowMs := rfl
@[simp] theorem request_flashResults (r : FlashRequest) (s : State) :
    (request r s).flashResults = s.flashResults := rfl
@[simp] theorem request_inputs (r : FlashRequest) (s : State) : (request r s).inputs = s.inputs := rfl
@[simp] theorem request_txOut (r : FlashRequest) (s : State) : (request r s).txOut = s.txOut := rfl
@[simp] theorem request_flashRequests (r : FlashRequest) (s : State) :
    (request r s).flashRequests = s.flashRequests ++ [r] := rfl
@[simp] theorem request_draws (r : FlashRequest) (s : State) : (request r s).draws = s.draws := rfl

/-! ### flashUnlock -/

@[simp] theorem flashUnlock_params (s : State) : (flashUnlock s).params = s.params := rfl
@[simp] theorem flashUnlock_fifoMem (s : State) : (flashUnlock s).fifoMem = s.fifoMem := rfl
@[simp] theorem flashUnlock_fifoWr (s : State) : (flashUnlock s).fifoWr = s.fifoWr := rfl
@[simp] theorem flashUnlock_fifoRd (s : State) : (flashUnlock s).fifoRd = s.fifoRd := rfl
@[simp] theorem flashUnlock_decState (s : State) : (flashUnlock s).decState = s.decState := rfl
@[simp] theorem flashUnlock_decOpcode (s : State) : (flashUnlock s).decOpcode = s.decOpcode := rfl
@[simp] theorem flashUnlock_decLength (s : State) : (flashUnlock s).decLength = s.decLength := rfl
@[simp] theorem flashUnlock_decIdx (s : State) : (flashUnlock s).decIdx = s.decIdx := rfl
@[simp] theorem flashUnlock_decPayload (s : State) : (flashUnlock s).decPayload = s.decPayload := rfl
@[simp] theorem flashUnlock_decCrcRx (s : State) : (flashUnlock s).decCrcRx = s.decCrcRx := rfl
@[simp] theorem flashUnlock_frameReady (s : State) : (flashUnlock s).frameReady = s.frameReady := rfl
@[simp] theorem flashUnlock_lastActivity (s : State) : (flashUnlock s).lastActivity = s.lastActivity := rfl
@[simp] theorem flashUnlock_engPhase (s : State) : (flashUnlock s).engPhase = s.engPhase := rfl
@[simp] theorem flashUnlock_txBuf (s : State) : (flashUnlock s).txBuf = s.txBuf := rfl
@[simp] theorem flashUnlock_txIdx (s : State) : (flashUnlock s).txIdx = s.txIdx := rfl
@[simp] theorem flashUnlock_engAfterTx (s : State) : (flashUnlock s).engAfterTx = s.engAfterTx := rfl
@[simp] theorem flashUnlock_flash (s : State) : (flashUnlock s).flash = s.flash := rfl
@[simp] theorem flashUnlock_flashLocked (s : State) : (flashUnlock s).flashLocked = false := rfl
@[simp] theorem flashUnlock_bootRequest (s : State) : (flashUnlock s).bootRequest = s.bootRequest := rfl
@[simp] theorem flashUnlock_resetRequest (s : State) : (flashUnlock s).resetRequest = s.resetRequest := rfl
@[simp] theorem flashUnlock_frameDispatched (s : State) : (flashUnlock s).frameDispatched = s.frameDispatched := rfl
@[simp] theorem flashUnlock_putResult (s : State) : (flashUnlock s).putResult = s.putResult := rfl
@[simp] theorem flashUnlock_getResult (s : State) : (flashUnlock s).getResult = s.getResult := rfl
@[simp] theorem flashUnlock_isEmptyResult (s : State) : (flashUnlock s).isEmptyResult = s.isEmptyResult := rfl
@[simp] theorem flashUnlock_fullResult (s : State) : (flashUnlock s).fullResult = s.fullResult := rfl
@[simp] theorem flashUnlock_feedResult (s : State) : (flashUnlock s).feedResult = s.feedResult := rfl
@[simp] theorem flashUnlock_nowMs (s : State) : (flashUnlock s).nowMs = s.nowMs := rfl
@[simp] theorem flashUnlock_flashResults (s : State) : (flashUnlock s).flashResults = s.flashResults := rfl
@[simp] theorem flashUnlock_inputs (s : State) : (flashUnlock s).inputs = s.inputs := rfl
@[simp] theorem flashUnlock_txOut (s : State) : (flashUnlock s).txOut = s.txOut := rfl
@[simp] theorem flashUnlock_flashRequests (s : State) :
    (flashUnlock s).flashRequests = s.flashRequests ++ [.unlock] := rfl
@[simp] theorem flashUnlock_draws (s : State) : (flashUnlock s).draws = s.draws := rfl

/-! ### flashLock -/

@[simp] theorem flashLock_params (s : State) : (flashLock s).params = s.params := rfl
@[simp] theorem flashLock_fifoMem (s : State) : (flashLock s).fifoMem = s.fifoMem := rfl
@[simp] theorem flashLock_fifoWr (s : State) : (flashLock s).fifoWr = s.fifoWr := rfl
@[simp] theorem flashLock_fifoRd (s : State) : (flashLock s).fifoRd = s.fifoRd := rfl
@[simp] theorem flashLock_decState (s : State) : (flashLock s).decState = s.decState := rfl
@[simp] theorem flashLock_decOpcode (s : State) : (flashLock s).decOpcode = s.decOpcode := rfl
@[simp] theorem flashLock_decLength (s : State) : (flashLock s).decLength = s.decLength := rfl
@[simp] theorem flashLock_decIdx (s : State) : (flashLock s).decIdx = s.decIdx := rfl
@[simp] theorem flashLock_decPayload (s : State) : (flashLock s).decPayload = s.decPayload := rfl
@[simp] theorem flashLock_decCrcRx (s : State) : (flashLock s).decCrcRx = s.decCrcRx := rfl
@[simp] theorem flashLock_frameReady (s : State) : (flashLock s).frameReady = s.frameReady := rfl
@[simp] theorem flashLock_lastActivity (s : State) : (flashLock s).lastActivity = s.lastActivity := rfl
@[simp] theorem flashLock_engPhase (s : State) : (flashLock s).engPhase = s.engPhase := rfl
@[simp] theorem flashLock_txBuf (s : State) : (flashLock s).txBuf = s.txBuf := rfl
@[simp] theorem flashLock_txIdx (s : State) : (flashLock s).txIdx = s.txIdx := rfl
@[simp] theorem flashLock_engAfterTx (s : State) : (flashLock s).engAfterTx = s.engAfterTx := rfl
@[simp] theorem flashLock_flash (s : State) : (flashLock s).flash = s.flash := rfl
@[simp] theorem flashLock_flashLocked (s : State) : (flashLock s).flashLocked = true := rfl
@[simp] theorem flashLock_bootRequest (s : State) : (flashLock s).bootRequest = s.bootRequest := rfl
@[simp] theorem flashLock_resetRequest (s : State) : (flashLock s).resetRequest = s.resetRequest := rfl
@[simp] theorem flashLock_frameDispatched (s : State) : (flashLock s).frameDispatched = s.frameDispatched := rfl
@[simp] theorem flashLock_putResult (s : State) : (flashLock s).putResult = s.putResult := rfl
@[simp] theorem flashLock_getResult (s : State) : (flashLock s).getResult = s.getResult := rfl
@[simp] theorem flashLock_isEmptyResult (s : State) : (flashLock s).isEmptyResult = s.isEmptyResult := rfl
@[simp] theorem flashLock_fullResult (s : State) : (flashLock s).fullResult = s.fullResult := rfl
@[simp] theorem flashLock_feedResult (s : State) : (flashLock s).feedResult = s.feedResult := rfl
@[simp] theorem flashLock_nowMs (s : State) : (flashLock s).nowMs = s.nowMs := rfl
@[simp] theorem flashLock_flashResults (s : State) : (flashLock s).flashResults = s.flashResults := rfl
@[simp] theorem flashLock_inputs (s : State) : (flashLock s).inputs = s.inputs := rfl
@[simp] theorem flashLock_txOut (s : State) : (flashLock s).txOut = s.txOut := rfl
@[simp] theorem flashLock_flashRequests (s : State) : (flashLock s).flashRequests = s.flashRequests ++ [.lock] := rfl
@[simp] theorem flashLock_draws (s : State) : (flashLock s).draws = s.draws := rfl

/-! ### drawFlash -/

@[simp] theorem drawFlash_params (a n : Nat) (s : State) : (drawFlash a n s).params = s.params := rfl
@[simp] theorem drawFlash_fifoMem (a n : Nat) (s : State) : (drawFlash a n s).fifoMem = s.fifoMem := rfl
@[simp] theorem drawFlash_fifoWr (a n : Nat) (s : State) : (drawFlash a n s).fifoWr = s.fifoWr := rfl
@[simp] theorem drawFlash_fifoRd (a n : Nat) (s : State) : (drawFlash a n s).fifoRd = s.fifoRd := rfl
@[simp] theorem drawFlash_decState (a n : Nat) (s : State) : (drawFlash a n s).decState = s.decState := rfl
@[simp] theorem drawFlash_decOpcode (a n : Nat) (s : State) : (drawFlash a n s).decOpcode = s.decOpcode := rfl
@[simp] theorem drawFlash_decLength (a n : Nat) (s : State) : (drawFlash a n s).decLength = s.decLength := rfl
@[simp] theorem drawFlash_decIdx (a n : Nat) (s : State) : (drawFlash a n s).decIdx = s.decIdx := rfl
@[simp] theorem drawFlash_decPayload (a n : Nat) (s : State) : (drawFlash a n s).decPayload = s.decPayload := rfl
@[simp] theorem drawFlash_decCrcRx (a n : Nat) (s : State) : (drawFlash a n s).decCrcRx = s.decCrcRx := rfl
@[simp] theorem drawFlash_frameReady (a n : Nat) (s : State) : (drawFlash a n s).frameReady = s.frameReady := rfl
@[simp] theorem drawFlash_lastActivity (a n : Nat) (s : State) :
    (drawFlash a n s).lastActivity = s.lastActivity := rfl
@[simp] theorem drawFlash_engPhase (a n : Nat) (s : State) : (drawFlash a n s).engPhase = s.engPhase := rfl
@[simp] theorem drawFlash_txBuf (a n : Nat) (s : State) : (drawFlash a n s).txBuf = s.txBuf := rfl
@[simp] theorem drawFlash_txIdx (a n : Nat) (s : State) : (drawFlash a n s).txIdx = s.txIdx := rfl
@[simp] theorem drawFlash_engAfterTx (a n : Nat) (s : State) : (drawFlash a n s).engAfterTx = s.engAfterTx := rfl
@[simp] theorem drawFlash_flash (a n : Nat) (s : State) :
    (drawFlash a n s).flash = s.flash.writeBytes Config.erasedByte a (freeBytes s.draws n) := rfl
@[simp] theorem drawFlash_flashLocked (a n : Nat) (s : State) : (drawFlash a n s).flashLocked = s.flashLocked := rfl
@[simp] theorem drawFlash_bootRequest (a n : Nat) (s : State) : (drawFlash a n s).bootRequest = s.bootRequest := rfl
@[simp] theorem drawFlash_resetRequest (a n : Nat) (s : State) :
    (drawFlash a n s).resetRequest = s.resetRequest := rfl
@[simp] theorem drawFlash_frameDispatched (a n : Nat) (s : State) :
    (drawFlash a n s).frameDispatched = s.frameDispatched := rfl
@[simp] theorem drawFlash_putResult (a n : Nat) (s : State) : (drawFlash a n s).putResult = s.putResult := rfl
@[simp] theorem drawFlash_getResult (a n : Nat) (s : State) : (drawFlash a n s).getResult = s.getResult := rfl
@[simp] theorem drawFlash_isEmptyResult (a n : Nat) (s : State) :
    (drawFlash a n s).isEmptyResult = s.isEmptyResult := rfl
@[simp] theorem drawFlash_fullResult (a n : Nat) (s : State) : (drawFlash a n s).fullResult = s.fullResult := rfl
@[simp] theorem drawFlash_feedResult (a n : Nat) (s : State) : (drawFlash a n s).feedResult = s.feedResult := rfl
@[simp] theorem drawFlash_nowMs (a n : Nat) (s : State) : (drawFlash a n s).nowMs = s.nowMs := rfl
@[simp] theorem drawFlash_flashResults (a n : Nat) (s : State) :
    (drawFlash a n s).flashResults = s.flashResults := rfl
@[simp] theorem drawFlash_inputs (a n : Nat) (s : State) : (drawFlash a n s).inputs = s.inputs := rfl
@[simp] theorem drawFlash_txOut (a n : Nat) (s : State) : (drawFlash a n s).txOut = s.txOut := rfl
@[simp] theorem drawFlash_flashRequests (a n : Nat) (s : State) :
    (drawFlash a n s).flashRequests = s.flashRequests := rfl
@[simp] theorem drawFlash_draws (a n : Nat) (s : State) : (drawFlash a n s).draws = s.draws + n := rfl

/-! ### countByte -/

@[simp] theorem countByte_params (s : State) : (countByte s).params = s.params := rfl
@[simp] theorem countByte_fifoMem (s : State) : (countByte s).fifoMem = s.fifoMem := rfl
@[simp] theorem countByte_fifoWr (s : State) : (countByte s).fifoWr = s.fifoWr := rfl
@[simp] theorem countByte_fifoRd (s : State) : (countByte s).fifoRd = s.fifoRd := rfl
@[simp] theorem countByte_decState (s : State) : (countByte s).decState = s.decState := rfl
@[simp] theorem countByte_decOpcode (s : State) : (countByte s).decOpcode = s.decOpcode := rfl
@[simp] theorem countByte_decLength (s : State) : (countByte s).decLength = s.decLength := rfl
@[simp] theorem countByte_decIdx (s : State) : (countByte s).decIdx = s.decIdx + 1 := rfl
@[simp] theorem countByte_decPayload (s : State) : (countByte s).decPayload = s.decPayload := rfl
@[simp] theorem countByte_decCrcRx (s : State) : (countByte s).decCrcRx = s.decCrcRx := rfl
@[simp] theorem countByte_frameReady (s : State) : (countByte s).frameReady = s.frameReady := rfl
@[simp] theorem countByte_lastActivity (s : State) : (countByte s).lastActivity = s.lastActivity := rfl
@[simp] theorem countByte_engPhase (s : State) : (countByte s).engPhase = s.engPhase := rfl
@[simp] theorem countByte_txBuf (s : State) : (countByte s).txBuf = s.txBuf := rfl
@[simp] theorem countByte_txIdx (s : State) : (countByte s).txIdx = s.txIdx := rfl
@[simp] theorem countByte_engAfterTx (s : State) : (countByte s).engAfterTx = s.engAfterTx := rfl
@[simp] theorem countByte_flash (s : State) : (countByte s).flash = s.flash := rfl
@[simp] theorem countByte_flashLocked (s : State) : (countByte s).flashLocked = s.flashLocked := rfl
@[simp] theorem countByte_bootRequest (s : State) : (countByte s).bootRequest = s.bootRequest := rfl
@[simp] theorem countByte_resetRequest (s : State) : (countByte s).resetRequest = s.resetRequest := rfl
@[simp] theorem countByte_frameDispatched (s : State) : (countByte s).frameDispatched = s.frameDispatched := rfl
@[simp] theorem countByte_putResult (s : State) : (countByte s).putResult = s.putResult := rfl
@[simp] theorem countByte_getResult (s : State) : (countByte s).getResult = s.getResult := rfl
@[simp] theorem countByte_isEmptyResult (s : State) : (countByte s).isEmptyResult = s.isEmptyResult := rfl
@[simp] theorem countByte_fullResult (s : State) : (countByte s).fullResult = s.fullResult := rfl
@[simp] theorem countByte_feedResult (s : State) : (countByte s).feedResult = s.feedResult := rfl
@[simp] theorem countByte_nowMs (s : State) : (countByte s).nowMs = s.nowMs := rfl
@[simp] theorem countByte_flashResults (s : State) : (countByte s).flashResults = s.flashResults := rfl
@[simp] theorem countByte_inputs (s : State) : (countByte s).inputs = s.inputs := rfl
@[simp] theorem countByte_txOut (s : State) : (countByte s).txOut = s.txOut := rfl
@[simp] theorem countByte_flashRequests (s : State) : (countByte s).flashRequests = s.flashRequests := rfl
@[simp] theorem countByte_draws (s : State) : (countByte s).draws = s.draws := rfl

/-! ### enterField -/

@[simp] theorem enterField_params (d : DecState) (s : State) : (enterField d s).params = s.params := rfl
@[simp] theorem enterField_fifoMem (d : DecState) (s : State) : (enterField d s).fifoMem = s.fifoMem := rfl
@[simp] theorem enterField_fifoWr (d : DecState) (s : State) : (enterField d s).fifoWr = s.fifoWr := rfl
@[simp] theorem enterField_fifoRd (d : DecState) (s : State) : (enterField d s).fifoRd = s.fifoRd := rfl
@[simp] theorem enterField_decState (d : DecState) (s : State) : (enterField d s).decState = d := rfl
@[simp] theorem enterField_decOpcode (d : DecState) (s : State) : (enterField d s).decOpcode = s.decOpcode := rfl
@[simp] theorem enterField_decLength (d : DecState) (s : State) : (enterField d s).decLength = s.decLength := rfl
@[simp] theorem enterField_decIdx (d : DecState) (s : State) : (enterField d s).decIdx = 0 := rfl
@[simp] theorem enterField_decPayload (d : DecState) (s : State) : (enterField d s).decPayload = s.decPayload := rfl
@[simp] theorem enterField_decCrcRx (d : DecState) (s : State) : (enterField d s).decCrcRx = s.decCrcRx := rfl
@[simp] theorem enterField_frameReady (d : DecState) (s : State) : (enterField d s).frameReady = s.frameReady := rfl
@[simp] theorem enterField_lastActivity (d : DecState) (s : State) :
    (enterField d s).lastActivity = s.lastActivity := rfl
@[simp] theorem enterField_engPhase (d : DecState) (s : State) : (enterField d s).engPhase = s.engPhase := rfl
@[simp] theorem enterField_txBuf (d : DecState) (s : State) : (enterField d s).txBuf = s.txBuf := rfl
@[simp] theorem enterField_txIdx (d : DecState) (s : State) : (enterField d s).txIdx = s.txIdx := rfl
@[simp] theorem enterField_engAfterTx (d : DecState) (s : State) : (enterField d s).engAfterTx = s.engAfterTx := rfl
@[simp] theorem enterField_flash (d : DecState) (s : State) : (enterField d s).flash = s.flash := rfl
@[simp] theorem enterField_flashLocked (d : DecState) (s : State) :
    (enterField d s).flashLocked = s.flashLocked := rfl
@[simp] theorem enterField_bootRequest (d : DecState) (s : State) :
    (enterField d s).bootRequest = s.bootRequest := rfl
@[simp] theorem enterField_resetRequest (d : DecState) (s : State) :
    (enterField d s).resetRequest = s.resetRequest := rfl
@[simp] theorem enterField_frameDispatched (d : DecState) (s : State) :
    (enterField d s).frameDispatched = s.frameDispatched := rfl
@[simp] theorem enterField_putResult (d : DecState) (s : State) : (enterField d s).putResult = s.putResult := rfl
@[simp] theorem enterField_getResult (d : DecState) (s : State) : (enterField d s).getResult = s.getResult := rfl
@[simp] theorem enterField_isEmptyResult (d : DecState) (s : State) :
    (enterField d s).isEmptyResult = s.isEmptyResult := rfl
@[simp] theorem enterField_fullResult (d : DecState) (s : State) : (enterField d s).fullResult = s.fullResult := rfl
@[simp] theorem enterField_feedResult (d : DecState) (s : State) : (enterField d s).feedResult = s.feedResult := rfl
@[simp] theorem enterField_nowMs (d : DecState) (s : State) : (enterField d s).nowMs = s.nowMs := rfl
@[simp] theorem enterField_flashResults (d : DecState) (s : State) :
    (enterField d s).flashResults = s.flashResults := rfl
@[simp] theorem enterField_inputs (d : DecState) (s : State) : (enterField d s).inputs = s.inputs := rfl
@[simp] theorem enterField_txOut (d : DecState) (s : State) : (enterField d s).txOut = s.txOut := rfl
@[simp] theorem enterField_flashRequests (d : DecState) (s : State) :
    (enterField d s).flashRequests = s.flashRequests := rfl
@[simp] theorem enterField_draws (d : DecState) (s : State) : (enterField d s).draws = s.draws := rfl

/-! ### storePayload -/

@[simp] theorem storePayload_params (b : Byte) (s : State) : (storePayload b s).params = s.params := rfl
@[simp] theorem storePayload_fifoMem (b : Byte) (s : State) : (storePayload b s).fifoMem = s.fifoMem := rfl
@[simp] theorem storePayload_fifoWr (b : Byte) (s : State) : (storePayload b s).fifoWr = s.fifoWr := rfl
@[simp] theorem storePayload_fifoRd (b : Byte) (s : State) : (storePayload b s).fifoRd = s.fifoRd := rfl
@[simp] theorem storePayload_decState (b : Byte) (s : State) : (storePayload b s).decState = s.decState := rfl
@[simp] theorem storePayload_decOpcode (b : Byte) (s : State) : (storePayload b s).decOpcode = s.decOpcode := rfl
@[simp] theorem storePayload_decLength (b : Byte) (s : State) : (storePayload b s).decLength = s.decLength := rfl
@[simp] theorem storePayload_decIdx (b : Byte) (s : State) : (storePayload b s).decIdx = s.decIdx := rfl
@[simp] theorem storePayload_decPayload (b : Byte) (s : State) :
    (storePayload b s).decPayload = s.decPayload.write Config.slotFill s.decIdx.toNat b := rfl
@[simp] theorem storePayload_decCrcRx (b : Byte) (s : State) : (storePayload b s).decCrcRx = s.decCrcRx := rfl
@[simp] theorem storePayload_frameReady (b : Byte) (s : State) : (storePayload b s).frameReady = s.frameReady := rfl
@[simp] theorem storePayload_lastActivity (b : Byte) (s : State) :
    (storePayload b s).lastActivity = s.lastActivity := rfl
@[simp] theorem storePayload_engPhase (b : Byte) (s : State) : (storePayload b s).engPhase = s.engPhase := rfl
@[simp] theorem storePayload_txBuf (b : Byte) (s : State) : (storePayload b s).txBuf = s.txBuf := rfl
@[simp] theorem storePayload_txIdx (b : Byte) (s : State) : (storePayload b s).txIdx = s.txIdx := rfl
@[simp] theorem storePayload_engAfterTx (b : Byte) (s : State) : (storePayload b s).engAfterTx = s.engAfterTx := rfl
@[simp] theorem storePayload_flash (b : Byte) (s : State) : (storePayload b s).flash = s.flash := rfl
@[simp] theorem storePayload_flashLocked (b : Byte) (s : State) :
    (storePayload b s).flashLocked = s.flashLocked := rfl
@[simp] theorem storePayload_bootRequest (b : Byte) (s : State) :
    (storePayload b s).bootRequest = s.bootRequest := rfl
@[simp] theorem storePayload_resetRequest (b : Byte) (s : State) :
    (storePayload b s).resetRequest = s.resetRequest := rfl
@[simp] theorem storePayload_frameDispatched (b : Byte) (s : State) :
    (storePayload b s).frameDispatched = s.frameDispatched := rfl
@[simp] theorem storePayload_putResult (b : Byte) (s : State) : (storePayload b s).putResult = s.putResult := rfl
@[simp] theorem storePayload_getResult (b : Byte) (s : State) : (storePayload b s).getResult = s.getResult := rfl
@[simp] theorem storePayload_isEmptyResult (b : Byte) (s : State) :
    (storePayload b s).isEmptyResult = s.isEmptyResult := rfl
@[simp] theorem storePayload_fullResult (b : Byte) (s : State) : (storePayload b s).fullResult = s.fullResult := rfl
@[simp] theorem storePayload_feedResult (b : Byte) (s : State) : (storePayload b s).feedResult = s.feedResult := rfl
@[simp] theorem storePayload_nowMs (b : Byte) (s : State) : (storePayload b s).nowMs = s.nowMs := rfl
@[simp] theorem storePayload_flashResults (b : Byte) (s : State) :
    (storePayload b s).flashResults = s.flashResults := rfl
@[simp] theorem storePayload_inputs (b : Byte) (s : State) : (storePayload b s).inputs = s.inputs := rfl
@[simp] theorem storePayload_txOut (b : Byte) (s : State) : (storePayload b s).txOut = s.txOut := rfl
@[simp] theorem storePayload_flashRequests (b : Byte) (s : State) :
    (storePayload b s).flashRequests = s.flashRequests := rfl
@[simp] theorem storePayload_draws (b : Byte) (s : State) : (storePayload b s).draws = s.draws := rfl

/-! ### handOver -/

@[simp] theorem handOver_params (b : Byte) (s : State) : (handOver b s).params = s.params := rfl
@[simp] theorem handOver_fifoMem (b : Byte) (s : State) : (handOver b s).fifoMem = s.fifoMem := rfl
@[simp] theorem handOver_fifoWr (b : Byte) (s : State) : (handOver b s).fifoWr = s.fifoWr := rfl
@[simp] theorem handOver_fifoRd (b : Byte) (s : State) : (handOver b s).fifoRd = s.fifoRd := rfl
@[simp] theorem handOver_decState (b : Byte) (s : State) : (handOver b s).decState = s.decState := rfl
@[simp] theorem handOver_decOpcode (b : Byte) (s : State) : (handOver b s).decOpcode = s.decOpcode := rfl
@[simp] theorem handOver_decLength (b : Byte) (s : State) : (handOver b s).decLength = s.decLength := rfl
@[simp] theorem handOver_decIdx (b : Byte) (s : State) : (handOver b s).decIdx = s.decIdx := rfl
@[simp] theorem handOver_decPayload (b : Byte) (s : State) : (handOver b s).decPayload = s.decPayload := rfl
@[simp] theorem handOver_decCrcRx (b : Byte) (s : State) : (handOver b s).decCrcRx = s.decCrcRx := rfl
@[simp] theorem handOver_frameReady (b : Byte) (s : State) : (handOver b s).frameReady = s.frameReady := rfl
@[simp] theorem handOver_lastActivity (b : Byte) (s : State) : (handOver b s).lastActivity = s.lastActivity := rfl
@[simp] theorem handOver_engPhase (b : Byte) (s : State) : (handOver b s).engPhase = s.engPhase := rfl
@[simp] theorem handOver_txBuf (b : Byte) (s : State) : (handOver b s).txBuf = s.txBuf := rfl
@[simp] theorem handOver_txIdx (b : Byte) (s : State) : (handOver b s).txIdx = s.txIdx + 1 := rfl
@[simp] theorem handOver_engAfterTx (b : Byte) (s : State) : (handOver b s).engAfterTx = s.engAfterTx := rfl
@[simp] theorem handOver_flash (b : Byte) (s : State) : (handOver b s).flash = s.flash := rfl
@[simp] theorem handOver_flashLocked (b : Byte) (s : State) : (handOver b s).flashLocked = s.flashLocked := rfl
@[simp] theorem handOver_bootRequest (b : Byte) (s : State) : (handOver b s).bootRequest = s.bootRequest := rfl
@[simp] theorem handOver_resetRequest (b : Byte) (s : State) : (handOver b s).resetRequest = s.resetRequest := rfl
@[simp] theorem handOver_frameDispatched (b : Byte) (s : State) :
    (handOver b s).frameDispatched = s.frameDispatched := rfl
@[simp] theorem handOver_putResult (b : Byte) (s : State) : (handOver b s).putResult = s.putResult := rfl
@[simp] theorem handOver_getResult (b : Byte) (s : State) : (handOver b s).getResult = s.getResult := rfl
@[simp] theorem handOver_isEmptyResult (b : Byte) (s : State) : (handOver b s).isEmptyResult = s.isEmptyResult := rfl
@[simp] theorem handOver_fullResult (b : Byte) (s : State) : (handOver b s).fullResult = s.fullResult := rfl
@[simp] theorem handOver_feedResult (b : Byte) (s : State) : (handOver b s).feedResult = s.feedResult := rfl
@[simp] theorem handOver_nowMs (b : Byte) (s : State) : (handOver b s).nowMs = s.nowMs := rfl
@[simp] theorem handOver_flashResults (b : Byte) (s : State) : (handOver b s).flashResults = s.flashResults := rfl
@[simp] theorem handOver_inputs (b : Byte) (s : State) : (handOver b s).inputs = s.inputs := rfl
@[simp] theorem handOver_txOut (b : Byte) (s : State) : (handOver b s).txOut = s.txOut ++ [b] := rfl
@[simp] theorem handOver_flashRequests (b : Byte) (s : State) : (handOver b s).flashRequests = s.flashRequests := rfl
@[simp] theorem handOver_draws (b : Byte) (s : State) : (handOver b s).draws = s.draws := rfl

/-! ### beginTurn -/

@[simp] theorem beginTurn_params (s : State) : (beginTurn s).params = s.params := rfl
@[simp] theorem beginTurn_fifoMem (s : State) : (beginTurn s).fifoMem = s.fifoMem := rfl
@[simp] theorem beginTurn_fifoWr (s : State) : (beginTurn s).fifoWr = s.fifoWr := rfl
@[simp] theorem beginTurn_fifoRd (s : State) : (beginTurn s).fifoRd = s.fifoRd := rfl
@[simp] theorem beginTurn_decState (s : State) : (beginTurn s).decState = s.decState := rfl
@[simp] theorem beginTurn_decOpcode (s : State) : (beginTurn s).decOpcode = s.decOpcode := rfl
@[simp] theorem beginTurn_decLength (s : State) : (beginTurn s).decLength = s.decLength := rfl
@[simp] theorem beginTurn_decIdx (s : State) : (beginTurn s).decIdx = s.decIdx := rfl
@[simp] theorem beginTurn_decPayload (s : State) : (beginTurn s).decPayload = s.decPayload := rfl
@[simp] theorem beginTurn_decCrcRx (s : State) : (beginTurn s).decCrcRx = s.decCrcRx := rfl
@[simp] theorem beginTurn_frameReady (s : State) : (beginTurn s).frameReady = s.frameReady := rfl
@[simp] theorem beginTurn_lastActivity (s : State) : (beginTurn s).lastActivity = s.lastActivity := rfl
@[simp] theorem beginTurn_engPhase (s : State) : (beginTurn s).engPhase = s.engPhase := rfl
@[simp] theorem beginTurn_txBuf (s : State) : (beginTurn s).txBuf = s.txBuf := rfl
@[simp] theorem beginTurn_txIdx (s : State) : (beginTurn s).txIdx = s.txIdx := rfl
@[simp] theorem beginTurn_engAfterTx (s : State) : (beginTurn s).engAfterTx = s.engAfterTx := rfl
@[simp] theorem beginTurn_flash (s : State) : (beginTurn s).flash = s.flash := rfl
@[simp] theorem beginTurn_flashLocked (s : State) : (beginTurn s).flashLocked = s.flashLocked := rfl
@[simp] theorem beginTurn_bootRequest (s : State) : (beginTurn s).bootRequest = s.bootRequest := rfl
@[simp] theorem beginTurn_resetRequest (s : State) : (beginTurn s).resetRequest = s.resetRequest := rfl
@[simp] theorem beginTurn_frameDispatched (s : State) : (beginTurn s).frameDispatched = false := rfl
@[simp] theorem beginTurn_putResult (s : State) : (beginTurn s).putResult = s.putResult := rfl
@[simp] theorem beginTurn_getResult (s : State) : (beginTurn s).getResult = s.getResult := rfl
@[simp] theorem beginTurn_isEmptyResult (s : State) : (beginTurn s).isEmptyResult = s.isEmptyResult := rfl
@[simp] theorem beginTurn_fullResult (s : State) : (beginTurn s).fullResult = s.fullResult := rfl
@[simp] theorem beginTurn_feedResult (s : State) : (beginTurn s).feedResult = s.feedResult := rfl
@[simp] theorem beginTurn_nowMs (s : State) : (beginTurn s).nowMs = s.nowMs := rfl
@[simp] theorem beginTurn_flashResults (s : State) : (beginTurn s).flashResults = s.flashResults := rfl
@[simp] theorem beginTurn_inputs (s : State) : (beginTurn s).inputs = s.inputs.tail := rfl
@[simp] theorem beginTurn_txOut (s : State) : (beginTurn s).txOut = s.txOut := rfl
@[simp] theorem beginTurn_flashRequests (s : State) : (beginTurn s).flashRequests = s.flashRequests := rfl
@[simp] theorem beginTurn_draws (s : State) : (beginTurn s).draws = s.draws := rfl

/-! ### deliver -/

@[simp] theorem deliver_params (bs : List Byte) (s : State) : (deliver bs s).params = s.params := rfl
@[simp] theorem deliver_fifoMem (bs : List Byte) (s : State) : (deliver bs s).fifoMem = s.fifoMem := rfl
@[simp] theorem deliver_fifoWr (bs : List Byte) (s : State) : (deliver bs s).fifoWr = s.fifoWr := rfl
@[simp] theorem deliver_fifoRd (bs : List Byte) (s : State) : (deliver bs s).fifoRd = s.fifoRd := rfl
@[simp] theorem deliver_decState (bs : List Byte) (s : State) : (deliver bs s).decState = s.decState := rfl
@[simp] theorem deliver_decOpcode (bs : List Byte) (s : State) : (deliver bs s).decOpcode = s.decOpcode := rfl
@[simp] theorem deliver_decLength (bs : List Byte) (s : State) : (deliver bs s).decLength = s.decLength := rfl
@[simp] theorem deliver_decIdx (bs : List Byte) (s : State) : (deliver bs s).decIdx = s.decIdx := rfl
@[simp] theorem deliver_decPayload (bs : List Byte) (s : State) : (deliver bs s).decPayload = s.decPayload := rfl
@[simp] theorem deliver_decCrcRx (bs : List Byte) (s : State) : (deliver bs s).decCrcRx = s.decCrcRx := rfl
@[simp] theorem deliver_frameReady (bs : List Byte) (s : State) : (deliver bs s).frameReady = s.frameReady := rfl
@[simp] theorem deliver_lastActivity (bs : List Byte) (s : State) :
    (deliver bs s).lastActivity = s.lastActivity := rfl
@[simp] theorem deliver_engPhase (bs : List Byte) (s : State) : (deliver bs s).engPhase = s.engPhase := rfl
@[simp] theorem deliver_txBuf (bs : List Byte) (s : State) : (deliver bs s).txBuf = s.txBuf := rfl
@[simp] theorem deliver_txIdx (bs : List Byte) (s : State) : (deliver bs s).txIdx = s.txIdx := rfl
@[simp] theorem deliver_engAfterTx (bs : List Byte) (s : State) : (deliver bs s).engAfterTx = s.engAfterTx := rfl
@[simp] theorem deliver_flash (bs : List Byte) (s : State) : (deliver bs s).flash = s.flash := rfl
@[simp] theorem deliver_flashLocked (bs : List Byte) (s : State) : (deliver bs s).flashLocked = s.flashLocked := rfl
@[simp] theorem deliver_bootRequest (bs : List Byte) (s : State) : (deliver bs s).bootRequest = s.bootRequest := rfl
@[simp] theorem deliver_resetRequest (bs : List Byte) (s : State) :
    (deliver bs s).resetRequest = s.resetRequest := rfl
@[simp] theorem deliver_frameDispatched (bs : List Byte) (s : State) :
    (deliver bs s).frameDispatched = s.frameDispatched := rfl
@[simp] theorem deliver_putResult (bs : List Byte) (s : State) : (deliver bs s).putResult = s.putResult := rfl
@[simp] theorem deliver_getResult (bs : List Byte) (s : State) : (deliver bs s).getResult = s.getResult := rfl
@[simp] theorem deliver_isEmptyResult (bs : List Byte) (s : State) :
    (deliver bs s).isEmptyResult = s.isEmptyResult := rfl
@[simp] theorem deliver_fullResult (bs : List Byte) (s : State) : (deliver bs s).fullResult = s.fullResult := rfl
@[simp] theorem deliver_feedResult (bs : List Byte) (s : State) : (deliver bs s).feedResult = s.feedResult := rfl
@[simp] theorem deliver_nowMs (bs : List Byte) (s : State) : (deliver bs s).nowMs = s.nowMs := rfl
@[simp] theorem deliver_flashResults (bs : List Byte) (s : State) :
    (deliver bs s).flashResults = s.flashResults := rfl
@[simp] theorem deliver_inputs (bs : List Byte) (s : State) :
    (deliver bs s).inputs = bs.map Turn.rx ++ s.inputs := rfl
@[simp] theorem deliver_txOut (bs : List Byte) (s : State) : (deliver bs s).txOut = s.txOut := rfl
@[simp] theorem deliver_flashRequests (bs : List Byte) (s : State) :
    (deliver bs s).flashRequests = s.flashRequests := rfl
@[simp] theorem deliver_draws (bs : List Byte) (s : State) : (deliver bs s).draws = s.draws := rfl

/-! ### blockReset -/

@[simp] theorem blockReset_params (s : State) : (blockReset s).params = s.params := rfl
@[simp] theorem blockReset_fifoMem (s : State) : (blockReset s).fifoMem = [] := rfl
@[simp] theorem blockReset_fifoWr (s : State) : (blockReset s).fifoWr = 0 := rfl
@[simp] theorem blockReset_fifoRd (s : State) : (blockReset s).fifoRd = 0 := rfl
@[simp] theorem blockReset_decState (s : State) : (blockReset s).decState = .awaitingStart := rfl
@[simp] theorem blockReset_decOpcode (s : State) : (blockReset s).decOpcode = 0x00 := rfl
@[simp] theorem blockReset_decLength (s : State) : (blockReset s).decLength = 0 := rfl
@[simp] theorem blockReset_decIdx (s : State) : (blockReset s).decIdx = 0 := rfl
@[simp] theorem blockReset_decPayload (s : State) : (blockReset s).decPayload = [] := rfl
@[simp] theorem blockReset_decCrcRx (s : State) : (blockReset s).decCrcRx = 0 := rfl
@[simp] theorem blockReset_frameReady (s : State) : (blockReset s).frameReady = false := rfl
@[simp] theorem blockReset_lastActivity (s : State) : (blockReset s).lastActivity = s.nowMs := rfl
@[simp] theorem blockReset_engPhase (s : State) : (blockReset s).engPhase = .idle := rfl
@[simp] theorem blockReset_txBuf (s : State) : (blockReset s).txBuf = [] := rfl
@[simp] theorem blockReset_txIdx (s : State) : (blockReset s).txIdx = 0 := rfl
@[simp] theorem blockReset_engAfterTx (s : State) : (blockReset s).engAfterTx = .none := rfl
@[simp] theorem blockReset_flash (s : State) : (blockReset s).flash = s.flash := rfl
@[simp] theorem blockReset_flashLocked (s : State) : (blockReset s).flashLocked = true := rfl
@[simp] theorem blockReset_bootRequest (s : State) : (blockReset s).bootRequest = false := rfl
@[simp] theorem blockReset_resetRequest (s : State) : (blockReset s).resetRequest = false := rfl
@[simp] theorem blockReset_frameDispatched (s : State) : (blockReset s).frameDispatched = false := rfl
@[simp] theorem blockReset_putResult (s : State) : (blockReset s).putResult = none := rfl
@[simp] theorem blockReset_getResult (s : State) : (blockReset s).getResult = none := rfl
@[simp] theorem blockReset_isEmptyResult (s : State) : (blockReset s).isEmptyResult = none := rfl
@[simp] theorem blockReset_fullResult (s : State) : (blockReset s).fullResult = none := rfl
@[simp] theorem blockReset_feedResult (s : State) : (blockReset s).feedResult = none := rfl
@[simp] theorem blockReset_nowMs (s : State) : (blockReset s).nowMs = s.nowMs := rfl
@[simp] theorem blockReset_flashResults (s : State) : (blockReset s).flashResults = s.flashResults := rfl
@[simp] theorem blockReset_inputs (s : State) : (blockReset s).inputs = s.inputs := rfl
@[simp] theorem blockReset_txOut (s : State) : (blockReset s).txOut = s.txOut := rfl
@[simp] theorem blockReset_flashRequests (s : State) : (blockReset s).flashRequests = s.flashRequests := rfl
@[simp] theorem blockReset_draws (s : State) : (blockReset s).draws = s.draws := rfl

end Sys2Proof.Machine
end

