-- ==== Sys2Proof/Laws/Memory.lean ====
section
/-! SUPPORT. The laws of bytes by address: read after write, what a write leaves alone, and that every operation keeps the
canonical form. -/

namespace Sys2Proof.Machine

variable {fill b : Byte} {m : Memory} {a a' : Nat}

@[simp] theorem Memory.read_nil : Memory.read fill [] a = fill := rfl

theorem Memory.read_of_unlisted (h : ∀ c ∈ m, c.1 ≠ a) : m.read fill a = fill := by
  induction m with
  | nil => rfl
  | cons c m ih =>
    have hc : c.1 ≠ a := h c (by simp)
    simp [Memory.read, hc]
    exact ih fun d hd => h d (by simp [hd])

/-- A write leaves every other address alone. -/
theorem Memory.read_write_ne (h : a ≠ a') : (m.write fill a b).read fill a' = m.read fill a' := by
  induction m with
  | nil => by_cases hb : b = fill <;> simp [Memory.write, Memory.read, hb, h]
  | cons c m ih =>
    simp only [Memory.write]
    split
    · split <;> simp [Memory.read, h]
    · split
      · next heq =>
        have hc : c.1 ≠ a' := heq ▸ h
        split <;> simp [Memory.read, h, hc]
      · simp [Memory.read, ih]

/-- Where a write can put an entry. -/
theorem Memory.mem_write {c : Host.Cell} (hc : c ∈ m.write fill a b) : (c.1 = a ∧ b ≠ fill ∧ c.2 = b) ∨ c ∈ m := by
  induction m with
  | nil =>
    simp only [Memory.write] at hc
    split at hc
    · simp at hc
    · next hb => simp at hc; simp [hc, hb]
  | cons d m ih =>
    simp only [Memory.write] at hc
    split at hc
    · split at hc
      · exact .inr hc
      · next hb =>
        rcases List.mem_cons.1 hc with rfl | h
        · simp [hb]
        · exact .inr h
    · split at hc
      · split at hc
        · exact .inr (by simp [hc])
        · next hb =>
          rcases List.mem_cons.1 hc with rfl | h
          · simp [hb]
          · exact .inr (by simp [h])
      · rcases List.mem_cons.1 hc with rfl | h
        · simp
        · rcases ih h with h | h
          · exact .inl h
          · exact .inr (by simp [h])

/-- A write keeps the canonical form. -/
theorem Memory.wf_write (h : m.wf fill) : (m.write fill a b).wf fill := by
  refine ⟨?_, fun c hc => ?_⟩
  · have hs := h.1
    clear h
    induction m with
    | nil => by_cases hb : b = fill <;> simp [Memory.write, hb]
    | cons c m ih =>
      have ⟨hc, hm⟩ := List.pairwise_cons.1 hs
      simp only [Memory.write]
      split
      · next hlt =>
        split
        · exact hs
        · refine List.pairwise_cons.2 ⟨fun d hd => ?_, hs⟩
          rcases List.mem_cons.1 hd with rfl | hd
          · exact hlt
          · exact lt_trans hlt (hc d hd)
      · split
        · next heq =>
          split
          · exact hm
          · exact List.pairwise_cons.2 ⟨fun d hd => heq ▸ hc d hd, hm⟩
        · next h1 h2 =>
          refine List.pairwise_cons.2 ⟨fun d hd => ?_, ih hm⟩
          rcases Memory.mem_write hd with hd | hd
          · omega
          · exact hc d hd
  · rcases Memory.mem_write hc with hd | hd
    · exact hd.2.2 ▸ hd.2.1
    · exact h.2 c hd

/-- A read after a write to the same place gives the byte written. -/
theorem Memory.read_write_eq (h : m.wf fill) : (m.write fill a b).read fill a = b := by
  obtain ⟨hs, -⟩ := h
  induction m with
  | nil => by_cases hb : b = fill <;> simp [Memory.write, Memory.read, hb]
  | cons c m ih =>
    have ⟨hc, hm⟩ := List.pairwise_cons.1 hs
    simp only [Memory.write]
    split
    · next hlt =>
      split
      · next hb =>
        rw [hb]
        refine Memory.read_of_unlisted fun d hd => ?_
        rcases List.mem_cons.1 hd with rfl | hd
        · omega
        · have := hc d hd; omega
      · simp [Memory.read]
    · split
      · next heq =>
        split
        · next hb =>
          rw [hb]
          exact Memory.read_of_unlisted fun d hd => by have := hc d hd; omega
        · simp [Memory.read]
      · next h1 h2 =>
        have : c.1 ≠ a := fun e => h2 e.symm
        simp [Memory.read, this, ih hm]

theorem Memory.read_write (h : m.wf fill) :
    (m.write fill a b).read fill a' = if a' = a then b else m.read fill a' := by
  split
  · next e => exact e ▸ Memory.read_write_eq h
  · next e => exact Memory.read_write_ne (Ne.symm e)

/-! ### Several bytes -/

theorem Memory.wf_writeBytes {bs : List Byte} (h : m.wf fill) : (m.writeBytes fill a bs).wf fill := by
  induction bs generalizing m a with
  | nil => exact h
  | cons b bs ih => exact ih (Memory.wf_write h)

theorem Memory.mem_writeBytes {bs : List Byte} {c : Host.Cell} (hc : c ∈ m.writeBytes fill a bs) :
    (a ≤ c.1 ∧ c.1 < a + bs.length) ∨ c ∈ m := by
  induction bs generalizing m a with
  | nil => exact .inr hc
  | cons b bs ih =>
    simp only [List.length_cons]
    rcases ih hc with h | h
    · exact .inl (by omega)
    · rcases Memory.mem_write h with h | h
      · exact .inl (by omega)
      · exact .inr h

/-- Writing several bytes leaves every address outside them alone. -/
theorem Memory.read_writeBytes_outside {bs : List Byte} (h : ¬ (a ≤ a' ∧ a' < a + bs.length)) :
    (m.writeBytes fill a bs).read fill a' = m.read fill a' := by
  induction bs generalizing m a with
  | nil => rfl
  | cons b bs ih =>
    simp only [List.length_cons] at h
    simp only [Memory.writeBytes]
    rw [ih (by omega), Memory.read_write_ne (by omega)]

/-- Reading after writing several bytes gives the byte written. -/
theorem Memory.read_writeBytes_inside {bs : List Byte} {k : Nat} (h : m.wf fill) (hk : k < bs.length) :
    (m.writeBytes fill a bs).read fill (a + k) = bs[k] := by
  induction bs generalizing m a k with
  | nil => simp at hk
  | cons b bs ih =>
    simp only [Memory.writeBytes]
    cases k with
    | zero =>
      rw [Memory.read_writeBytes_outside (by omega)]
      simp [Memory.read_write_eq h]
    | succ k =>
      have := ih (m := m.write fill a b) (a := a + 1) (k := k) (Memory.wf_write h) (by simpa using hk)
      rw [show a + (k + 1) = a + 1 + k by omega, this]
      simp

theorem Memory.wf_clear {lo hi : Nat} (h : m.wf fill) : (m.clear lo hi).wf fill :=
  ⟨h.1.filter _, fun c hc => h.2 c (List.mem_filter.1 hc).1⟩

theorem Memory.mem_clear {lo hi : Nat} {c : Host.Cell} (hc : c ∈ m.clear lo hi) : c ∈ m := (List.mem_filter.1 hc).1

/-- Clearing a range makes it read as the fill and leaves the rest alone. -/
theorem Memory.read_clear {lo hi : Nat} :
    (m.clear lo hi).read fill a = if lo ≤ a ∧ a < hi then fill else m.read fill a := by
  induction m with
  | nil => simp [Memory.clear]
  | cons c m ih =>
    simp only [Memory.clear] at ih ⊢
    rw [List.filter_cons]
    by_cases hc : lo ≤ c.1 ∧ c.1 < hi
    · have : (!(decide (lo ≤ c.1) && decide (c.1 < hi))) = false := by simp [hc]
      rw [this]
      simp only [Bool.false_eq_true, if_false, ih, Memory.read]
      by_cases ha : lo ≤ a ∧ a < hi
      · simp [ha]
      · have : c.1 ≠ a := fun e => ha (e ▸ hc)
        simp [ha, this]
    · have : (!(decide (lo ≤ c.1) && decide (c.1 < hi))) = true := by
        simp only [Bool.not_eq_true', Bool.and_eq_false_iff, decide_eq_false_iff_not]; omega
      rw [this]
      simp only [if_true, Memory.read, ih]
      by_cases ha : c.1 = a
      · subst ha; simp [hc]
      · simp [ha]

@[simp] theorem Memory.length_readBytes {n : Nat} : (m.readBytes fill a n).length = n := by simp [Memory.readBytes]

theorem Memory.getElem_readBytes {n k : Nat} (h : k < (m.readBytes fill a n).length) :
    (m.readBytes fill a n)[k] = m.read fill (a + k) := by simp [Memory.readBytes]

end Sys2Proof.Machine
end

