-- ==== Sys2Proof/Laws/Decoder.lean ====
section
/-! SUPPORT. What `feed` does, one lemma per arm of the decoder's table, and what an ENGINE step that takes a byte is. -/

namespace Sys2Proof.Machine

variable {s : State} {b : Byte}

theorem feed_awaitingStart (h : s.decState = .awaitingStart) :
    feed b s = .next (if b = Config.startMarker
      then { answerFalse s with decState := .awaitingOpcode }
      else answerFalse s) := by
  unfold feed; split <;> simp_all

theorem feed_awaitingOpcode (h : s.decState = .awaitingOpcode) :
    feed b s = .next { answerFalse s with
      decOpcode := b, decState := .awaitingLength, decIdx := 0 } := by
  unfold feed; split <;> simp_all [enterField]

theorem feed_firstLength (h : s.decState = .awaitingLength) (hi : s.decIdx = 0) :
    feed b s = .next { answerFalse s with decLength := b.setWidth 16, decIdx := s.decIdx + 1 } := by
  unfold feed; split <;> simp_all [countByte]

theorem feed_secondLength (h : s.decState = .awaitingLength) (hi : s.decIdx = 1) :
    feed b s = .next (judgeLength { answerFalse s with
      decLength := le16 (s.decLength.extractLsb' 0 8) b }) := by
  unfold feed; split <;> simp_all

theorem feed_payload (h : s.decState = .awaitingPayload) (hm : s.decIdx.toNat < Config.maxPayload)
    (hi : s.decIdx.toNat + 1 < s.decLength.toNat) :
    feed b s = .next (countByte (storePayload b (answerFalse s))) := by
  unfold feed; split <;> simp_all

theorem feed_lastPayload (h : s.decState = .awaitingPayload) (hm : s.decIdx.toNat < Config.maxPayload)
    (hi : s.decIdx.toNat + 1 = s.decLength.toNat) :
    feed b s = .next (enterField .awaitingCrc (storePayload b (answerFalse s))) := by
  have : ¬ Config.maxPayload ≤ s.decIdx.toNat := by omega
  unfold feed; split <;> simp_all

theorem feed_crc (h : s.decState = .awaitingCrc) (hi : s.decIdx.toNat < 3) :
    feed b s = .next { answerFalse s with
      decCrcRx := placeCrcByte s.decCrcRx s.decIdx.toNat b, decIdx := s.decIdx + 1 } := by
  unfold feed; split <;> simp_all [countByte]

theorem feed_lastCrc (h : s.decState = .awaitingCrc) (hi : s.decIdx = 3)
    (hm : s.decLength.toNat ≤ Config.maxPayload) :
    feed b s = .next (judgeCrc { answerFalse s with
      decCrcRx := placeCrcByte s.decCrcRx 3 b }) := by
  have : ¬ Config.maxPayload < s.decLength.toNat := by omega
  unfold feed; split <;> simp_all

theorem feed_corrupt {k : Fin 3} (h : s.decState = .corrupt k) :
    feed b s = .next (decoderError codeErrOpcode (answerFalse s)) := by
  unfold feed; split <;> simp_all

/-- An ENGINE step that takes a byte (R170). -/
theorem execDecFeed_takes (h1 : s.engPhase = .idle) (h2 : s.fifoWr ≠ s.fifoRd) :
    execDecFeed s = feed (fifoSlot s s.fifoRd) (takeByte s) := by
  simp [execDecFeed, h1, fifoEmpty, h2]

@[simp] theorem length_heldPayload : (heldPayload s).length = s.decLength.toNat := by simp [heldPayload]

/-- The received CRC's bytes after one is placed (R41, R179). -/
theorem extract_placeCrcByte {rx : Word} {k j : Nat} (hk : k < 4) (hj : j < 4) :
    (placeCrcByte rx k b).extractLsb' (8 * j) 8 = if j = k then b else rx.extractLsb' (8 * j) 8 := by
  have hk' : k = 0 ∨ k = 1 ∨ k = 2 ∨ k = 3 := by omega
  have hj' : j = 0 ∨ j = 1 ∨ j = 2 ∨ j = 3 := by omega
  apply BitVec.eq_of_getLsbD_eq
  intro i hi
  have hb : i = 0 ∨ i = 1 ∨ i = 2 ∨ i = 3 ∨ i = 4 ∨ i = 5 ∨ i = 6 ∨ i = 7 := by omega
  rcases hk' with rfl | rfl | rfl | rfl <;> rcases hj' with rfl | rfl | rfl | rfl <;>
    rcases hb with rfl | rfl | rfl | rfl | rfl | rfl | rfl | rfl <;> simp [placeCrcByte]

end Sys2Proof.Machine
end

