-- ==== Sys2Proof/Laws/Ops.lean ====
section
/-! SUPPORT. What each shared operation says and does: the cursors' arithmetic, the range predicates, the sector table,
and the flash port primitives with what they leave alone. -/

namespace Sys2Proof.Machine

/-! ### The cursors (R35, R141) -/

theorem succ_mod {c n : Nat} (h : c < n) : (c + 1) % n = if c + 1 = n then 0 else c + 1 := by
  split
  · next e => rw [e, Nat.mod_self]
  · exact Nat.mod_eq_of_lt (by omega)

theorem advance_lt {c n : Nat} (h : 0 < n) : advance n c < n := Nat.mod_lt _ h

theorem count_eq {w r n : Nat} (hw : w < n) (hr : r < n) :
    (w + n - r) % n = if r ≤ w then w - r else w + n - r := by
  split
  · rw [show w + n - r = (w - r) + n by omega, Nat.add_mod_right, Nat.mod_eq_of_lt (by omega)]
  · exact Nat.mod_eq_of_lt (by omega)

/-- One more byte held after the write cursor advances. -/
theorem count_put {w r n : Nat} (hn : 2 ≤ n) (hw : w < n) (hr : r < n) (hf : (w + 1) % n ≠ r) :
    ((w + 1) % n + n - r) % n = (w + n - r) % n + 1 ∧
      (((w + 1) % n + 1) % n = r ↔ ((w + 1) % n + n - r) % n = n - 1) := by
  have hw' : (w + 1) % n < n := Nat.mod_lt _ (by omega)
  rw [count_eq hw' hr, count_eq hw hr, succ_mod hw']
  have e := succ_mod hw
  generalize (w + 1) % n = x at *
  constructor <;> split at e <;> split <;> (try split) <;> omega

/-- One byte fewer held after the read cursor advances. -/
theorem count_get {w r n : Nat} (hn : 2 ≤ n) (hw : w < n) (hr : r < n) (hf : w ≠ r) :
    (w + n - (r + 1) % n) % n + 1 = (w + n - r) % n ∧ (w + 1) % n ≠ (r + 1) % n ∧
      (w = (r + 1) % n ↔ (w + n - (r + 1) % n) % n = 0) := by
  have hr' : (r + 1) % n < n := Nat.mod_lt _ (by omega)
  rw [count_eq hw hr', count_eq hw hr, succ_mod hw, succ_mod hr]
  refine ⟨?_, ?_, ?_⟩ <;> split <;> (try split) <;> (try split) <;> omega

theorem fifoEmpty_iff {s : State} : fifoEmpty s = true ↔ s.fifoWr = s.fifoRd := by simp [fifoEmpty]

theorem fifoIsFull_iff {s : State} : fifoIsFull s = true ↔ (s.fifoWr + 1) % s.params.fifoSlots = s.fifoRd := by
  simp [fifoIsFull, advance]

/-! ### Ranges (R261, R262) and the sector table (R72) -/

theorem intersectsProtected_iff {r : Range} : r.intersectsProtected = true ↔
    0 < r.size.toNat ∧ r.address.toNat < 0x0800C000 ∧ 0x08000000 < r.address.toNat + r.size.toNat := by
  unfold Range.intersectsProtected
  rw [Bool.and_eq_true, Bool.and_eq_true, decide_eq_true_iff, decide_eq_true_iff, decide_eq_true_iff, and_assoc]
  rfl

theorem inProtected_iff {a : Nat} : inProtected a = true ↔ 0x08000000 ≤ a ∧ a < 0x0800C000 := by
  unfold inProtected
  rw [Bool.and_eq_true, decide_eq_true_iff, decide_eq_true_iff]
  rfl

theorem inFlash_iff {p : Config.Params} {a : Nat} :
    inFlash p a = true ↔ ∃ sp ∈ spans p, sp.1 ≤ a ∧ a < sp.1 + sp.2 := by
  simp [inFlash, List.any_eq_true]

theorem wordInOneSector_iff {p : Config.Params} {a : Nat} :
    wordInOneSector p a = true ↔ ∃ sp ∈ spans p, sp.1 ≤ a ∧ a + 4 ≤ sp.1 + sp.2 := by
  unfold wordInOneSector
  rw [List.any_eq_true]
  refine exists_congr fun sp => and_congr_right fun _ => ?_
  rw [Bool.and_eq_true, decide_eq_true_iff, decide_eq_true_iff]
  rfl

/-- Every sector starts at or above the flash base. -/
theorem flashBase_le_of_mem_sectorSpans {xs : List Config.Sector} {off : Nat} {sp : Nat × Nat}
    (h : sp ∈ sectorSpans xs off) : Config.flashBase + off ≤ sp.1 := by
  induction xs generalizing off with
  | nil => simp [sectorSpans] at h
  | cons x xs ih =>
    rcases List.mem_cons.1 h with rfl | h
    · exact Nat.le_refl _
    · have := ih h; omega

theorem flashBase_le_of_mem_spans {p : Config.Params} {sp : Nat × Nat} (h : sp ∈ spans p) :
    0x08000000 ≤ sp.1 := flashBase_le_of_mem_sectorSpans h

/-! ### The flash port primitives (R76 to R80) -/

/-- What a flash request may change, and where: flash bytes at the addresses that `P` allows, the pending results and the
count of free values, and the record of requests. -/
structure FlashOnly (P : Nat → Prop) (s t : State) : Prop where
  /-- every field but the flash list, the pending results, the draws, the lock and the record -/
  frame : t = { s with
    flash := t.flash, flashResults := t.flashResults, draws := t.draws, flashLocked := t.flashLocked,
    flashRequests := t.flashRequests }
  /-- bytes elsewhere keep their value -/
  outside : ∀ a, ¬ P a → flashByte t a = flashByte s a
  /-- the canonical form is kept -/
  form : s.flash.wf Config.erasedByte → t.flash.wf Config.erasedByte
  /-- only allowed addresses are newly listed -/
  listed : ∀ c ∈ t.flash, P c.1 ∨ c ∈ s.flash

namespace FlashOnly

variable {P : Nat → Prop} {s t u : State}

theorem refl (P : Nat → Prop) (s : State) : FlashOnly P s s :=
  ⟨rfl, fun _ _ => rfl, id, fun _ => .inr⟩

theorem trans (h : FlashOnly P s t) (h' : FlashOnly P t u) : FlashOnly P s u where
  frame := by rw [h'.frame, h.frame]
  outside a ha := (h'.outside a ha).trans (h.outside a ha)
  form w := h'.form (h.form w)
  listed c hc := by
    rcases h'.listed c hc with h1 | h1
    · exact .inl h1
    · exact h.listed c h1

theorem mono {Q : Nat → Prop} (h : FlashOnly P s t) (hq : ∀ a, P a → Q a) : FlashOnly Q s t where
  frame := h.frame
  outside a ha := h.outside a fun hp => ha (hq a hp)
  form := h.form
  listed c hc := (h.listed c hc).imp (hq _) id

theorem params_eq (h : FlashOnly P s t) : t.params = s.params := by rw [h.frame]

theorem of_flash_eq (h : t = { s with
    flashResults := t.flashResults, draws := t.draws, flashLocked := t.flashLocked,
    flashRequests := t.flashRequests }) : FlashOnly P s t := by
  have hf : t.flash = s.flash := by rw [h]
  refine ⟨?_, fun a _ => by simp only [flashByte, hf], fun w => hf ▸ w, fun c hc => .inr (hf ▸ hc)⟩
  rw [hf]; exact h

end FlashOnly

theorem request_flashOnly (P : Nat → Prop) (r : FlashRequest) (s : State) : FlashOnly P s (request r s) :=
  .of_flash_eq rfl

theorem flashUnlock_flashOnly (P : Nat → Prop) (s : State) : FlashOnly P s (flashUnlock s) := .of_flash_eq rfl

theorem flashLock_flashOnly (P : Nat → Prop) (s : State) : FlashOnly P s (flashLock s) := .of_flash_eq rfl

/-- The next result touches only the pending results and the draws. -/
theorem nextResult_eq (s : State) : (nextResult s).2 =
    { s with flashResults := (nextResult s).2.flashResults, draws := (nextResult s).2.draws } := by
  unfold nextResult; split <;> rfl

theorem nextResult_flashResults (s : State) : (nextResult s).2.flashResults = s.flashResults.tail := by
  unfold nextResult; split <;> simp_all

theorem nextResult_flash (s : State) : (nextResult s).2.flash = s.flash := by rw [nextResult_eq]

theorem nextResult_flashOnly (P : Nat → Prop) (s : State) : FlashOnly P s (nextResult s).2 :=
  .of_flash_eq (by rw [nextResult_eq])

@[simp] theorem length_freeBytes (k n : Nat) : (freeBytes k n).length = n := by simp [freeBytes]

theorem drawFlash_flashOnly (a n : Nat) (s : State) :
    FlashOnly (fun x => a ≤ x ∧ x < a + n) s (drawFlash a n s) where
  frame := rfl
  outside _ hx := Memory.read_writeBytes_outside (by simpa using hx)
  form w := Memory.wf_writeBytes w
  listed _ hc := (Memory.mem_writeBytes hc).imp (by simp) id

theorem writeFlash_flashOnly (a : Nat) (bs : List Byte) (s : State) :
    FlashOnly (fun x => a ≤ x ∧ x < a + bs.length) s
      { s with flash := s.flash.writeBytes Config.erasedByte a bs } where
  frame := rfl
  outside _ hx := Memory.read_writeBytes_outside hx
  form w := Memory.wf_writeBytes w
  listed _ hc := Memory.mem_writeBytes hc

theorem clearFlash_flashOnly (lo hi : Nat) (s : State) :
    FlashOnly (fun x => lo ≤ x ∧ x < hi) s { s with flash := s.flash.clear lo hi } where
  frame := rfl
  outside x hx := by
    simp only [flashByte, Memory.read_clear, if_neg hx]
  form w := Memory.wf_clear w
  listed c hc := .inr (Memory.mem_clear hc)

/-- An erase of a span changes nothing outside the span. -/
theorem eraseSpan_flashOnly (start size : Nat) (s : State) :
    FlashOnly (fun x => start ≤ x ∧ x < start + size) s (eraseSpan start size s) := by
  unfold eraseSpan
  split
  · exact .refl _ _
  · have h := nextResult_flashOnly (fun x => start ≤ x ∧ x < start + size) s
    split
    · next heq => rw [heq] at h; exact h.trans (clearFlash_flashOnly start (start + size) _)
    · next heq => rw [heq] at h; exact h.trans (drawFlash_flashOnly start size _)

/-- FlashEraseSector changes nothing outside its sector (R78). -/
theorem flashEraseSector_flashOnly (id : Nat) (s : State) :
    FlashOnly (fun x => ∃ sp, (spans s.params)[id]? = some sp ∧ sp.1 ≤ x ∧ x < sp.1 + sp.2) s
      (flashEraseSector id s) := by
  unfold flashEraseSector
  split
  · next sp heq =>
    exact (request_flashOnly _ _ _).trans ((eraseSpan_flashOnly _ _ _).mono fun a ha => ⟨sp, heq, ha⟩)
  · exact request_flashOnly _ _ _

/-- A program of a word changes nothing outside the word, and nothing at all unless the controller is unlocked, the
address is aligned and the word lies in one sector (R79). -/
theorem programWord_flashOnly (addr w : Word) (s : State) :
    FlashOnly (fun x => (s.flashLocked = false ∧ addr.toNat % 4 = 0 ∧ wordInOneSector s.params addr.toNat = true) ∧
      addr.toNat ≤ x ∧ x < addr.toNat + 4) s (programWord addr w s).2 := by
  unfold programWord
  split
  · exact .refl _ _
  · next h1 =>
    split
    · exact .refl _ _
    · next h2 =>
      split
      · exact .refl _ _
      · next h3 =>
        have ok : s.flashLocked = false ∧ addr.toNat % 4 = 0 ∧ wordInOneSector s.params addr.toNat = true := by
          refine ⟨by simpa using h1, ?_, by simpa using h3⟩
          exact not_not.1 h2
        have h := nextResult_flashOnly (fun x => (s.flashLocked = false ∧ addr.toNat % 4 = 0 ∧
          wordInOneSector s.params addr.toNat = true) ∧ addr.toNat ≤ x ∧ x < addr.toNat + 4) s
        have hd := fun t => (drawFlash_flashOnly addr.toNat Config.wordBytes t).mono fun a ha => And.intro ok ha
        split
        · next heq =>
          rw [heq] at h
          split
          · exact h.trans ((writeFlash_flashOnly _ _ _).mono fun a ha => ⟨ok, by simpa using ha⟩)
          · exact h.trans (hd _)
        · next heq => rw [heq] at h; exact h.trans (hd _)

/-- FlashProgramWord changes nothing outside the word (R79). -/
theorem flashProgramWord_flashOnly (addr w : Word) (s : State) :
    FlashOnly (fun x => (s.flashLocked = false ∧ addr.toNat % 4 = 0 ∧ wordInOneSector s.params addr.toNat = true) ∧
      addr.toNat ≤ x ∧ x < addr.toNat + 4) s (flashProgramWord addr w s).2 := by
  have h := programWord_flashOnly addr w (request (.programWord addr w) s)
  simp only [request_flashLocked, request_params] at h
  exact (request_flashOnly _ _ _).trans h

end Sys2Proof.Machine
end

