-- ==== Sys2Proof/Laws/Flash.lean ====
section
/-! SUPPORT. What the flash sequencer's walks do: ERASE's sector walk (R268), WRITE's word loop (R274) and the reads of
VERIFY (R281); and what any command can do, said once. -/

namespace Sys2Proof.Machine

open Sys2Proof.Safety

/-! ### ERASE's walk -/

/-- The walk changes nothing outside the sectors whose start lies in the range. -/
theorem eraseWalk_flashOnly (r : Range) (P : Nat → Prop) : ∀ (rest pre : List (Nat × Nat)) (s : State),
    spans s.params = pre ++ rest →
    (∀ sp ∈ rest, r.first ≤ sp.1 → sp.1 < r.limit → ∀ x, sp.1 ≤ x → x < sp.1 + sp.2 → P x) →
    FlashOnly P s (eraseWalk r rest pre.length s) := by
  intro rest
  induction rest with
  | nil => intro pre s _ _; exact .refl _ _
  | cons sp rest ih =>
    intro pre s hs hP
    simp only [eraseWalk]
    have hstep : FlashOnly P s
        (if r.first ≤ sp.1 ∧ sp.1 < r.limit then flashEraseSector pre.length s else s) := by
      split
      · next hsel =>
        refine (flashEraseSector_flashOnly _ _).mono ?_
        rintro a ⟨sp', h', h1, h2⟩
        rw [hs] at h'
        simp at h'
        subst h'
        exact hP _ (by simp) hsel.1 hsel.2 a h1 h2
      · exact .refl _ _
    refine hstep.trans ?_
    simpa using ih (pre ++ [sp]) (if r.first ≤ sp.1 ∧ sp.1 < r.limit then flashEraseSector pre.length s else s)
      (by rw [hstep.params_eq, hs]; simp) (fun sp' h' => hP sp' (by simp [h']))

/-- The numbers of the sectors that the walk erases, from number `j` on. -/
def walked (r : Range) : List (Nat × Nat) → Nat → List Nat
  | [], _ => []
  | sp :: rest, j =>
    if r.first ≤ sp.1 ∧ sp.1 < r.limit then j :: walked r rest (j + 1) else walked r rest (j + 1)

theorem mem_walked {r : Range} : ∀ {rest pre : List (Nat × Nat)} {j : Nat}, j ∈ walked r rest pre.length →
    ∃ sp, (pre ++ rest)[j]? = some sp ∧ r.first ≤ sp.1 ∧ sp.1 < r.limit := by
  intro rest
  induction rest with
  | nil => intro pre j h; simp [walked] at h
  | cons sp rest ih =>
    intro pre j h
    have hrest : j ∈ walked r rest (pre ++ [sp]).length →
        ∃ sp', (pre ++ sp :: rest)[j]? = some sp' ∧ r.first ≤ sp'.1 ∧ sp'.1 < r.limit := fun hm => by
      simpa using ih hm
    simp only [walked] at h
    split at h
    · next hc =>
      rcases List.mem_cons.1 h with rfl | h
      · exact ⟨sp, by simp, hc⟩
      · exact hrest (by simpa using h)
    · exact hrest (by simpa using h)

theorem filter_eq_walked (r : Range) (p : Config.Params) : ∀ rest pre : List (Nat × Nat), spans p = pre ++ rest →
    ((List.range' pre.length rest.length).filter fun j =>
      match (spans p)[j]? with
      | some sp => decide (r.first ≤ sp.1) && decide (sp.1 < r.limit)
      | none => false) = walked r rest pre.length := by
  intro rest
  induction rest with
  | nil => intro pre h; rfl
  | cons sp rest ih =>
    intro pre h
    have := ih (pre ++ [sp]) (by rw [h]; simp)
    simp only [List.length_append, List.length_cons, List.length_nil, Nat.zero_add] at this
    rw [List.length_cons, List.range'_succ, List.filter_cons]
    have hg : (spans p)[pre.length]? = some sp := by rw [h]; simp
    rw [hg]
    simp only [walked]
    rw [← this]
    by_cases hc : r.first ≤ sp.1 ∧ sp.1 < r.limit
    · simp [hc]
    · rw [if_neg hc]
      have : (decide (r.first ≤ sp.1) && decide (sp.1 < r.limit)) = false := by
        simp only [Bool.and_eq_false_iff, decide_eq_false_iff_not]; omega
      simp [this]

/-- The walk erases the selected sectors. -/
theorem walked_eq_selected (r : Range) (p : Config.Params) : walked r (spans p) 0 = selectedSectors p r := by
  have := filter_eq_walked r p (spans p) [] rfl
  rw [← List.length_nil (α := Nat × Nat), ← this]
  unfold selectedSectors
  rw [List.range_eq_range']; rfl

theorem eraseSpan_facts (a n : Nat) (s : State) (hl : s.flashLocked = false) :
    (eraseSpan a n s).flashLocked = false ∧ (eraseSpan a n s).flashRequests = s.flashRequests ∧
    (eraseSpan a n s).flashResults = s.flashResults.tail ∧ (eraseSpan a n s).params = s.params := by
  unfold eraseSpan
  have e := nextResult_eq s
  have e2 := nextResult_flashResults s
  simp only [hl, Bool.false_eq_true, if_false]
  split <;> next heq =>
    rw [heq] at e e2; simp only at e e2
    refine ⟨?_, ?_, ?_, ?_⟩ <;> simp [e2] <;> rw [e] <;> simp [hl]

theorem flashEraseSector_facts {j : Nat} {sp : Nat × Nat} {s : State} (hl : s.flashLocked = false)
    (h : (spans s.params)[j]? = some sp) :
    (flashEraseSector j s).flashLocked = false ∧
    (flashEraseSector j s).flashRequests = s.flashRequests ++ [.eraseSector j] ∧
    (flashEraseSector j s).flashResults = s.flashResults.tail ∧ (flashEraseSector j s).params = s.params := by
  unfold flashEraseSector
  simp only [h]
  simpa using eraseSpan_facts sp.1 sp.2 (request (.eraseSector j) s) hl

/-- The walk's requests, and the results it takes. -/
theorem eraseWalk_facts (r : Range) : ∀ (rest pre : List (Nat × Nat)) (s : State), spans s.params = pre ++ rest →
    s.flashLocked = false →
    (eraseWalk r rest pre.length s).flashLocked = false ∧
    (eraseWalk r rest pre.length s).flashRequests =
      s.flashRequests ++ (walked r rest pre.length).map .eraseSector ∧
    (eraseWalk r rest pre.length s).flashResults = s.flashResults.drop (walked r rest pre.length).length := by
  intro rest
  induction rest with
  | nil => intro pre s _ h; simp [eraseWalk, walked, h]
  | cons sp rest ih =>
    intro pre s hs hl
    simp only [eraseWalk, walked]
    by_cases hc : r.first ≤ sp.1 ∧ sp.1 < r.limit
    · simp only [if_pos hc]
      obtain ⟨f1, f2, f3, f4⟩ := flashEraseSector_facts (j := pre.length) (sp := sp) hl (by rw [hs]; simp)
      obtain ⟨g1, g2, g3⟩ := ih (pre ++ [sp]) (flashEraseSector pre.length s) (by rw [f4, hs]; simp) f1
      simp only [List.length_append, List.length_cons, List.length_nil, Nat.zero_add] at g1 g2 g3
      exact ⟨g1, by rw [g2, f2]; simp, by rw [g3, f3]; simp⟩
    · simp only [if_neg hc]
      obtain ⟨g1, g2, g3⟩ := ih (pre ++ [sp]) s (by rw [hs]; simp) hl
      simp only [List.length_append, List.length_cons, List.length_nil, Nat.zero_add] at g1 g2 g3
      exact ⟨g1, g2, g3⟩

/-- A sector whose erase succeeds reads as erased (R78). -/
theorem flashEraseSector_ok {j : Nat} {sp : Nat × Nat} {s : State} {rest : List FlashResult}
    (hl : s.flashLocked = false) (h : (spans s.params)[j]? = some sp) (hr : s.flashResults = .ok :: rest) (x : Nat) :
    flashByte (flashEraseSector j s) x =
      if sp.1 ≤ x ∧ x < sp.1 + sp.2 then Config.erasedByte else flashByte s x := by
  unfold flashEraseSector
  simp only [h, eraseSpan, request_flashLocked, hl, nextResult, request_flashResults, hr]
  simp [flashByte, Memory.read_clear]

/-- A walk whose erases all succeed leaves its sectors erased. -/
theorem eraseWalk_ok (r : Range) : ∀ (rest pre : List (Nat × Nat)) (s : State), spans s.params = pre ++ rest →
    s.flashLocked = false → (walked r rest pre.length).length ≤ s.flashResults.length →
    (∀ q ∈ s.flashResults.take (walked r rest pre.length).length, q = .ok) →
    ∀ x, (flashByte s x = Config.erasedByte ∨
        ∃ sp ∈ rest, (r.first ≤ sp.1 ∧ sp.1 < r.limit) ∧ sp.1 ≤ x ∧ x < sp.1 + sp.2) →
    flashByte (eraseWalk r rest pre.length s) x = Config.erasedByte := by
  intro rest
  induction rest with
  | nil => intro pre s _ _ _ _ x h; simpa [eraseWalk] using h
  | cons sp rest ih =>
    intro pre s hs hl hlen hok x hx
    have hlast : (pre ++ [sp]).length = pre.length + 1 := by simp
    simp only [eraseWalk]
    simp only [walked] at hlen hok
    by_cases hc : r.first ≤ sp.1 ∧ sp.1 < r.limit
    · simp only [if_pos hc, List.length_cons] at hlen hok ⊢
      have hj : (spans s.params)[pre.length]? = some sp := by rw [hs]; simp
      obtain ⟨f1, -, f3, f4⟩ := flashEraseSector_facts hl hj
      rcases hfr : s.flashResults with _ | ⟨q, qs⟩
      · simp [hfr] at hlen
      rw [hfr] at hlen hok f3
      obtain rfl : q = .ok := hok q (by simp)
      rw [← hlast] at hlen hok ⊢
      apply ih (pre ++ [sp]) (flashEraseSector pre.length s) (by rw [f4, hs]; simp) f1
        (by rw [f3]; simpa using hlen)
        (by rw [f3]; intro q hq; exact hok q (by simp at hq ⊢; exact .inr hq)) x
      rw [flashEraseSector_ok hl hj hfr]
      rcases hx with hx | ⟨sp', h1, h2⟩
      · left; split <;> simp [hx]
      · rcases List.mem_cons.1 h1 with rfl | h1
        · left; simp [h2]
        · right; exact ⟨sp', h1, h2⟩
    · simp only [if_neg hc] at hlen hok ⊢
      rw [← hlast] at hlen hok ⊢
      apply ih (pre ++ [sp]) s (by rw [hs]; simp) hl hlen hok x
      rcases hx with hx | ⟨sp', h1, h2⟩
      · exact .inl hx
      · rcases List.mem_cons.1 h1 with rfl | h1
        · exact absurd h2.1 hc
        · right; exact ⟨sp', h1, h2⟩

/-! ### WRITE's loop -/

/-- The loop changes nothing outside its words, and nothing at all unless they are aligned and inside the sectors. -/
theorem programWords_flashOnly (address : Word) (data : List Byte) (P : Nat → Prop) : ∀ (n i : Nat) (s : State),
    (∀ k < n, address.toNat % 4 = 0 →
      wordInOneSector s.params (address + BitVec.ofNat 32 (i + 4 * k)).toNat = true →
      ∀ x, (address + BitVec.ofNat 32 (i + 4 * k)).toNat ≤ x →
        x < (address + BitVec.ofNat 32 (i + 4 * k)).toNat + 4 → P x) →
    i % 4 = 0 → FlashOnly P s (programWords address data n i s) := by
  intro n
  induction n with
  | zero => intro i s _ _; exact .refl _ _
  | succ n ih =>
    intro i s hP hi
    simp only [programWords]
    have h1 : FlashOnly P s (flashProgramWord (address + BitVec.ofNat 32 i) (dataWord data i) s).2 := by
      refine (flashProgramWord_flashOnly _ _ _).mono ?_
      rintro x ⟨⟨-, ha, hw⟩, h1, h2⟩
      refine hP 0 (by omega) ?_ (by simpa using hw) x (by simpa using h1) (by simpa using h2)
      rw [BitVec.toNat_add, BitVec.toNat_ofNat] at ha; omega
    refine h1.trans (ih _ _ ?_ (by simp [Config.wordBytes]; omega))
    intro k hk h0 hw x hx1 hx2
    rw [h1.params_eq] at hw
    have e : i + Config.wordBytes + 4 * k = i + 4 * (k + 1) := by simp [Config.wordBytes]; omega
    rw [e] at hw hx1 hx2
    exact hP (k + 1) (by omega) h0 hw x hx1 hx2

theorem programWord_facts (a w : Word) (s : State) :
    (programWord a w s).2.flashLocked = s.flashLocked ∧
    (programWord a w s).2.flashRequests = s.flashRequests := by
  have e := nextResult_eq s
  unfold programWord
  split
  · exact ⟨rfl, rfl⟩
  · split
    · exact ⟨rfl, rfl⟩
    · split
      · exact ⟨rfl, rfl⟩
      · split <;> next heq =>
          rw [heq] at e; simp only at e
          try split
          all_goals (constructor <;> simp <;> rw [e])

/-- The loop's requests. -/
theorem programWords_facts (address : Word) (data : List Byte) : ∀ (n i : Nat) (s : State),
    (programWords address data n i s).flashLocked = s.flashLocked ∧
    (programWords address data n i s).flashRequests = s.flashRequests ++
      (List.range n).map fun k =>
        .programWord (address + BitVec.ofNat 32 (i + 4 * k)) (dataWord data (i + 4 * k)) := by
  intro n
  induction n with
  | zero => intro i s; simp [programWords]
  | succ n ih =>
    intro i s
    simp only [programWords]
    obtain ⟨h1, h2⟩ := ih (i + Config.wordBytes)
      (flashProgramWord (address + BitVec.ofNat 32 i) (dataWord data i) s).2
    obtain ⟨g1, g2⟩ := programWord_facts (address + BitVec.ofNat 32 i) (dataWord data i)
      (request (.programWord (address + BitVec.ofNat 32 i) (dataWord data i)) s)
    refine ⟨by rw [h1]; exact g1, ?_⟩
    have g3 : (flashProgramWord (address + BitVec.ofNat 32 i) (dataWord data i) s).2.flashRequests =
      s.flashRequests ++ [.programWord (address + BitVec.ofNat 32 i) (dataWord data i)] := g2
    rw [h2, g3, List.range_succ_eq_map]
    simp only [List.map_cons, List.map_map, List.append_assoc, List.singleton_append, Nat.mul_zero, Nat.add_zero]
    congr 3
    funext k
    have e : i + Config.wordBytes + 4 * k = i + 4 * (k + 1) := by simp [Config.wordBytes]; omega
    simp [e]

/-- At a misaligned address no word is programmed (R278). -/
theorem programWords_misaligned {address : Word} (data : List Byte) (h : address.toNat % 4 ≠ 0) :
    ∀ (n i : Nat) (s : State), i % 4 = 0 → (programWords address data n i s).flash = s.flash := by
  intro n
  induction n with
  | zero => intro i s _; rfl
  | succ n ih =>
    intro i s hi
    simp only [programWords]
    rw [ih _ _ (by simp [Config.wordBytes]; omega)]
    have hm : (address + BitVec.ofNat 32 i).toNat % Config.wordBytes ≠ 0 := by
      rw [BitVec.toNat_add, BitVec.toNat_ofNat]; simp only [Config.wordBytes]; omega
    have e : ∀ t : State, (programWord (address + BitVec.ofNat 32 i) (dataWord data i) t).2 = t := fun t => by
      unfold programWord; simp only [ne_eq, hm, not_false_eq_true, if_true, ite_self]
    rw [flashProgramWord, e]; rfl

theorem wordErased_iff {s : State} {a : Nat} :
    wordErased s a = true ↔ ∀ k < 4, flashByte s (a + k) = Config.erasedByte := by
  simp only [wordErased, List.all_eq_true, Memory.readBytes, List.mem_map, List.mem_range, forall_exists_index,
    and_imp, beq_iff_eq]
  constructor
  · intro h k hk; exact h _ k hk rfl
  · rintro h _ k hk rfl; exact h k hk

/-- A program of an erased word that the controller completes (R79). -/
theorem programWord_ok {s : State} {a w : Word} {rest : List FlashResult} (hl : s.flashLocked = false)
    (ha : a.toNat % 4 = 0) (hs : wordInOneSector s.params a.toNat = true) (hr : s.flashResults = .ok :: rest)
    (he : ∀ k < 4, flashByte s (a.toNat + k) = Config.erasedByte) :
    programWord a w s = (.ok, { s with
      flashResults := rest, flash := s.flash.writeBytes Config.erasedByte a.toNat (bytes32 w) }) := by
  have e : nextResult s = (.ok, { s with flashResults := rest }) := by simp [nextResult, hr]
  have : wordErased { s with flashResults := rest } a.toNat = true := wordErased_iff.2 he
  unfold programWord
  rw [e]
  simp only [this]
  simp [hl, hs, Config.wordBytes, ha]

theorem getElem_bytes32 (w : Word) (k : Nat) (hk : k < 4) :
    (bytes32 w)[k]'(by simpa using hk) = w.extractLsb' (8 * k) 8 := by
  have hj : k = 0 ∨ k = 1 ∨ k = 2 ∨ k = 3 := by omega
  rcases hj with rfl | rfl | rfl | rfl <;> rfl

/-! ### VERIFY's reads -/

/-- How many bytes are read, and which byte is read at an address of the flash array (R16, R76). -/
theorem memReadBytes_spec (s : State) : ∀ (n k : Nat) (a : Word),
    (memReadBytes s n k a).1.length = n ∧
    ∀ i < n, inFlash s.params ((a.toNat + i) % 2 ^ 32) = true →
      (memReadBytes s n k a).1[i]? = some (flashByte s ((a.toNat + i) % 2 ^ 32)) := by
  intro n
  induction n with
  | zero => intro k a; simp [memReadBytes]
  | succ n ih =>
    intro k a
    obtain ⟨h1, h2⟩ := ih (memReadByte s k a).2 (a + 1)
    refine ⟨congrArg (· + 1) h1, ?_⟩
    intro i hi hf
    have ha := a.isLt
    cases i with
    | zero =>
      simp only [Nat.add_zero, Nat.mod_eq_of_lt ha] at hf ⊢
      simp [memReadBytes, memReadByte, hf]
    | succ i =>
      have e : (a + 1).toNat + i = (a.toNat + 1) % 2 ^ 32 + i := by simp
      have e2 : ((a + 1).toNat + i) % 2 ^ 32 = (a.toNat + (i + 1)) % 2 ^ 32 := by rw [e]; omega
      rw [← e2] at hf ⊢
      simp only [memReadBytes, List.getElem?_cons_succ]
      exact h2 i (by omega) hf

end Sys2Proof.Machine
end

