-- ==== Sys2Proof/Laws/Commands.lean ====
section
/-! SUPPORT. What a wire command can do, said once for all of them (R220, R228, R236, R264, R284). -/

namespace Sys2Proof.Machine

open Sys2Proof.Safety

/-- Flash requests that erase no sector of the protected range, and that begin with an unlock and end with a lock when they
erase or program (R264, R284). -/
def Bracketed (p : Config.Params) (new : List FlashRequest) : Prop :=
  (∀ j, .eraseSector j ∈ new → startsInProtected p j = false) ∧
  ((∃ j, .eraseSector j ∈ new) ∨ (∃ a w, .programWord a w ∈ new) →
    new.head? = some .unlock ∧ new.getLast? = some .lock)

/-- An address whose byte a command with this payload may change: it lies in the flash array, and outside the protected
range when the payload is one a frame can carry (R71, R105). -/
def Unprotected (p : Config.Params) (payload : List Byte) (a : Nat) : Prop :=
  inFlash p a = true ∧ (payload.length ≤ 4096 → inProtected a = false)

/-- A sector that an unprotected range selects starts above the protected range. -/
theorem first_above {r : Range} {sp : Nat × Nat} (h : r.intersectsProtected = false) (hb : 0x08000000 ≤ sp.1)
    (h1 : r.first ≤ sp.1) (h2 : sp.1 < r.limit) : 0x0800C000 ≤ sp.1 := by
  rw [← Bool.not_eq_true, intersectsProtected_iff] at h
  simp only [Range.first, Range.limit] at h1 h2
  omega

theorem eraseRange_only {p : List Byte} {r : Range} {s : State} (h : r.intersectsProtected = false) :
    FlashOnly (Unprotected s.params p) s (eraseRange r s) := by
  refine (flashUnlock_flashOnly _ s).trans (FlashOnly.trans ?_ (flashLock_flashOnly _ _))
  have := eraseWalk_flashOnly r (Unprotected s.params p) (spans s.params) [] (flashUnlock s) rfl
  refine this ?_
  intro sp hsp h1 h2 x h3 h4
  have := first_above h (flashBase_le_of_mem_spans hsp) h1 h2
  refine ⟨inFlash_iff.2 ⟨sp, hsp, h3, h4⟩, fun _ => ?_⟩
  rw [← Bool.not_eq_true, inProtected_iff]; omega

theorem eraseRange_bracketed {r : Range} {s : State} (h : r.intersectsProtected = false) :
    ∃ new, (eraseRange r s).flashRequests = s.flashRequests ++ new ∧ Bracketed s.params new := by
  obtain ⟨-, h2, -⟩ := eraseWalk_facts r (spans s.params) [] (flashUnlock s) rfl rfl
  rw [List.length_nil] at h2
  refine ⟨[.unlock] ++ (walked r (spans s.params) 0).map .eraseSector ++ [.lock], ?_, ?_, ?_⟩
  · simp only [eraseRange, flashLock_flashRequests, h2]; simp [flashUnlock, request]
  · intro j hj
    have hj : j ∈ walked r (spans s.params) ([] : List (Nat × Nat)).length := by simpa using hj
    obtain ⟨sp, h3, h4, h5⟩ := mem_walked hj
    rw [List.nil_append] at h3
    have := first_above h (flashBase_le_of_mem_spans (List.mem_of_getElem? h3)) h4 h5
    simp only [startsInProtected, h3]
    rw [← Bool.not_eq_true, inProtected_iff]; omega
  · intro _; exact ⟨by simp, List.getLast?_concat ..⟩

theorem writeRange_only {p data : List Byte} {r : Range} {s : State} (h : r.intersectsProtected = false)
    (hl : p.length = 8 + r.size.toNat) :
    FlashOnly (Unprotected s.params p) s (writeRange r data s) := by
  refine (flashUnlock_flashOnly _ s).trans (FlashOnly.trans ?_ (flashLock_flashOnly _ _))
  refine programWords_flashOnly r.address data _ _ 0 (flashUnlock s) ?_ rfl
  intro k hk ha hw x h1 h2
  obtain ⟨sp, hsp, h3, h4⟩ := wordInOneSector_iff.1 hw
  have hb := flashBase_le_of_mem_spans hsp
  refine ⟨inFlash_iff.2 ⟨sp, hsp, by omega, by omega⟩, fun hl' => ?_⟩
  rw [← Bool.not_eq_true, intersectsProtected_iff] at h
  rw [← Bool.not_eq_true, inProtected_iff]
  simp only [wordCount, Config.wordBytes] at hk
  have := r.address.isLt
  rw [BitVec.toNat_add, BitVec.toNat_ofNat] at *
  omega

theorem writeRange_bracketed {data : List Byte} {r : Range} {s : State} :
    ∃ new, (writeRange r data s).flashRequests = s.flashRequests ++ new ∧ Bracketed s.params new := by
  obtain ⟨-, h2⟩ := programWords_facts r.address data (wordCount r.size.toNat) 0 (flashUnlock s)
  refine ⟨[.unlock] ++ (List.range (wordCount r.size.toNat)).map (fun k =>
        .programWord (r.address + BitVec.ofNat 32 (0 + 4 * k)) (dataWord data (0 + 4 * k))) ++ [.lock], ?_, ?_, ?_⟩
  · simp only [writeRange, flashLock_flashRequests, h2]; simp [flashUnlock, request]
  · intro j hj; simp at hj
  · intro _; exact ⟨by simp, List.getLast?_concat ..⟩

/-- What a command leaves: flash requests by the rules, and then its response queued under its own opcode. -/
inductive CommandDone (op : Byte) (p : List Byte) (s : State) : State → Prop where
  /-- `w` is the state in which the response is queued, `q` the response's payload, and `new` the flash requests -/
  | intro {after : AfterTx} {q : List Byte} {w : State} {new : List FlashRequest}
      (flashOnly : FlashOnly (Unprotected s.params p) (beginDispatch after s) w)
      (next : after ≠ .none)
      (short : q.length = 1 ∨ q.length = 3)
      (requests : w.flashRequests = s.flashRequests ++ new)
      (bracketed : Bracketed s.params new)
      (locked : s.flashLocked = true ∨ (∃ j, .eraseSector j ∈ new) ∨ (∃ a d, .programWord a d ∈ new) →
        w.flashLocked = true) : CommandDone op p s (respond op q w)

theorem Bracketed.nil (p : Config.Params) : Bracketed p [] := ⟨by simp, by simp⟩

theorem CommandDone.plain {op : Byte} {p q : List Byte} {s : State} {after : AfterTx} (ha : after ≠ .none)
    (hq : q.length = 1 ∨ q.length = 3) : CommandDone op p s (respond op q (beginDispatch after s)) :=
  .intro (new := []) (.refl _ _) ha hq (by simp) (.nil _) (by simp)

theorem inquiryAnswer_length (c : Config.Params) (p : List Byte) :
    (inquiryAnswer c p).length = 1 ∨ (inquiryAnswer c p).length = 3 := by
  unfold inquiryAnswer
  repeat' split
  all_goals simp

/-- Every wire command goes on, in every state, and leaves what CommandDone says. -/
theorem command_done {i : Instr} {op : Byte} {p : List Byte} (s : State) (h : wireFields i = some (op, p)) :
    ∃ t, exec i s = .next t ∧ CommandDone op p s t := by
  cases i <;> simp only [wireFields, Option.some.injEq, Prod.mk.injEq, reduceCtorEq] at h <;> obtain ⟨rfl, rfl⟩ := h
  case cmdNone => exact ⟨_, rfl, .plain (by simp) (by simp)⟩
  case cmdInquiry => exact ⟨_, rfl, .plain (by simp) (inquiryAnswer_length _ _)⟩
  case cmdBoot => exact ⟨_, rfl, .plain (by simp) (by simp)⟩
  case cmdReset => exact ⟨_, rfl, .plain (by simp) (by simp)⟩
  case cmdRead => exact ⟨_, rfl, .plain (by simp) (by simp)⟩
  case cmdUnrecognized => exact ⟨_, rfl, .plain (by simp) (by simp)⟩
  case cmdErase =>
    simp only [exec, execCmdErase]
    split
    · exact ⟨_, rfl, .plain (by simp) (by simp)⟩
    · next r _ =>
      split
      · exact ⟨_, rfl, .plain (by simp) (by simp)⟩
      · next hp =>
        obtain ⟨new, h1, h2⟩ := eraseRange_bracketed (s := beginDispatch .decoderReset s) (by simpa using hp)
        exact ⟨_, rfl, .intro (after := .decoderReset)
          (eraseRange_only (s := beginDispatch .decoderReset s) (by simpa using hp)) (by simp) (by simp)
          h1 h2 fun _ => rfl⟩
  case cmdWrite =>
    simp only [exec, execCmdWrite]
    split
    · exact ⟨_, rfl, .plain (by simp) (by simp)⟩
    · next r data hop =>
      split
      · exact ⟨_, rfl, .plain (by simp) (by simp)⟩
      · next hp =>
        simp only [writeOperand, Option.ite_none_right_eq_some, Option.some.injEq, Prod.mk.injEq] at hop
        obtain ⟨⟨-, hl⟩, rfl, rfl⟩ := hop
        obtain ⟨new, h1, h2⟩ := writeRange_bracketed (r := rangeOf _) (data := List.drop 8 _)
          (s := beginDispatch .decoderReset s)
        exact ⟨_, rfl, .intro (after := .decoderReset)
          (writeRange_only (s := beginDispatch .decoderReset s) (by simpa using hp) hl) (by simp) (by simp)
          h1 h2 fun _ => rfl⟩
  case cmdVerify =>
    simp only [exec, execCmdVerify]
    split
    · exact ⟨_, rfl, .plain (by simp) (by simp)⟩
    · next r crc hop =>
      have hw : ∀ P, FlashOnly P (beginDispatch .decoderReset s)
          (memRead r (beginDispatch .decoderReset s)).2 :=
        fun _ => .of_flash_eq (by simp [memRead, request])
      have hb : Bracketed s.params [.read r.address r.size] := ⟨by simp, by simp⟩
      split
      · exact ⟨_, rfl, .intro (hw _) (by simp) (by simp) rfl hb (by simp [memRead, request])⟩
      · exact ⟨_, rfl, .intro (hw _) (by simp) (by simp) rfl hb (by simp [memRead, request])⟩
end Sys2Proof.Machine
end

