-- ==== Sys2Proof/Laws/Step.lean ====
section
/-! SUPPORT. What one step can do, said once: which operation it runs (R84, R318), and what each operation that is not
PRODUCER's put, a dispatch or a wire command leaves alone. -/

namespace Sys2Proof.Machine

/-- A step that goes on has valid parameters, and it is the next event's. -/
theorem step_next {s t : State} (h : step s = .next t) :
    configRefusal s.params = none ∧ runTurn (nextTurn s) (beginTurn s) = .next t := by
  simp only [step, takeStep] at h
  split at h
  · cases h
  · next h' => exact ⟨h', h⟩

/-- The operations that a step can run by itself: the port operations but decoder reset, which only happens inside another
rule (R182). -/
def stepOps (i : Instr) : Bool := (wireFields i).isNone && i != .decReset

/-- Every way in which a step goes on. -/
theorem step_cases {s t : State} (h : step s = .next t) :
    (t = beginTurn s) ∨ (∃ ms, t = { beginTurn s with nowMs := s.nowMs + ms }) ∨ t = blockReset (beginTurn s) ∨
    ∃ i, stepOps i = true ∧ (i = .fifoGet → s.engPhase = .idle) ∧ exec i (beginTurn s) = .next t := by
  obtain ⟨-, h⟩ := step_next h
  have hp : (beginTurn s).engPhase = s.engPhase := rfl
  cases ht : nextTurn s <;> simp only [ht, runTurn] at h
  case rx b => exact .inr (.inr (.inr ⟨_, rfl, by simp, h⟩))
  case txAccept => exact .inr (.inr (.inr ⟨_, rfl, by simp, h⟩))
  case elapse ms => injection h with h; exact .inr (.inl ⟨ms, h.symm⟩)
  case rst => injection h with h; exact .inr (.inr (.inl h.symm))
  case engine =>
    simp only [engineTurn, engineOp] at h
    split at h
    · next i hi =>
      split at hi
      · cases hi
      · cases hi
      · cases hi; exact .inr (.inr (.inr ⟨_, rfl, by simp, h⟩))
      · split at hi <;> cases hi <;> exact .inr (.inr (.inr ⟨_, rfl, by simp, h⟩))
    · injection h with h; exact .inl h.symm
  case port a op =>
    simp only [portTurn] at h
    split at h
    · cases h
    · next hr =>
      split at h
      · injection h with h; exact .inl h.symm
      · next hn =>
        refine .inr (.inr (.inr ⟨_, ?_, ?_, h⟩))
        · cases op <;> rfl
        · intro e
          cases a <;> cases op <;> simp_all [portInstr, portRefusal]

/-- What every operation but a put, a dispatch and a wire command leaves alone. -/
structure Kept (s t : State) : Prop where
  /-- R51 -/
  params : t.params = s.params
  /-- R154 -/
  fifoMem : t.fifoMem = s.fifoMem
  /-- R154 -/
  fifoWr : t.fifoWr = s.fifoWr
  /-- R77 -/
  flash : t.flash = s.flash
  /-- R357 -/
  locked : t.flashLocked = s.flashLocked
  /-- no flash request -/
  requests : t.flashRequests = s.flashRequests
  /-- no free value is drawn -/
  draws : t.draws = s.draws
  /-- no flash result is used -/
  results : t.flashResults = s.flashResults
  /-- the pending events -/
  inputs : t.inputs = s.inputs

theorem Kept.refl (s : State) : Kept s s := ⟨rfl, rfl, rfl, rfl, rfl, rfl, rfl, rfl, rfl⟩

theorem feed_kept {s t : State} {b : Byte} (h : feed b s = .next t) : Kept s t ∧ t.fifoRd = s.fifoRd := by
  unfold feed at h
  simp only [judgeLength, judgeCrc] at h
  repeat' split at h
  all_goals first
    | (injection h with h; subst h; exact ⟨⟨rfl, rfl, rfl, rfl, rfl, rfl, rfl, rfl, rfl⟩, rfl⟩)
    | cases h

theorem endOfTransmit_kept (s : State) : Kept s (endOfTransmit s) ∧ (endOfTransmit s).fifoRd = s.fifoRd := by
  unfold endOfTransmit; split <;> exact ⟨⟨rfl, rfl, rfl, rfl, rfl, rfl, rfl, rfl, rfl⟩, rfl⟩

theorem takeByte_kept (s : State) : Kept s (takeByte s) := ⟨rfl, rfl, rfl, rfl, rfl, rfl, rfl, rfl, rfl⟩

theorem handOver_kept (b : Byte) (s : State) : Kept s (handOver b s) := ⟨rfl, rfl, rfl, rfl, rfl, rfl, rfl, rfl, rfl⟩

theorem Kept.trans {s t u : State} (h : Kept s t) (h' : Kept t u) : Kept s u :=
  ⟨h'.1.trans h.1, h'.2.trans h.2, h'.3.trans h.3, h'.4.trans h.4, h'.5.trans h.5, h'.6.trans h.6, h'.7.trans h.7,
    h'.8.trans h.8, h'.9.trans h.9⟩

/-- The port operations but put and dispatch. -/
theorem port_kept {s t : State} {i : Instr} (h : wireFields i = none) (h1 : ∀ b, i ≠ .fifoPut b)
    (h2 : i ≠ .engDispatch) (he : exec i s = .next t) :
    Kept s t ∧ (i ≠ .fifoGet → i ≠ .decFeed → t.fifoRd = s.fifoRd) := by
  have same : ∀ {u : State}, u.fifoRd = s.fifoRd → i ≠ .fifoGet → i ≠ .decFeed → u.fifoRd = s.fifoRd :=
    fun e _ _ => e
  cases i <;> simp [wireFields] at h h1 h2
  case fifoGet =>
    simp only [exec, execFifoGet] at he
    injection he with he; subst he
    split <;> exact ⟨⟨rfl, rfl, rfl, rfl, rfl, rfl, rfl, rfl, rfl⟩, by simp⟩
  case fifoIsEmpty => injection he with he; subst he; exact ⟨⟨rfl, rfl, rfl, rfl, rfl, rfl, rfl, rfl, rfl⟩, same rfl⟩
  case fifoFull => injection he with he; subst he; exact ⟨⟨rfl, rfl, rfl, rfl, rfl, rfl, rfl, rfl, rfl⟩, same rfl⟩
  case decReset => injection he with he; subst he; exact ⟨⟨rfl, rfl, rfl, rfl, rfl, rfl, rfl, rfl, rfl⟩, same rfl⟩
  case decTimeout =>
    simp only [exec, execDecTimeout] at he
    split at he
    · split at he
      · injection he with he; subst he
        split <;> exact ⟨⟨rfl, rfl, rfl, rfl, rfl, rfl, rfl, rfl, rfl⟩, same rfl⟩
      · injection he with he; subst he; exact ⟨⟨rfl, rfl, rfl, rfl, rfl, rfl, rfl, rfl, rfl⟩, same rfl⟩
    · injection he with he; subst he; exact ⟨.refl _, same rfl⟩
  case decFeed =>
    simp only [exec, execDecFeed] at he
    split at he
    · exact ⟨(takeByte_kept s).trans (feed_kept he).1, by simp⟩
    · injection he with he; subst he; exact ⟨.refl _, by simp⟩
  case engTx =>
    simp only [exec, execEngTx] at he
    split at he
    · split at he
      · next b _ =>
        injection he with he; subst he
        split
        · have := endOfTransmit_kept (handOver b s)
          exact ⟨(handOver_kept b s).trans this.1, same this.2⟩
        · exact ⟨handOver_kept _ _, same rfl⟩
      · split at he
        · injection he with he; subst he
          have := endOfTransmit_kept s
          exact ⟨this.1, same this.2⟩
        · cases he
    · injection he with he; subst he; exact ⟨.refl _, same rfl⟩

/-- A dispatch runs the command that the held opcode selects (R221). -/
theorem dispatch_eq {s : State} (h : s.engPhase = .dispatch) (h1 : s.decLength.toNat ≤ 4096) :
    exec .engDispatch s = exec (selectCommand s.decOpcode (heldPayload s)) s := by
    simp only [exec, execEngDispatch, h, if_true, Config.maxPayload, Nat.not_lt.2 h1, if_false, runCommand]
    unfold selectCommand
    by_cases h0 : s.decOpcode = 0x00
    · simp [h0]
    · repeat' split
      all_goals first | rfl | simp_all

/-- What a dispatch that goes on does. -/
theorem dispatch_cases {s t : State} (h : exec .engDispatch s = .next t) :
    t = s ∨ (s.engPhase = .dispatch ∧ (heldPayload s).length ≤ 4096 ∧
      exec (selectCommand s.decOpcode (heldPayload s)) s = .next t) := by
  by_cases hp : s.engPhase = .dispatch
  · by_cases hl : s.decLength.toNat ≤ 4096
    · rw [dispatch_eq hp hl] at h; exact .inr ⟨hp, by simpa using hl, h⟩
    · have hl' : Config.maxPayload < s.decLength.toNat := Nat.not_le.1 hl
      simp only [exec, execEngDispatch, hp, if_true, if_pos hl'] at h
      cases h
  · simp only [exec, execEngDispatch, hp, if_false] at h; injection h with h; exact .inl h.symm

theorem dispatch_done {s t : State} (h : exec .engDispatch s = .next t) :
    t = s ∨ (s.engPhase = .dispatch ∧ ∃ p, p.length ≤ 4096 ∧ CommandDone s.decOpcode p s t) := by
  rcases dispatch_cases h with h | ⟨h1, h2, h3⟩
  · exact .inl h
  · obtain ⟨t', h4, h5⟩ := command_done s (wireFields_selectCommand s.decOpcode (heldPayload s))
    rw [h3] at h4; injection h4 with h4
    exact .inr ⟨h1, _, h2, h4 ▸ h5⟩

/-- Outside IDLE, where the event is neither ENGINE's dispatch, nor the sink's accept in TX, nor block reset: only
PRODUCER's put and the passing of time change anything (R170, R235). -/
theorem step_outside_idle {s t : State} (h : step s = .next t) (hi : s.engPhase ≠ .idle)
    (hd : nextTurn s = .engine → s.engPhase ≠ .dispatch) (hx : nextTurn s = .txAccept → s.engPhase ≠ .tx)
    (hr : nextTurn s ≠ .rst) :
    t = { s with
          fifoMem := t.fifoMem, fifoWr := t.fifoWr, putResult := t.putResult
          nowMs := t.nowMs, inputs := s.inputs.tail, frameDispatched := false } := by
  obtain ⟨-, h⟩ := step_next h
  have put : ∀ b, exec (.fifoPut b) (beginTurn s) = .next t → t = { s with
          fifoMem := t.fifoMem, fifoWr := t.fifoWr, putResult := t.putResult
          nowMs := t.nowMs, inputs := s.inputs.tail, frameDispatched := false } := by
    intro b h
    simp only [exec, execFifoPut] at h
    injection h with h; subst h
    split <;> rfl
  cases ht : nextTurn s <;> simp only [ht, runTurn] at h
  case rx b => exact put b h
  case txAccept =>
    have hp : (beginTurn s).engPhase ≠ .tx := hx ht
    simp only [exec, execEngTx, if_neg hp] at h
    injection h with h; subst h; rfl
  case elapse ms => injection h with h; subst h; rfl
  case rst => exact absurd ht hr
  case engine =>
    have hd := hd ht
    have ho : engineOp (beginTurn s) = none := by
      cases hp : s.engPhase <;> simp_all [engineOp, beginTurn]
    simp only [engineTurn, ho] at h
    injection h with h; subst h; rfl
  case port a op =>
    simp only [portTurn] at h
    split at h
    · cases h
    · next hn =>
      split at h
      · injection h with h; subst h; rfl
      · next hne =>
        have hp : (beginTurn s).engPhase ≠ .idle := hi
        cases a <;> cases op <;> first | exact put _ h | simp_all [portRefusal]

end Sys2Proof.Machine
end

