-- ==== Sys2Proof/Laws/Invariant.lean ====
section
/-! SUPPORT. The invariant under the operations that the meanings share, and the bytes that the FIFO holds under put and
get (R153, R154). -/

namespace Sys2Proof.Machine

open Sys2Proof.Safety

theorem two_le_slots {p : Config.Params} (h : configRefusal p = none) : 2 ≤ p.fifoSlots := by
  unfold configRefusal at h; split at h
  · cases h
  · omega

/-- The invariant says nothing of the environment's inputs, of the results of the ports and of the timestamps. -/
theorem inv_of_same {s t : State} (h : Inv s) (e : t = { s with
    lastActivity := t.lastActivity, frameDispatched := t.frameDispatched, putResult := t.putResult,
    getResult := t.getResult, isEmptyResult := t.isEmptyResult, fullResult := t.fullResult,
    feedResult := t.feedResult, nowMs := t.nowMs, inputs := t.inputs }) : Inv t := by
  rw [e]
  exact ⟨h.config, h.cursors, h.fifoForm, h.payloadForm, h.flashForm, h.locked, h.response, h.decoder, h.engine,
    h.requests⟩

theorem inv_begin {s : State} (h : Inv s) : Inv (beginTurn s) := inv_of_same h rfl

theorem inv_answerFalse {s : State} (h : Inv s) : Inv (answerFalse s) := inv_of_same h rfl

theorem inv_put {s : State} (h : Inv s) (b : Byte) : Inv (putSlot b s) := by
  have := two_le_slots h.config
  refine ⟨h.config, ⟨advance_lt (by omega), h.cursors.2⟩, ⟨Memory.wf_write h.fifoForm.1, fun c hc => ?_⟩,
    h.payloadForm, h.flashForm, h.locked, h.response, h.decoder, h.engine, h.requests⟩
  rcases Memory.mem_write hc with hc | hc
  · have := h.cursors.1; simp; omega
  · exact h.fifoForm.2 c hc

theorem inv_take {s : State} (h : Inv s) : Inv (takeSlot s) := by
  have := two_le_slots h.config
  exact ⟨h.config, ⟨h.cursors.1, advance_lt (by omega)⟩, h.fifoForm, h.payloadForm, h.flashForm, h.locked,
    h.response, h.decoder, h.engine, h.requests⟩

theorem inv_takeByte {s : State} (h : Inv s) : Inv (takeByte s) := inv_of_same (inv_take h) rfl

/-- A decoder error keeps the invariant. -/
theorem inv_error {s : State} (code : Byte) (h : Inv s) (hi : s.engPhase = .idle) : Inv (decoderError code s) := by
  refine ⟨h.config, h.cursors, h.fifoForm, h.payloadForm, h.flashForm, h.locked, ?_, ?_, ?_,
    fun _ => h.requests (by simp [hi])⟩
  · simp [decoderError, decoderReset, respond, length_frame, Config.frameOverhead]
  · simp [decoderError, decoderReset, DecoderOk]
  · simp [decoderError, decoderReset, EngineOk, respond, length_frame]

/-- In IDLE the decoder's registers may be anything within R184. -/
theorem inv_idle {s u : State} (h : Inv s) (hi : s.engPhase = .idle)
    (e : u = { s with
      decState := u.decState, decOpcode := u.decOpcode, decLength := u.decLength, decIdx := u.decIdx,
      decPayload := u.decPayload, decCrcRx := u.decCrcRx })
    (hp : u.decPayload.wf Config.slotFill ∧ ∀ c ∈ u.decPayload, c.1 < Config.maxPayload) (hd : DecoderOk u) : Inv u := by
  have he := h.engine
  simp only [EngineOk, hi] at he
  refine ⟨?_, ?_, ?_, hp, ?_, ?_, ?_, hd, ?_, fun _ => ?_⟩
  · rw [e]; exact h.config
  · rw [e]; exact h.cursors
  · rw [e]; exact h.fifoForm
  · rw [e]; exact h.flashForm
  · rw [e]; exact h.locked
  · rw [e]; exact h.response
  · rw [e]; simp only [EngineOk, hi]; exact he
  · rw [e]; exact h.requests (by simp [hi])

theorem inv_storePayload {s : State} (b : Byte)
    (h : s.decPayload.wf Config.slotFill ∧ ∀ c ∈ s.decPayload, c.1 < Config.maxPayload)
    (hi : s.decIdx.toNat < 4096) :
    (storePayload b s).decPayload.wf Config.slotFill ∧ ∀ c ∈ (storePayload b s).decPayload, c.1 < Config.maxPayload := by
  refine ⟨Memory.wf_write h.1, fun c hc => ?_⟩
  rcases Memory.mem_write hc with hc | hc
  · simp [Config.maxPayload]; omega
  · exact h.2 c hc

theorem inv_reset_idle {s : State} (h : Inv s) (hi : s.engPhase = .idle) : Inv (decoderReset s) := by
  have he := h.engine
  simp only [EngineOk, hi] at he
  exact ⟨h.config, h.cursors, h.fifoForm, h.payloadForm, h.flashForm, h.locked, h.response,
    rfl, by simp [EngineOk, decoderReset, hi, he], fun _ => h.requests (by simp [hi])⟩

/-! ### The bytes that the FIFO holds -/

theorem count_lt {s : State} (hN : 2 ≤ s.params.fifoSlots) : fifoCount s < s.params.fifoSlots := Nat.mod_lt _ (by omega)

/-- A put appends its byte. -/
theorem held_put {s : State} (h : Inv s) (b : Byte) (hf : fifoIsFull s = false) :
    fifoHeld (putSlot b s) = fifoHeld s ++ [b] := by
  have hN := two_le_slots h.config
  obtain ⟨hw, hr⟩ := h.cursors
  have hf' : (s.fifoWr + 1) % s.params.fifoSlots ≠ s.fifoRd := by
    rw [← Bool.not_eq_true, fifoIsFull_iff] at hf; exact hf
  have e : fifoCount (putSlot b s) = fifoCount s + 1 := (count_put hN hw hr hf').1
  have hc : fifoCount s + 1 < s.params.fifoSlots := by rw [← e]; exact count_lt (s := putSlot b s) hN
  have ew : (s.fifoRd + fifoCount s) % s.params.fifoSlots = s.fifoWr := by
    simp only [fifoCount]; rw [count_eq hw hr]
    split
    · rw [Nat.mod_eq_of_lt (by omega)]; omega
    · rw [show s.fifoRd + (s.fifoWr + s.params.fifoSlots - s.fifoRd) = s.fifoWr + s.params.fifoSlots by omega,
        Nat.add_mod_right, Nat.mod_eq_of_lt hw]
  have es : ∀ i, fifoSlot (putSlot b s) i = if i = s.fifoWr then b else fifoSlot s i :=
    fun i => Memory.read_write h.fifoForm.1
  unfold fifoHeld
  rw [e, List.range_succ, List.map_append]
  congr 1
  · apply List.map_congr_left
    intro k hk
    rw [List.mem_range] at hk
    show fifoSlot (putSlot b s) ((s.fifoRd + k) % s.params.fifoSlots) = _
    rw [es, if_neg]
    rw [← ew]
    have := Nat.mod_lt (s.fifoRd + k) (by omega : s.params.fifoSlots > 0)
    intro e'
    rcases Nat.lt_or_ge (s.fifoRd + k) s.params.fifoSlots with h1 | h1 <;>
      rcases Nat.lt_or_ge (s.fifoRd + fifoCount s) s.params.fifoSlots with h2 | h2
    · rw [Nat.mod_eq_of_lt h1, Nat.mod_eq_of_lt h2] at e'; omega
    · rw [Nat.mod_eq_of_lt h1, Nat.mod_eq_sub_mod h2, Nat.mod_eq_of_lt (by omega)] at e'; omega
    · rw [Nat.mod_eq_of_lt h2, Nat.mod_eq_sub_mod h1, Nat.mod_eq_of_lt (by omega)] at e'; omega
    · rw [Nat.mod_eq_sub_mod h2, Nat.mod_eq_sub_mod h1, Nat.mod_eq_of_lt (by omega),
        Nat.mod_eq_of_lt (by omega)] at e'; omega
  · simp only [List.map_cons, List.map_nil]
    show [fifoSlot (putSlot b s) ((s.fifoRd + fifoCount s) % s.params.fifoSlots)] = _
    rw [ew, es, if_pos rfl]

/-- A get takes the oldest byte. -/
theorem held_take {s : State} (h : Inv s) (hf : fifoEmpty s = false) :
    fifoHeld s = fifoSlot s s.fifoRd :: fifoHeld (takeSlot s) := by
  have hN := two_le_slots h.config
  obtain ⟨hw, hr⟩ := h.cursors
  have hf' : s.fifoWr ≠ s.fifoRd := by
    rw [← Bool.not_eq_true, fifoEmpty_iff] at hf; exact hf
  have e : fifoCount (takeSlot s) + 1 = fifoCount s := (count_get hN hw hr hf').1
  unfold fifoHeld
  rw [← e, List.range_succ_eq_map, List.map_cons, List.map_map]
  congr 1
  · simp [Nat.mod_eq_of_lt hr]
  · apply List.map_congr_left
    intro k _
    show fifoSlot s ((s.fifoRd + (k + 1)) % s.params.fifoSlots) =
      fifoSlot s (((s.fifoRd + 1) % s.params.fifoSlots + k) % s.params.fifoSlots)
    rw [Nat.mod_add_mod]; congr 2; omega

theorem held_congr {s t : State} (h1 : t.params = s.params) (h2 : t.fifoMem = s.fifoMem)
    (h3 : t.fifoWr = s.fifoWr) (h4 : t.fifoRd = s.fifoRd) : fifoHeld t = fifoHeld s := by
  simp only [fifoHeld, fifoCount, fifoSlot, h1, h2, h3, h4]

theorem held_empty {s : State} (h : Inv s) (hf : fifoEmpty s = true) : fifoHeld s = [] := by
  have hN := two_le_slots h.config
  have := fifoEmpty_iff.1 hf
  simp [fifoHeld, fifoCount, this]

theorem full_not_empty {s : State} (h : Inv s) (hf : fifoIsFull s = true) : fifoEmpty s = false := by
  have hN := two_le_slots h.config
  obtain ⟨hw, hr⟩ := h.cursors
  rw [fifoIsFull_iff, succ_mod hw] at hf
  rw [← Bool.not_eq_true, fifoEmpty_iff]
  split at hf <;> omega

end Sys2Proof.Machine
end

