-- ==== Sys2Proof/Laws/PerInstr.lean ====
section
/-! SUPPORT. The statements made for every operation of the block, one lemma per constructor: the shape of a command's
frame, and that a port operation has no bytes (R101, R102, R106). -/

namespace Sys2Proof.Laws.FrameShape

/-- A wire command's frame begins with the start marker and the command's opcode and is 8 bytes longer than its payload; a
port operation has no bytes. -/
def Statement (i : Instr) : Prop :=
  match wireFields i with
  | some (op, p) => ∀ c, ∃ bytes, encode c i = some bytes ∧ bytes.length = 8 + p.length ∧
      bytes[0]? = some 0xAA ∧ bytes[1]? = some op
  | none => ∀ c, encode c i = none

theorem of_wireFields {i : Instr} {op : Byte} {p : List Byte} (h : wireFields i = some (op, p)) : Statement i := by
  unfold Statement
  rw [h]
  intro c
  refine ⟨frame c op p, by simp [encode, h], length_frame c op p, ?_, ?_⟩ <;>
    simp [frame, frameBody, Config.startMarker]

theorem cmdNone (p : List Byte) : Statement (.cmdNone p) := of_wireFields rfl

theorem cmdInquiry (p : List Byte) : Statement (.cmdInquiry p) := of_wireFields rfl

theorem cmdBoot (p : List Byte) : Statement (.cmdBoot p) := of_wireFields rfl

theorem cmdReset (p : List Byte) : Statement (.cmdReset p) := of_wireFields rfl

theorem cmdErase (p : List Byte) : Statement (.cmdErase p) := of_wireFields rfl

theorem cmdRead (p : List Byte) : Statement (.cmdRead p) := of_wireFields rfl

theorem cmdWrite (p : List Byte) : Statement (.cmdWrite p) := of_wireFields rfl

theorem cmdVerify (p : List Byte) : Statement (.cmdVerify p) := of_wireFields rfl

theorem cmdUnrecognized (op : Byte) (p : List Byte) : Statement (.cmdUnrecognized op p) := of_wireFields rfl

theorem fifoPut (b : Byte) : Statement (.fifoPut b) := fun _ => rfl

theorem fifoGet : Statement .fifoGet := fun _ => rfl

theorem fifoIsEmpty : Statement .fifoIsEmpty := fun _ => rfl

theorem fifoFull : Statement .fifoFull := fun _ => rfl

theorem decFeed : Statement .decFeed := fun _ => rfl

theorem decReset : Statement .decReset := fun _ => rfl

theorem decTimeout : Statement .decTimeout := fun _ => rfl

theorem engDispatch : Statement .engDispatch := fun _ => rfl

theorem engTx : Statement .engTx := fun _ => rfl

end Sys2Proof.Laws.FrameShape
end

