-- ==== Sys2Proof/Tests/Slice0.lean ====
section
/-! SUPPORT. The model's own tests. Expected results are the spec's vectors (95_test_vectors.md, named in each comment) or
worked out by hand from the rule named. The second half shows, for each statement with hypotheses, a state and operands that
meet them. -/

namespace Sys2Proof.Tests

open Sys2Proof.Machine Sys2Proof.Safety

/-! ## Well-formedness: each check refuses an ill-formed term -/

theorem test_payload_over_4096_is_refused : (Instr.cmdRead (List.replicate 4097 0x00)).wf = false := by
  rw [← Bool.not_eq_true]
  intro h
  have := payloadFits_iff.1 h
  rw [List.length_replicate] at this
  omega

theorem test_payload_of_4096_is_accepted : (Instr.cmdRead (List.replicate 4096 0x00)).wf = true :=
  payloadFits_iff.2 List.length_replicate.le

theorem test_assigned_opcode_is_not_unrecognized : (Instr.cmdUnrecognized 0x10 []).wf = false := by decide

theorem test_NONE_is_not_unrecognized : (Instr.cmdUnrecognized 0x00 []).wf = false := by decide

theorem test_unassigned_opcode_is_accepted : (Instr.cmdUnrecognized 0x7E []).wf = true := by decide

/-! ## Decoding the spec's frames -/

/-- CRC1, and a frame of every command: X3, X8 with a byte after it, X9, X6, X5, X7, E5, W2 and V3. -/
theorem test_decode_vectors :
    crc32 Config.crcIsoHdlc [0x31, 0x32, 0x33, 0x34, 0x35, 0x36, 0x37, 0x38, 0x39] = 0xCBF43926 ∧
    decode Config.crcIsoHdlc [0xAA, 0x10, 0x01, 0x00, 0x02, 0xAE, 0x2C, 0x60, 0x43] =
      .instr (.cmdInquiry [0x02]) [] ∧
    decode Config.crcIsoHdlc [0xAA, 0x11, 0x00, 0x00, 0x3A, 0xEF, 0x76, 0x1E, 0x55] = .instr (.cmdBoot []) [0x55] ∧
    decode Config.crcIsoHdlc [0xAA, 0x1F, 0x00, 0x00, 0x30, 0xC2, 0xE8, 0x14] = .instr (.cmdReset []) [] ∧
    decode Config.crcIsoHdlc [0xAA, 0x00, 0x00, 0x00, 0x7D, 0x26, 0x92, 0x03] = .instr (.cmdNone []) [] ∧
    decode Config.crcIsoHdlc [0xAA, 0x21, 0x00, 0x00, 0xAA, 0x0A, 0x1D, 0x3A] = .instr (.cmdRead []) [] ∧
    decode Config.crcIsoHdlc [0xAA, 0x7E, 0x00, 0x00, 0x27, 0x63, 0xFD, 0x5D] =
      .instr (.cmdUnrecognized 0x7E []) [] ∧
    decode Config.crcIsoHdlc
        [0xAA, 0x20, 0x08, 0x00, 0x00, 0x00, 0x01, 0x08, 0x00, 0x00, 0x02, 0x00, 0xD3, 0xAF, 0x45, 0xB5] =
      .instr (.cmdErase [0x00, 0x00, 0x01, 0x08, 0x00, 0x00, 0x02, 0x00]) [] ∧
    decode Config.crcIsoHdlc
        [0xAA, 0x22, 0x0D, 0x00, 0x10, 0x00, 0x01, 0x08, 0x05, 0x00, 0x00, 0x00, 0xA0, 0xA1, 0xA2, 0xA3, 0xA4,
          0x66, 0x67, 0x29, 0x24] =
      .instr (.cmdWrite [0x10, 0x00, 0x01, 0x08, 0x05, 0x00, 0x00, 0x00, 0xA0, 0xA1, 0xA2, 0xA3, 0xA4]) [] ∧
    decode Config.crcIsoHdlc
        [0xAA, 0x23, 0x0C, 0x00, 0x00, 0x00, 0x01, 0x08, 0x00, 0x00, 0x00, 0x00, 0x00, 0x00, 0x00, 0x00, 0x1C,
          0x6B, 0x9D, 0xB4] =
      .instr (.cmdVerify [0x00, 0x00, 0x01, 0x08, 0x00, 0x00, 0x00, 0x00, 0x00, 0x00, 0x00, 0x00]) [] := by
  decide +kernel

/-- L1-2 (a changed payload byte), FD8 (length 4097), another start byte, and a frame cut short. -/
theorem test_decode_rejections :
    decode Config.crcIsoHdlc [0xAA, 0x10, 0x01, 0x00, 0x01, 0x82, 0x4D, 0x6E, 0xAD] = .reject .crcMismatch ∧
    decode Config.crcIsoHdlc [0xAA, 0x21, 0x01, 0x10] = .reject .oversize ∧
    decode Config.crcIsoHdlc [0xAB, 0x21, 0x00, 0x00] = .reject .noStartMarker ∧
    decode Config.crcIsoHdlc [0xAA, 0x21, 0x00, 0x00, 0xAA, 0x0A, 0x1D] = .reject .truncated := by
  decide +kernel

/-- W4's frame from its fields, and two table words. -/
theorem test_encode_and_table_words :
    encode Config.crcIsoHdlc (.cmdWrite [0x00, 0x00, 0x01, 0x08, 0x08, 0x00, 0x00, 0x00, 0x11, 0x11, 0x11, 0x11]) =
      some [0xAA, 0x22, 0x0C, 0x00, 0x00, 0x00, 0x01, 0x08, 0x08, 0x00, 0x00, 0x00, 0x11, 0x11, 0x11, 0x11, 0x1E,
        0x51, 0xAB, 0x12] ∧
    decodeTableWord 8 0x21 = some (.cmdRead []) ∧ decodeTableWord 16 0x0110 = some (.cmdInquiry [0x01]) := by
  decide +kernel

/-! ## One operation, one step -/

/-- What an outcome leaves, seen through `f`. -/
def after {α : Type} (f : State → α) : Host.Outcome State Fault Refusal → Option α
  | .next s => some (f s)
  | .fault _ => none
  | .refused _ => none

/-- A FIFO of `n` slots with these cursors and slots, and everything else as after reset. -/
def fifo (n wr rd : Nat) (mem : Memory) : State :=
  { State.reset with
    params := { Config.defaultParams with fifoSlots := n }, fifoMem := mem, fifoWr := wr, fifoRd := rd }

/-- F3 -/
theorem test_put : after (fun s => (s.putResult, s.fifoWr, s.fifoRd, fifoSlot s 0)) (exec (.fifoPut 0x41) (fifo 4 0 0 [])) =
    some (some true, 1, 0, 0x41) := by decide

/-- F7 -/
theorem test_put_on_full : after (fun s => (s.putResult, s.fifoWr, s.fifoRd, s.fifoMem))
    (exec (.fifoPut 0x04) (fifo 4 0 1 [(1, 0x01), (2, 0x02), (3, 0x03)])) =
    some (some false, 0, 1, [(1, 0x01), (2, 0x02), (3, 0x03)]) := by decide

/-- R146's example -/
theorem test_get_wraps : after (fun s => (s.getResult, s.fifoRd)) (exec .fifoGet (fifo 4 0 3 [(3, 0xAA)])) =
    some (some (some 0xAA), 0) := by decide

/-- F2 -/
theorem test_get_on_empty : after (fun s => (s.getResult, s.fifoRd)) (exec .fifoGet (fifo 4 0 0 [])) =
    some (some none, 0) := by decide

/-- F1 -/
theorem test_is_empty : after (·.isEmptyResult) (exec .fifoIsEmpty (fifo 4 0 0 [])) = some (some true) := by decide

/-- F6 -/
theorem test_full : after (·.fullResult) (exec .fifoFull (fifo 4 0 1 [])) = some (some true) := by decide

/-- F9: a FIFO of two slots is full with one byte -/
theorem test_full_of_two_slots : after (·.fullResult) (exec .fifoFull (fifo 2 1 0 [])) = some (some true) := by decide

/-- A decoder in a field, in IDLE, with one byte waiting. -/
def decoding (d : DecState) (op : Byte) (length : Half) (idx : BitVec 13) (b : Byte) : State :=
  { fifo 4 1 0 (if b = 0 then [] else [(0, b)]) with
    decState := d, decOpcode := op, decLength := length, decIdx := idx }

/-- FD2 -/
theorem test_feed_start : after (fun s => (s.decState, s.fifoRd)) (exec .decFeed (decoding .awaitingStart 0 0 0 0xAA)) =
    some (.awaitingOpcode, 1) := by decide

/-- FD7: length 4096 is accepted -/
theorem test_feed_length_4096 :
    after (fun s => (s.decState, s.decLength, s.decIdx)) (exec .decFeed (decoding .awaitingLength 0x21 0x0000 1 0x10)) =
    some (.awaitingPayload, 4096, 0) := by decide

/-- The arms that answer or accept: FD8 (length 4097), FD11 (a wrong last CRC byte), FD10 (the right one) and FD15
(`dec_state` is 6). -/
theorem test_feed_responses :
    after (fun s => (s.txBuf, s.decState, s.engPhase, s.engAfterTx))
        (exec .decFeed (decoding .awaitingLength 0x21 0x0001 1 0x10)) =
      some ([0xAA, 0x21, 0x01, 0x00, 0x02, 0x6A, 0xB3, 0xF7, 0x0B], .awaitingStart, .tx, .none) ∧
    after (fun s => (s.feedResult, s.decState, s.frameReady, s.txBuf[4]?))
        (exec .decFeed { decoding .awaitingCrc 0x11 0 3 0x1F with decCrcRx := 0x0076EF3A }) =
      some (some false, .awaitingStart, false, some 0x05) ∧
    after (fun s => (s.feedResult, s.decState, s.frameReady, s.engPhase))
        (exec .decFeed { decoding .awaitingCrc 0x11 0 3 0x1E with decCrcRx := 0x0076EF3A }) =
      some (some true, .awaitingCrc, true, .dispatch) ∧
    after (fun s => (s.decState, s.txBuf[1]?, s.txBuf[4]?)) (exec .decFeed (decoding (.corrupt 1) 0x10 0 0 0x00)) =
      some (.awaitingStart, some 0x10, some 0x01) := by decide +kernel

/-- R182 -/
theorem test_decoder_reset :
    after (fun s => (s.decState, s.decIdx, s.decOpcode, s.decLength, s.fifoWr))
      (exec .decReset (decoding .awaitingPayload 0x22 7 3 0x55)) = some (.awaitingStart, 0, 0x22, 7, 1) := by decide

/-- A partial frame and an empty FIFO. -/
def waiting (last now : Word) : State :=
  { State.reset with decState := .awaitingLength, decOpcode := 0x10, lastActivity := last, nowMs := now }

/-- FD16 and FD17 -/
theorem test_timeout_is_strict :
    after (·.decState) (exec .decTimeout (waiting 1000 1500)) = some .awaitingLength ∧
    after (·.decState) (exec .decTimeout (waiting 1000 1501)) = some .awaitingStart := by decide

/-- R186 across the wrap of `now_ms`: 0xF4 - 0xFFFFFF00 is 500 modulo 2^32 and 0xF5 - 0xFFFFFF00 is 501. Vector FD18 says
245 for the second (log entry 17). -/
theorem test_timeout_wraps :
    after (·.decState) (exec .decTimeout (waiting 0xFFFFFF00 0x000000F4)) = some .awaitingLength ∧
    after (·.decState) (exec .decTimeout (waiting 0xFFFFFF00 0x000000F5)) = some .awaitingStart := by decide

/-- A frame that the decoder holds, about to be dispatched. -/
def held (op : Byte) (p : List Byte) : State := holdFrame op p State.reset

/-- What a dispatch answers, and the flash requests it makes. -/
def answer (s : State) : Option (List Byte × List FlashRequest) := after (fun t => (t.txBuf, t.flashRequests)) (step s)

/-- X1, X2, X5, X6 and X7, and READ placed by `withFetchWord`. -/
theorem test_dispatch_answers :
    answer (held 0x10 [0x00]) = some ([0xAA, 0x10, 0x03, 0x00, 0x00, 0x01, 0x00, 0x54, 0x1A, 0xDA, 0x23], []) ∧
    answer (held 0x10 [0x01]) = some ([0xAA, 0x10, 0x03, 0x00, 0x00, 0x00, 0x10, 0x71, 0x3B, 0x76, 0x27], []) ∧
    answer (held 0x21 []) = some ([0xAA, 0x21, 0x01, 0x00, 0x00, 0x46, 0xD2, 0xF9, 0xE5], []) ∧
    answer (held 0x00 []) = some ([0xAA, 0x00, 0x01, 0x00, 0xFF, 0x90, 0xF5, 0x75, 0xD0], []) ∧
    answer (held 0x7E []) = some ([0xAA, 0x7E, 0x01, 0x00, 0xFF, 0x3F, 0x22, 0x95, 0x5B], []) ∧
    answer (State.reset.withFetchWord 8 0x21) =
      some ([0xAA, 0x21, 0x01, 0x00, 0x00, 0x46, 0xD2, 0xF9, 0xE5], []) := by decide +kernel

/-- X8 and X9: the ack comes first. -/
theorem test_boot_and_reset :
    after (fun s => (s.txBuf, s.bootRequest, s.engAfterTx, s.frameDispatched)) (step (held 0x11 [])) =
      some ([0xAA, 0x11, 0x01, 0x00, 0x00, 0xE7, 0x2A, 0xD2, 0x15], false, .boot, true) ∧
    after (fun s => (s.txBuf, s.resetRequest, s.engAfterTx, s.frameDispatched)) (step (held 0x1F [])) =
      some ([0xAA, 0x1F, 0x01, 0x00, 0x00, 0xD4, 0x5D, 0x0D, 0xF5], false, .reset, true) := by decide +kernel

/-- E2 (the last protected byte), and E6 (a sector that the range enters part-way is not erased). -/
theorem test_erase :
    answer (held 0x20 [0xFF, 0xBF, 0x00, 0x08, 0x02, 0x00, 0x00, 0x00]) =
      some ([0xAA, 0x20, 0x01, 0x00, 0xFF, 0xAE, 0x5A, 0x47, 0x70], []) ∧
    after (·.flashRequests) (step { held 0x20 [0x04, 0x00, 0x01, 0x08, 0x00, 0x00, 0x01, 0x00] with
      flashResults := [.ok] }) = some [.unlock, .eraseSector 5, .lock] := by decide +kernel

/-- W2, onto erased flash with ports that succeed, and W6 (a misaligned address). -/
theorem test_write :
    after (fun s => (s.flashRequests, s.txBuf, flashByte s 0x08010010, flashByte s 0x08010014, flashByte s 0x08010015))
      (step { held 0x22 [0x10, 0x00, 0x01, 0x08, 0x05, 0x00, 0x00, 0x00, 0xA0, 0xA1, 0xA2, 0xA3, 0xA4] with
        flashResults := [.ok, .ok] }) =
      some ([.unlock, .programWord 0x08010010 0xA3A2A1A0, .programWord 0x08010014 0xFFFFFFA4, .lock],
        [0xAA, 0x22, 0x01, 0x00, 0x00, 0xA8, 0x7D, 0x4C, 0xF7], 0xA0, 0xA4, 0xFF) ∧
    after (fun s => (s.flash, s.txBuf[4]?))
      (step (held 0x22 [0x02, 0x00, 0x01, 0x08, 0x04, 0x00, 0x00, 0x00, 0x01, 0x02, 0x03, 0x04])) =
      some ([], some 0x00) := by decide +kernel

/-- The flash of V1 and V2: 00 .. 0F at 0x08010000. -/
def verifying (p : List Byte) : State :=
  { held 0x23 p with
    flash := [(0x08010000, 0x00), (0x08010001, 0x01), (0x08010002, 0x02), (0x08010003, 0x03), (0x08010004, 0x04),
      (0x08010005, 0x05), (0x08010006, 0x06), (0x08010007, 0x07), (0x08010008, 0x08), (0x08010009, 0x09),
      (0x0801000A, 0x0A), (0x0801000B, 0x0B), (0x0801000C, 0x0C), (0x0801000D, 0x0D), (0x0801000E, 0x0E),
      (0x0801000F, 0x0F)] }

/-- V1 and V2 -/
theorem test_verify :
    after (·.txBuf) (step (verifying [0x00, 0x00, 0x01, 0x08, 0x10, 0x00, 0x00, 0x00, 0x88, 0xE2, 0xCE, 0xCE])) =
      some [0xAA, 0x23, 0x01, 0x00, 0x00, 0xCD, 0x1A, 0xF0, 0x4F] ∧
    after (·.txBuf) (step (verifying [0x00, 0x00, 0x01, 0x08, 0x10, 0x00, 0x00, 0x00, 0x89, 0xE2, 0xCE, 0xCE])) =
      some [0xAA, 0x23, 0x01, 0x00, 0x05, 0x42, 0xEE, 0x9A, 0x3F] := by decide +kernel

/-- A response being sent, with its last bytes to go. -/
def sending (next : AfterTx) (txIdx : Nat) : State :=
  { State.reset with
    engPhase := .tx, engAfterTx := next, txBuf := [0x01, 0x02], txIdx := txIdx, frameReady := next != .none
    decState := if next = .none then .awaitingStart else .awaitingCrc, nowMs := 7 }

/-- R232: BOOT's last ack byte; P3 for `frame_ready`, and R185 (c) for `last_activity` -/
theorem test_tx_boot : after (fun s => (s.txOut, s.bootRequest, s.engPhase, s.frameReady, s.lastActivity))
    (exec .engTx (sending .boot 1)) = some ([0x02], true, .halted, true, 7) := by decide

/-- R231: the last byte of another command's response -/
theorem test_tx_decoder_reset :
    after (fun s => (s.txOut, s.engPhase, s.decState, s.lastActivity, s.engAfterTx))
      (exec .engTx (sending .decoderReset 1)) = some ([0x02], .idle, .awaitingStart, 7, .none) := by decide

/-- R220: ENG.DISPATCH runs the held opcode's command -/
theorem test_dispatch : after (fun s => (s.engPhase, s.txIdx, s.engAfterTx)) (exec .engDispatch (held 0x21 [])) =
    some (.tx, 0, .decoderReset) := rfl

/-! ## The hypotheses of the statements are met -/

/-- A proof of the invariant for a concrete state in IDLE or elsewhere, from its parts. -/
theorem inv_fifo {n wr rd : Nat} {mem : Memory} (hn : 2 ≤ n) (hw : wr < n) (hr : rd < n)
    (hm : mem.wf Config.slotFill ∧ ∀ c ∈ mem, c.1 < n) : Inv (fifo n wr rd mem) where
  config := by
    have : ¬ n < 2 := by omega
    simp [configRefusal, fifo, this]; decide
  cursors := ⟨hw, hr⟩
  fifoForm := hm
  payloadForm := ⟨⟨.nil, by simp [fifo, State.reset]⟩, by simp [fifo, State.reset]⟩
  flashForm := ⟨⟨.nil, by simp [fifo, State.reset]⟩, by simp [fifo, State.reset]⟩
  locked := rfl
  response := Nat.zero_le _
  decoder := rfl
  engine := ⟨rfl, rfl⟩
  requests := fun _ => ⟨rfl, rfl⟩

theorem witness_EncodedCommandDecodesToItself : ∃ (c : Config.CrcSpec) (i : Instr) (bytes : List Byte),
    i.wf = true ∧ encode c i = some bytes ∧ bytes.length = 12 :=
  ⟨Config.crcIsoHdlc, .cmdUnrecognized 0xFF [0xAA, 0xAA, 0xAA, 0xAA], _, by decide, rfl, length_frame _ _ _⟩

/-- X8's frame and a byte after it. -/
theorem witness_DecodedBytesAreTheCommandsFrame :
    decode Config.crcIsoHdlc [0xAA, 0x11, 0x00, 0x00, 0x3A, 0xEF, 0x76, 0x1E, 0x55] = .instr (.cmdBoot []) [0x55] :=
  test_decode_vectors.2.2.1

theorem witness_FrameFieldsStandAtTheirOffsets : (List.replicate 4096 (0xAA : Byte)).length ≤ 4096 :=
  List.length_replicate.le

theorem witness_OpcodeAloneSelectsTheCommand :
    (0x01 : Byte) ∉ ([0x00, 0x10, 0x11, 0x1F, 0x20, 0x21, 0x22, 0x23] : List Byte) ∧
    (0xFF : Byte) ∉ ([0x00, 0x10, 0x11, 0x1F, 0x20, 0x21, 0x22, 0x23] : List Byte) := by decide

/-- A full FIFO, and one at the last slot, where the cursor wraps. -/
theorem witness_PutStoresTheByteAtTheWriteCursor : ∃ s u : State,
    (2 ≤ s.params.fifoSlots ∧ s.fifoWr < s.params.fifoSlots ∧ s.fifoRd < s.params.fifoSlots ∧
      s.fifoMem.wf Config.slotFill ∧ (s.fifoWr + 1) % s.params.fifoSlots ≠ s.fifoRd ∧
      s.fifoWr + 1 = s.params.fifoSlots) ∧
    (2 ≤ u.params.fifoSlots ∧ u.fifoWr < u.params.fifoSlots ∧ u.fifoRd < u.params.fifoSlots ∧
      u.fifoMem.wf Config.slotFill ∧ (u.fifoWr + 1) % u.params.fifoSlots = u.fifoRd) :=
  ⟨fifo 4 3 1 [(1, 0x01), (2, 0x02)], fifo 2 1 0 [(0, 0xAA)], by decide, by decide⟩

theorem witness_PutOnFullFifoDropsTheByte : (fifo 4 3 0 []).fifoRd =
    ((fifo 4 3 0 []).fifoWr + 1) % (fifo 4 3 0 []).params.fifoSlots := by decide

theorem witness_GetTakesTheByteAtTheReadCursor : ∃ s u : State,
    (2 ≤ s.params.fifoSlots ∧ s.fifoWr < s.params.fifoSlots ∧ s.fifoRd < s.params.fifoSlots ∧
      s.fifoWr ≠ s.fifoRd) ∧
    (2 ≤ u.params.fifoSlots ∧ u.fifoWr < u.params.fifoSlots ∧ u.fifoRd < u.params.fifoSlots ∧
      u.fifoWr = u.fifoRd) :=
  ⟨fifo 4 0 3 [(3, 0xAA)], fifo 2 1 1 [], by decide, by decide⟩

theorem witness_GetOnEmptyFifoReturnsNothing : (fifo 4 2 2 []).fifoWr = (fifo 4 2 2 []).fifoRd := rfl

/-- A run with one put in it. -/
theorem witness_FifoDeliversAcceptedBytesInOrder : ∃ (s t : State) (accepted taken : List Byte),
    Inv s ∧ fifoHeld s = [] ∧ FifoRun s accepted taken t ∧ accepted = [0x41] :=
  ⟨{ fifo 4 3 3 [] with inputs := [.rx 0x41] }, _, _, _,
    inv_of_same (inv_fifo (by omega) (by omega) (by omega) (by decide) : Inv (fifo 4 3 3 [])) rfl, by decide,
    .step (.refl _) (by decide) rfl, rfl⟩

theorem witness_SimultaneousPutAndGetHaveOneResult : ∃ full empty between : State,
    Inv full ∧ fifoIsFull full = true ∧ Inv empty ∧ fifoEmpty empty = true ∧
    Inv between ∧ fifoIsFull between = false ∧ fifoEmpty between = false :=
  ⟨fifo 2 1 0 [(0, 0xAA)], fifo 2 1 1 [], fifo 4 0 2 [(2, 0x01), (3, 0x02)],
    inv_fifo (by omega) (by omega) (by omega) (by decide), by decide,
    inv_fifo (by omega) (by omega) (by omega) (by decide), by decide,
    inv_fifo (by omega) (by omega) (by omega) (by decide), by decide, by decide⟩

/-- F12's start. -/
theorem witness_DeliveryStoresWhatFits : Inv (fifo 4 3 3 []) :=
  inv_fifo (by omega) (by omega) (by omega) (by decide)

theorem witness_PutCommutesWithDispatch : ∃ s t : State, s.engPhase = .dispatch ∧ exec .engDispatch s = .next t :=
  ⟨held 0x21 [], _, rfl, rfl⟩

theorem witness_StartByteIsJudged : ∃ s u : State,
    (s.engPhase = .idle ∧ s.fifoWr ≠ s.fifoRd ∧ s.decState = .awaitingStart ∧ fifoSlot s s.fifoRd = 0xAA) ∧
    (u.engPhase = .idle ∧ u.fifoWr ≠ u.fifoRd ∧ u.decState = .awaitingStart ∧ fifoSlot u u.fifoRd ≠ 0xAA) :=
  ⟨decoding .awaitingStart 0 0 0 0xAA, decoding .awaitingStart 0 0 0 0xAB, by decide, by decide⟩

theorem witness_OpcodeByteIsStored : ∃ s : State,
    s.engPhase = .idle ∧ s.fifoWr ≠ s.fifoRd ∧ s.decState = .awaitingOpcode :=
  ⟨decoding .awaitingOpcode 0 0 0 0xAA, by decide⟩

theorem witness_FirstLengthByteIsTheLowByte : ∃ s : State,
    s.engPhase = .idle ∧ s.fifoWr ≠ s.fifoRd ∧ s.decState = .awaitingLength ∧ s.decIdx = 0 :=
  ⟨decoding .awaitingLength 0x20 0 0 0x08, by decide⟩

/-- Lengths 4097, 0 and 4096. -/
theorem witness_SecondLengthByteIsJudged : ∀ x ∈ [((4097 : Half), (0x10 : Byte)), (0, 0x00), (4096, 0x10)],
    ∃ s : State, s.engPhase = .idle ∧ s.fifoWr ≠ s.fifoRd ∧ s.decState = .awaitingLength ∧ s.decIdx = 1 ∧
      x.1.toNat = s.decLength.toNat % 256 + 256 * (fifoSlot s s.fifoRd).toNat := by
  intro x hx
  simp only [List.mem_cons, List.not_mem_nil, or_false] at hx
  rcases hx with rfl | rfl | rfl
  · exact ⟨decoding .awaitingLength 0x21 1 1 0x10, by decide⟩
  · exact ⟨decoding .awaitingLength 0x21 0 1 0x00, by decide⟩
  · exact ⟨decoding .awaitingLength 0x21 0 1 0x10, by decide⟩

/-- The first of two bytes, and the last byte of the longest payload. -/
theorem witness_PayloadByteIsStoredAtItsIndex : ∃ s u : State,
    (s.engPhase = .idle ∧ s.fifoWr ≠ s.fifoRd ∧ s.decState = .awaitingPayload ∧ s.decLength.toNat ≤ 4096 ∧
      s.decIdx.toNat < s.decLength.toNat ∧ s.decPayload.wf Config.slotFill ∧
      s.decIdx.toNat + 1 < s.decLength.toNat) ∧
    (u.engPhase = .idle ∧ u.fifoWr ≠ u.fifoRd ∧ u.decState = .awaitingPayload ∧ u.decLength.toNat ≤ 4096 ∧
      u.decIdx.toNat < u.decLength.toNat ∧ u.decPayload.wf Config.slotFill ∧
      u.decIdx.toNat + 1 = u.decLength.toNat) :=
  ⟨decoding .awaitingPayload 0x22 2 0 0x55, decoding .awaitingPayload 0x22 4096 4095 0x55, by decide, by decide⟩

theorem witness_CrcByteIsPlacedAtItsBits : ∃ s : State,
    s.engPhase = .idle ∧ s.fifoWr ≠ s.fifoRd ∧ s.decState = .awaitingCrc ∧ s.decIdx.toNat < 3 :=
  ⟨decoding .awaitingCrc 0x11 0 2 0x76, by decide⟩

/-- FD10 and FD11. -/
theorem witness_FourthCrcByteDecidesTheFrame : ∀ x ∈ [((0x1E76EF3A : Word), (0x1E : Byte)), (0x1F76EF3A, 0x1F)],
    ∃ s : State, s.engPhase = .idle ∧ s.fifoWr ≠ s.fifoRd ∧ s.decState = .awaitingCrc ∧ s.decIdx = 3 ∧
      s.decLength.toNat ≤ 4096 ∧
      x.1.toNat = s.decCrcRx.toNat % 2 ^ 24 + 2 ^ 24 * (fifoSlot s s.fifoRd).toNat := by
  intro x hx
  simp only [List.mem_cons, List.not_mem_nil, or_false] at hx
  rcases hx with rfl | rfl
  · exact ⟨{ decoding .awaitingCrc 0x11 0 3 0x1E with decCrcRx := 0x0076EF3A }, by decide⟩
  · exact ⟨{ decoding .awaitingCrc 0x11 0 3 0x1F with decCrcRx := 0x0076EF3A }, by decide⟩

theorem witness_CorruptDecoderStateAnswersErrOpcode : ∀ k : Fin 3, ∃ s : State,
    s.engPhase = .idle ∧ s.fifoWr ≠ s.fifoRd ∧ s.decState = .corrupt k :=
  fun k => ⟨decoding (.corrupt k) 0x10 0 0 0x00, rfl, show (1 : Nat) ≠ 0 by decide, rfl⟩

/-- A feed that answers true (FD10) and one that answers false (FD1). -/
theorem witness_FeedIsTrueOnlyOnAnAcceptedFrame : ∃ s t u v : State,
    (s.engPhase = .idle ∧ s.fifoWr ≠ s.fifoRd ∧ exec .decFeed s = .next t ∧ t.feedResult = some true) ∧
    (u.engPhase = .idle ∧ u.fifoWr ≠ u.fifoRd ∧ exec .decFeed u = .next v ∧ v.feedResult ≠ some true) := by
  have h := test_feed_responses.2.2.1
  rcases e : exec .decFeed { decoding .awaitingCrc 0x11 0 3 0x1E with decCrcRx := 0x0076EF3A } with t | f | r <;>
    rw [e] at h <;> simp [after] at h
  exact ⟨_, t, decoding .awaitingStart 0 0 0 0x55, _, ⟨rfl, by decide, e, h.1⟩, rfl, by decide, rfl, by decide⟩

theorem witness_EngineOperationsWaitForTheirPhase :
    (sending .boot 0).engPhase ≠ .idle ∧ (sending .boot 0).engPhase ≠ .dispatch ∧ State.reset.engPhase ≠ .tx := by
  decide

theorem witness_StaleFrameIsDroppedAfterTheTimeout : ∃ s u : State,
    (s.engPhase = .idle ∧ s.fifoWr = s.fifoRd ∧ s.decState ≠ .awaitingStart ∧
      (s.nowMs.toNat + 2 ^ 32 - s.lastActivity.toNat) % 2 ^ 32 = 500) ∧
    (u.engPhase = .idle ∧ u.fifoWr = u.fifoRd ∧ u.decState ≠ .awaitingStart ∧
      (u.nowMs.toNat + 2 ^ 32 - u.lastActivity.toNat) % 2 ^ 32 = 501) :=
  ⟨waiting 1000 1500, waiting 0xFFFFFF00 0xF5, by decide, by decide⟩

theorem witness_IdleRefreshSetsTheTimestamp :
    State.reset.engPhase = .idle ∧ State.reset.fifoWr = State.reset.fifoRd ∧ State.reset.decState = .awaitingStart := by
  decide

/-- The longest payload and the empty one. -/
theorem witness_WellFormedFrameIsAcceptedOnItsLastByte : ∀ p ∈ [List.replicate 4096 (0xAA : Byte), []],
    ∃ (s : State) (rest : List Turn), Inv s ∧ s.engPhase = .idle ∧ s.decState = .awaitingStart ∧
      s.fifoWr = s.fifoRd ∧ p.length ≤ 4096 ∧ s.inputs = slowly (frame s.params.crc 0x21 p) ++ rest := by
  intro p hp
  refine ⟨{ fifo 2 1 1 [] with inputs := slowly (frame (fifo 2 1 1 []).params.crc 0x21 p) ++ [.txAccept] },
    [.txAccept], ?_, rfl, rfl, rfl, ?_, rfl⟩
  · exact inv_of_same (inv_fifo (by omega) (by omega) (by omega) (by decide) : Inv (fifo 2 1 1 [])) rfl
  · simp only [List.mem_cons, List.not_mem_nil, or_false] at hp
    rcases hp with rfl | rfl
    · exact List.length_replicate.le
    · exact Nat.zero_le _

/-- A run in which the same event comes at every instant: it passes through `s` and `t` and then stays in `u`. -/
theorem run_that_settles {e : Turn} {s t u : State} (h : step { s with inputs := [e] } = .next t)
    (h' : step { t with inputs := [e] } = .next u) (h'' : step { u with inputs := [e] } = .next u) :
    Run (fun _ => e) (fun n => if n = 0 then s else if n = 1 then t else u) := by
  intro n
  obtain _ | _ | n := n
  · exact h
  · exact h'
  · simpa using h''

/-- A READ's frame held by the decoder with the longest payload; and a run in which ENGINE steps at every instant, which
dispatches a READ. -/
theorem witness_DispatchRunsTheSelectedCommand :
    (∃ s : State, s.engPhase = .dispatch ∧ s.decLength.toNat ≤ 4096) ∧
    ∃ (turns : Nat → Turn) (ρ : Nat → State), Run turns ρ ∧ EngineFair turns ρ ∧ (ρ 0).engPhase = .dispatch :=
  ⟨⟨{ held 0x21 [] with decLength := 4096 }, by decide⟩, _, _,
    run_that_settles (e := .engine) (s := held 0x21 []) rfl rfl rfl, fun n => ⟨n, le_refl n, .inl rfl⟩, rfl⟩

theorem witness_StepRunsTheDecodedFrame : ∃ (s : State) (i : Instr) (rest : List Byte),
    configRefusal s.params = none ∧ nextTurn s = .engine ∧ s.engPhase = .dispatch ∧ s.decLength.toNat ≤ 4096 ∧
      decode s.params.crc (frame s.params.crc s.decOpcode (heldPayload s)) = .instr i rest :=
  ⟨held 0x10 [0x00], .cmdInquiry [0x00], [], by decide, by decide, by decide, by decide, by decide +kernel⟩

theorem witness_StepRunsTheAgentsOperation : ∃ s1 s2 s3 s4 s5 s6 s7 : State,
    (configRefusal s1.params = none ∧ nextTurn s1 = .rx 0x41) ∧
    (configRefusal s2.params = none ∧ nextTurn s2 = .txAccept) ∧
    (configRefusal s3.params = none ∧ nextTurn s3 = .engine ∧ s3.engPhase = .halted) ∧
    (configRefusal s4.params = none ∧ nextTurn s4 = .engine ∧ s4.engPhase = .tx) ∧
    (configRefusal s5.params = none ∧ nextTurn s5 = .engine ∧ s5.engPhase = .dispatch) ∧
    (configRefusal s6.params = none ∧ nextTurn s6 = .engine ∧ s6.engPhase = .idle ∧ s6.fifoWr ≠ s6.fifoRd) ∧
    (configRefusal s7.params = none ∧ nextTurn s7 = .engine ∧ s7.engPhase = .idle ∧ s7.fifoWr = s7.fifoRd) :=
  ⟨{ State.reset with inputs := [.rx 0x41] }, { State.reset with inputs := [.txAccept] },
    { State.reset with engPhase := .halted }, sending .boot 0, held 0x21 [], fifo 4 1 0 [], State.reset, by decide,
    by decide, by decide, by decide, by decide, by decide, by decide⟩

/-- The events of the ports, of the passing of time (here past the wrap of `now_ms`) and of block reset. -/
theorem witness_StepRunsTheAgentsOperation_ports_time_and_reset :
    (∀ op ∈ [FifoOp.get, .isEmpty, .full], ∃ s u : State,
      (configRefusal s.params = none ∧ nextTurn s = .port .engine op ∧ s.engPhase = .idle) ∧
      (configRefusal u.params = none ∧ (∀ b, op ≠ .put b) ∧ nextTurn u = .port .engine op ∧ u.engPhase ≠ .idle)) ∧
    ∃ s1 s2 s3 : State,
      (configRefusal s1.params = none ∧ nextTurn s1 = .port .producer (.put 0x41)) ∧
      (configRefusal s2.params = none ∧ nextTurn s2 = .elapse 2 ∧ s2.nowMs = 0xFFFFFFFF) ∧
      (configRefusal s3.params = none ∧ nextTurn s3 = .rst) := by
  refine ⟨fun op h => ⟨{ State.reset with inputs := [.port .engine op] },
    { State.reset with inputs := [.port .engine op], engPhase := .halted }, ⟨rfl, rfl, rfl⟩,
    ⟨rfl, fun b e => ?_, rfl, by simp⟩⟩, { State.reset with inputs := [.port .producer (.put 0x41)] },
    { State.reset with inputs := [.elapse 2], nowMs := 0xFFFFFFFF }, { State.reset with inputs := [.rst] }, by decide,
    by decide, by decide⟩
  subst e; simp at h

theorem witness_TransmitHandsOverTheNextByte : ∃ (s : State) (b : Byte),
    s.engPhase = .tx ∧ s.txBuf[s.txIdx]? = some b ∧ s.txIdx + 1 < s.txBuf.length :=
  ⟨sending .boot 0, 0x01, by decide⟩

/-- One witness for each value of `eng_after_tx`. -/
theorem witness_LastResponseByteDecidesWhatFollows : ∀ a ∈ [AfterTx.none, .decoderReset, .boot, .reset],
    ∃ (s : State) (b : Byte), s.engAfterTx = a ∧ s.engPhase = .tx ∧ s.txBuf[s.txIdx]? = some b ∧
      s.txIdx + 1 = s.txBuf.length :=
  fun a _ => ⟨sending a 1, 0x02, rfl, rfl, rfl, rfl⟩

/-- A run whose sink accepts at every instant, and one whose sink never accepts. -/
theorem witness_ResponseLeavesWholeAndInOrder_fairness :
    (∃ (turns : Nat → Turn) (ρ : Nat → State), Run turns ρ ∧ SinkFair turns ρ ∧ (ρ 0).engPhase = .tx) ∧
    ∃ (turns : Nat → Turn) (ρ : Nat → State), Run turns ρ ∧ (ρ 0).engPhase = .tx ∧
      ∀ m, 0 ≤ m → turns m ≠ .txAccept ∧ turns m ≠ .rst :=
  ⟨⟨_, _, run_that_settles (e := .txAccept) (s := sending .decoderReset 0) rfl rfl rfl, fun n => ⟨n, le_refl n, .inl rfl⟩,
      rfl⟩,
    _, _, run_that_settles (e := .engine) (s := sending .decoderReset 0) rfl rfl rfl, rfl, fun _ _ => by decide⟩

theorem witness_ResponseLeavesWholeAndInOrder : ∃ (s : State) (rest : List Turn), configRefusal s.params = none ∧
    s.engPhase = .tx ∧ s.txIdx = 0 ∧ s.txBuf ≠ [] ∧ s.inputs = List.replicate s.txBuf.length .txAccept ++ rest :=
  ⟨{ sending .reset 0 with inputs := [.txAccept, .txAccept, .engine] }, [.engine], by decide⟩

theorem witness_EveryCommandAnswersWithItsOpcode : wireFields (.cmdUnrecognized 0x7E [0x01]) = some (0x7E, [0x01]) := rfl

theorem witness_InquiryAnswersVersionOrMtu : ∃ s : State, ([] : List Byte).length ≠ 1 ∧
    ([0x00, 0x00] : List Byte).length ≠ 1 ∧ (0x00 : Byte) = s.params.subVersion ∧
    ((0x01 : Byte) = s.params.subMtu ∧ (0x01 : Byte) ≠ s.params.subVersion) ∧
    ((0x02 : Byte) ≠ s.params.subMtu ∧ (0x02 : Byte) ≠ s.params.subVersion) :=
  ⟨State.reset, by decide⟩

theorem witness_HaltedUntilBlockReset : ∃ s : State, configRefusal s.params = none ∧ s.engPhase = .halted ∧
    nextTurn s ≠ .rst ∧ ∀ a op, nextTurn s = .port a op → portRefusal a op = none :=
  ⟨{ State.reset with engPhase := .halted }, by decide, rfl, by decide, fun a op h => by cases h⟩

/-- E4, and E1 for the rejection; the last protected byte and the first one past it. -/
theorem witness_EraseIsRejectedBeforeAnyRequest : ([0x00] : List Byte).length ≠ 8 ∧
    ([0xFF, 0xBF, 0x00, 0x08, 0x01, 0x00, 0x00, 0x00] : List Byte).length = 8 ∧
    meetsProtected [0xFF, 0xBF, 0x00, 0x08, 0x01, 0x00, 0x00, 0x00] := by
  unfold meetsProtected; decide

theorem witness_EraseErasesTheSelectedSectors : ∃ (s : State) (p : List Byte), p.length = 8 ∧ ¬ meetsProtected p ∧
    selectedSectors s.params (rangeOf p) = [3] ∧
    (selectedSectors s.params (rangeOf p)).length ≤ s.flashResults.length ∧
    ∀ r ∈ s.flashResults.take (selectedSectors s.params (rangeOf p)).length, r = .ok :=
  ⟨{ State.reset with flashResults := [.ok] }, [0x00, 0xC0, 0x00, 0x08, 0x00, 0x40, 0x00, 0x00], by decide,
    by unfold meetsProtected; decide, by decide, by decide, by decide⟩

theorem witness_WriteIsRejectedBeforeAnyRequest :
    (([0x00] : List Byte).length < 8) ∧
    ([0xFF, 0xBF, 0x00, 0x08, 0x01, 0x00, 0x00, 0x00, 0x11] : List Byte).length =
      8 + (rangeOf [0xFF, 0xBF, 0x00, 0x08, 0x01, 0x00, 0x00, 0x00, 0x11]).size.toNat ∧
    meetsProtected [0xFF, 0xBF, 0x00, 0x08, 0x01, 0x00, 0x00, 0x00, 0x11] := by
  unfold meetsProtected; decide

/-- W1's first word, and W6's misaligned address. -/
theorem witness_WriteRequestsEveryWord : ∃ p q : List Byte,
    (p.length = 8 + (rangeOf p).size.toNat ∧ ¬ meetsProtected p) ∧
    (q.length = 8 + (rangeOf q).size.toNat ∧ ¬ meetsProtected q ∧ (rangeOf q).address.toNat % 4 ≠ 0) :=
  ⟨[0x00, 0x00, 0x01, 0x08, 0x04, 0x00, 0x00, 0x00, 0x00, 0x01, 0x02, 0x03],
    [0x02, 0x00, 0x01, 0x08, 0x04, 0x00, 0x00, 0x00, 0x01, 0x02, 0x03, 0x04],
    by unfold meetsProtected; decide, by unfold meetsProtected; decide⟩

/-- W2. -/
theorem witness_WriteToErasedWordsStoresTheData : ∃ (s : State) (p : List Byte), s.flash.wf Config.erasedByte ∧
    p.length = 8 + (rangeOf p).size.toNat ∧ p.length ≤ 4096 ∧ ¬ meetsProtected p ∧
    (rangeOf p).address.toNat % 4 = 0 ∧ wordCount (rangeOf p).size.toNat = 2 ∧
    (∀ k < wordCount (rangeOf p).size.toNat, wordInOneSector s.params (wordAddress (rangeOf p) k).toNat = true) ∧
    (∀ a, inWrittenWords (rangeOf p) a → flashByte s a = 0xFF) ∧
    (∀ r ∈ s.flashResults.take (wordCount (rangeOf p).size.toNat), r = .ok) ∧
    wordCount (rangeOf p).size.toNat ≤ s.flashResults.length :=
  ⟨{ State.reset with flashResults := [.ok, .ok] },
    [0x10, 0x00, 0x01, 0x08, 0x05, 0x00, 0x00, 0x00, 0xA0, 0xA1, 0xA2, 0xA3, 0xA4], by decide, by decide, by decide,
    by unfold meetsProtected; decide, by decide, by decide, by decide, fun _ _ => rfl, by decide, by decide⟩

theorem witness_VerifyComparesTheCrcOfTheRange : ∃ (s : State) (p q : List Byte), p.length ≠ 12 ∧ q.length = 12 ∧
    (rangeOf q).size.toNat = 1 ∧ inFlash s.params (readAddress (rangeOf q) 0) = true :=
  ⟨State.reset, [], [0xFF, 0xFF, 0x0F, 0x08, 0x01, 0x00, 0x00, 0x00, 0x00, 0x00, 0x00, 0x00], by decide⟩

theorem witness_VerifyIsIdempotentInsideFlash : ∃ (s t : State) (p : List Byte),
    (rangeOf p).size.toNat = 1 ∧
    (∀ i < (rangeOf p).size.toNat, inFlash s.params (readAddress (rangeOf p) i) = true) ∧
    exec (.cmdVerify p) s = .next t :=
  ⟨State.reset, _, [0xFF, 0xFF, 0x0F, 0x08, 0x01, 0x00, 0x00, 0x00, 0x00, 0x00, 0x00, 0x00], by decide, by decide, rfl⟩

theorem witness_ProgramWordPrimitiveFollowsItsTable : ∃ s u v : State,
    (s.flash.wf Config.erasedByte ∧ s.flashLocked = true) ∧
    (u.flash.wf Config.erasedByte ∧ u.flashLocked = false ∧ wordInOneSector u.params 0x08010000 = true ∧
      (nextResult (request (.programWord 0x08010000 0x33221100) u)).1 = .ok ∧
      ∀ k < 4, flashByte u (0x08010000 + k) = 0xFF) ∧
    (v.flash.wf Config.erasedByte ∧ v.flashLocked = false ∧ wordInOneSector v.params 0x08010000 = true ∧
      v.flashResults = [.fail]) :=
  ⟨State.reset, { State.reset with flashLocked := false, flashResults := [.ok] },
    { State.reset with flashLocked := false, flashResults := [.fail], flash := [(0x08010000, 0x11)] }, by decide,
    by decide, by decide⟩

/-- Fairness of PRODUCER (R329): the two bytes that the receive side has come to their puts. -/
theorem witness_ProducerFair : ProducerFair [0xAA, 0x10]
    (fun n => if n = 1 then .rx 0xAA else if n = 4 then .rx 0x10 else .engine) :=
  ⟨5, [], by decide⟩

/-- E3: the sector that starts where the protected range ends. -/
theorem witness_ProtectedRangeIsNeverChanged : ∃ s t : State,
    step s = .next t ∧ t.flashRequests = [.unlock, .eraseSector 3, .lock] :=
  ⟨{ held 0x20 [0x00, 0xC0, 0x00, 0x08, 0x00, 0x40, 0x00, 0x00] with flashResults := [.ok] }, _, rfl,
    by decide +kernel⟩

theorem witness_FlashRequestsAreBracketedAndOutsideProtection : ∃ s t : State,
    step s = .next t ∧ .eraseSector 3 ∈ t.flashRequests := by
  obtain ⟨s, t, h, h'⟩ := witness_ProtectedRangeIsNeverChanged
  exact ⟨s, t, h, by simp [h']⟩

theorem witness_StepKeepsInvariant : ∃ s t : State, Inv s ∧ step s = .next t :=
  ⟨fifo 4 1 0 [(0, 0xAA)], _, inv_fifo (by omega) (by omega) (by omega) (by decide), rfl⟩

/-- A pending refusal, beside the many states that go on. -/
theorem witness_InvariantStatesNeverFault : ∃ s : State, Inv s ∧ nextTurn s = .port (.other 0) .get :=
  ⟨{ fifo 4 1 0 [(0, 0xAA)] with inputs := [.port (.other 0) .get] },
    inv_of_same (inv_fifo (by omega) (by omega) (by omega) (by decide) : Inv (fifo 4 1 0 [(0, 0xAA)])) rfl, rfl⟩

theorem witness_NoStepChangesAParameter : ∃ t : State, step State.reset = .next t := ⟨_, rfl⟩

theorem witness_OnlyFifoOperationsTouchTheFifo : ∃ s t : State, exec .engTx s = .next t := ⟨sending .boot 0, _, rfl⟩

theorem witness_BlockResetClearsTheBlockAndKeepsFlash : ∃ s : State,
    configRefusal s.params = none ∧ nextTurn s = .rst ∧ s.engPhase = .halted :=
  ⟨{ State.reset with engPhase := .halted, inputs := [.rst] }, by decide⟩

theorem witness_FirstEngineStepSetsTheTimestamp : ∃ s : State, configRefusal s.params = none ∧
    nextTurn s = .engine ∧ s.engPhase = .idle ∧ s.decState = .awaitingStart := ⟨State.reset, by decide⟩

theorem witness_OutsideTheRulesIsRefused : ∃ s1 s2 s3 s4 : State,
    s1.params.fifoSlots < 2 ∧
    (2 ≤ s2.params.fifoSlots ∧ offsetsMatch s2.params.sectors 0 = false) ∧
    (configRefusal s3.params = none ∧ nextTurn s3 = .port .engine (.put 0x41) ∧ Agent.engine ≠ .producer) ∧
    (configRefusal s4.params = none ∧ nextTurn s4 = .port .producer .full ∧ Agent.producer ≠ .engine ∧
      ∀ b, FifoOp.full ≠ .put b) :=
  ⟨fifo 1 0 0 [], { State.reset with params := { Config.defaultParams with sectors := [⟨4, 4⟩] } },
    { State.reset with inputs := [.port .engine (.put 0x41)] }, { State.reset with inputs := [.port .producer .full] },
    by decide, by decide, by decide, by decide, by decide, by decide, by simp⟩

end Sys2Proof.Tests
end

section
/-! The architectural state (10_state.md): no step writes a parameter (R51), and what ENGINE's step does to the activity
timestamp (R43). -/

namespace Sys2Proof.Machine

open Sys2Proof.Safety

/-! ### No operation writes the parameters (R51) -/

theorem CommandDone.params_eq {op : Byte} {p : List Byte} {s t : State} (h : CommandDone op p s t) :
    t.params = s.params := by
  obtain ⟨hw, -, -, -, -, -⟩ := h
  exact hw.params_eq

theorem exec_fifoPut_params {b : Byte} {s t : State} (h : exec (.fifoPut b) s = .next t) : t.params = s.params := by
  injection h with h
  subst h
  split <;> rfl

/-- No operation of the opcode table writes the parameters: a wire command leaves what `CommandDone` says, a dispatch
runs such a command, and the other operations are a put or leave what `Kept` says. -/
theorem exec_params {i : Instr} {s t : State} (h : exec i s = .next t) : t.params = s.params := by
  cases hw : wireFields i with
  | some f =>
    obtain ⟨u, hu, hdone⟩ := command_done s hw
    rw [h] at hu
    injection hu with hu
    exact hu ▸ hdone.params_eq
  | none =>
    by_cases hput : ∃ b, i = .fifoPut b
    · obtain ⟨b, rfl⟩ := hput
      exact exec_fifoPut_params h
    · by_cases hdisp : i = .engDispatch
      · subst hdisp
        rcases dispatch_done h with rfl | ⟨-, p, -, hdone⟩
        · rfl
        · exact hdone.params_eq
      · exact (port_kept hw (fun b hb => hput ⟨b, hb⟩) hdisp h).1.params

/-! ### The activity timestamp of an ENGINE step (R43, R185) -/

theorem step_engine {s : State} (hc : configRefusal s.params = none) (ht : nextTurn s = .engine) :
    step s = engineTurn (beginTurn s) := by
  simp only [step, takeStep, hc, ht, runTurn]

theorem engineTurn_idle_empty {s : State} (hp : s.engPhase = .idle) (he : fifoEmpty s = true) :
    engineTurn s = execDecTimeout s := by
  simp only [engineTurn, engineOp, hp, he, if_true, exec]

theorem engineTurn_idle_nonempty {s : State} (hp : s.engPhase = .idle) (he : fifoEmpty s = false) :
    engineTurn s = execDecFeed s := by
  simp only [engineTurn, engineOp, hp, he, Bool.false_eq_true, if_false, exec]

/-- With no partial frame in progress, DEC.TIMEOUT is the idle refresh (R187). -/
theorem execDecTimeout_refresh {s : State} (hp : s.engPhase = .idle) (he : fifoEmpty s = true)
    (hd : s.decState = .awaitingStart) : execDecTimeout s = .next { s with lastActivity := s.nowMs } := by
  simp [execDecTimeout, hp, he, partialFrame, hd]

theorem feed_awaitingStart_lastActivity {s : State} (b : Byte) (hd : s.decState = .awaitingStart) :
    ∃ t, feed b s = .next t ∧ t.lastActivity = s.lastActivity := by
  refine ⟨_, feed_awaitingStart hd, ?_⟩
  split <;> rfl

/-- ENGINE's step in IDLE with the decoder in AwaitingStart refreshes the timestamp: by the idle refresh on an empty FIFO
(R187), and by taking a byte on another (R185). -/
theorem engineTurn_lastActivity {s : State} (hp : s.engPhase = .idle) (hd : s.decState = .awaitingStart) :
    ∃ t, engineTurn s = .next t ∧ t.lastActivity = s.nowMs := by
  cases he : fifoEmpty s with
  | true => exact ⟨_, (engineTurn_idle_empty hp he).trans (execDecTimeout_refresh hp he hd), rfl⟩
  | false =>
    have hne : s.fifoWr ≠ s.fifoRd := fun h => by simp [fifoEmpty_iff.2 h] at he
    obtain ⟨t, ht, hl⟩ := feed_awaitingStart_lastActivity (s := takeByte s) (fifoSlot s s.fifoRd) hd
    exact ⟨t, (engineTurn_idle_nonempty hp he).trans ((execDecFeed_takes hp hne).trans ht), hl⟩

end Sys2Proof.Machine

namespace Sys2Proof.Proofs

open Sys2Proof.Machine

/-- Settles O56: over the ways in which a step goes on, none of which writes the parameters. -/
theorem noStepChangesAParameter : Obligations.NoStepChangesAParameter := by
  unfold Obligations.NoStepChangesAParameter
  intro s t h
  rcases step_cases h with rfl | ⟨ms, rfl⟩ | rfl | ⟨i, -, -, hi⟩
  · rfl
  · rfl
  · rfl
  · exact (exec_params hi).trans (beginTurn_params s)

/-- Settles O59: the step is ENGINE's turn in IDLE, which refreshes the timestamp on an empty FIFO and on another. -/
theorem firstEngineStepSetsTheTimestamp : Obligations.FirstEngineStepSetsTheTimestamp := by
  unfold Obligations.FirstEngineStepSetsTheTimestamp
  intro s hc ht hp hd
  obtain ⟨t, h, hl⟩ := engineTurn_lastActivity (s := beginTurn s) hp hd
  exact ⟨t, (step_engine hc ht).trans h, hl⟩

end Sys2Proof.Proofs
end

section
/-! The FIFO's history (R85): what one step does to the FIFO, whatever else it does, and that the bytes accepted are at
every instant the bytes taken followed by the bytes held. -/

namespace Sys2Proof.Machine

open Sys2Proof.Safety

/-! ### The FIFO alone -/

/-- The FIFO of a state (R32 to R34), with everything else as `State.reset` has it. The rest of the invariant is met
there, so the laws of put and get under the invariant speak of the FIFO alone. -/
def fifoView (s : State) : State :=
  { State.reset with params := s.params, fifoMem := s.fifoMem, fifoWr := s.fifoWr, fifoRd := s.fifoRd }

theorem fifoView_congr {s t : State} (hp : t.params = s.params) (hm : t.fifoMem = s.fifoMem)
    (hw : t.fifoWr = s.fifoWr) (hr : t.fifoRd = s.fifoRd) : fifoView t = fifoView s := by
  simp only [fifoView, hp, hm, hw, hr]

@[simp] theorem fifoHeld_fifoView (s : State) : fifoHeld (fifoView s) = fifoHeld s := rfl

theorem inv_fifoView {s : State} (h : Inv s) : Inv (fifoView s) where
  config := h.config
  cursors := h.cursors
  fifoForm := h.fifoForm
  payloadForm := by simp [fifoView, State.reset, Memory.wf]
  flashForm := by simp [fifoView, State.reset, Memory.wf]
  locked := rfl
  response := by simp [fifoView, State.reset]
  decoder := rfl
  engine := ⟨rfl, rfl⟩
  requests _ := ⟨rfl, rfl⟩

theorem inv_fifoView_putSlot {s : State} (b : Byte) (h : Inv (fifoView s)) : Inv (fifoView (putSlot b s)) :=
  inv_of_same (inv_put h b) rfl

theorem inv_fifoView_takeSlot {s : State} (h : Inv (fifoView s)) : Inv (fifoView (takeSlot s)) :=
  inv_of_same (inv_take h) rfl

/-! ### What one step does to the FIFO -/

/-- What a step from `s` to `t` does to the FIFO: nothing, an accepted put (R144) or a successful get (R146); with the
bytes that it accepts and the bytes that it takes. -/
inductive FifoEffect (s t : State) : List Byte → List Byte → Prop where
  /-- the FIFO is left alone -/
  | untouched (same : fifoView t = fifoView s) : FifoEffect s t [] []
  /-- a byte is put into a FIFO with room for it -/
  | put (b : Byte) (room : fifoIsFull s = false) (stored : fifoView t = fifoView (putSlot b s)) : FifoEffect s t [b] []
  /-- the oldest byte of a FIFO that is not empty is taken -/
  | take (notEmpty : fifoEmpty s = false) (stepped : fifoView t = fifoView (takeSlot s)) :
      FifoEffect s t [] [fifoSlot s s.fifoRd]

/-- Each effect keeps the FIFO's part of the invariant and the order of its bytes: what was held and what is accepted is
what is taken and what is held then. -/
theorem FifoEffect.keeps_order {s t : State} {accepted taken : List Byte} (h : FifoEffect s t accepted taken)
    (hi : Inv (fifoView s)) : Inv (fifoView t) ∧ fifoHeld s ++ accepted = taken ++ fifoHeld t := by
  rw [← fifoHeld_fifoView t]
  cases h with
  | untouched same => rw [same]; exact ⟨hi, by simp⟩
  | put b room stored => rw [stored]; exact ⟨inv_fifoView_putSlot b hi, (held_put hi b room).symm⟩
  | take notEmpty stepped =>
    rw [stepped]
    exact ⟨inv_fifoView_takeSlot hi, (List.append_nil _).trans (held_take (s := fifoView s) hi notEmpty)⟩

/-- The start of a turn leaves the FIFO alone. -/
theorem FifoEffect.of_beginTurn {s t : State} {accepted taken : List Byte}
    (h : FifoEffect (beginTurn s) t accepted taken) : FifoEffect s t accepted taken := by
  cases h with
  | untouched same => exact .untouched same
  | put b room stored => exact .put b room stored
  | take notEmpty stepped => exact .take notEmpty stepped

theorem fifoPut_effect {s t : State} {b : Byte} (h : exec (.fifoPut b) s = .next t) :
    FifoEffect s t (if fifoIsFull s then [] else [b]) [] := by
  injection h with h
  subst h
  cases hf : fifoIsFull s with
  | true => exact .untouched rfl
  | false => exact .put b hf rfl

theorem fifoGet_effect {s t : State} (h : exec .fifoGet s = .next t) :
    FifoEffect s t [] (if fifoEmpty s = false then [fifoSlot s s.fifoRd] else []) := by
  injection h with h
  subst h
  cases hf : fifoEmpty s with
  | true => exact .untouched rfl
  | false => exact .take hf rfl

theorem Kept.fifoView_eq {s t : State} (h : Kept s t) (hr : t.fifoRd = s.fifoRd) : fifoView t = fifoView s :=
  fifoView_congr h.params h.fifoMem h.fifoWr hr

/-- DEC.FEED in IDLE takes the oldest byte (R170). -/
theorem decFeed_effect {s t : State} (hp : s.engPhase = .idle) (he : fifoEmpty s = false)
    (h : exec .decFeed s = .next t) : FifoEffect s t [] [fifoSlot s s.fifoRd] := by
  simp only [exec, execDecFeed, if_pos (And.intro hp he)] at h
  obtain ⟨hk, hr⟩ := feed_kept h
  exact .take he (hk.fifoView_eq hr)

theorem CommandDone.fifoView_eq {op : Byte} {p : List Byte} {s t : State} (h : CommandDone op p s t) :
    fifoView t = fifoView s := by
  obtain ⟨hw, -, -, -, -, -⟩ := h
  have hf := hw.frame
  refine fifoView_congr ?_ ?_ ?_ ?_ <;> rw [hf] <;> rfl

/-- A dispatch leaves the FIFO alone (R154). -/
theorem dispatch_fifoView_eq {s t : State} (h : exec .engDispatch s = .next t) : fifoView t = fifoView s := by
  rcases dispatch_done h with rfl | ⟨-, p, -, hdone⟩
  · rfl
  · exact hdone.fifoView_eq

/-- The port operations that leave the FIFO alone: all but put, get, DEC.FEED and a dispatch. -/
def leavesFifo : Instr → Bool
  | .fifoIsEmpty | .fifoFull | .decReset | .decTimeout | .engTx => true
  | _ => false

theorem exec_effect_untouched {s t : State} {i : Instr} (hl : leavesFifo i = true) (h : exec i s = .next t) :
    FifoEffect s t [] [] := by
  have hw : wireFields i = none := by cases i <;> simp_all [leavesFifo, wireFields]
  obtain ⟨hk, hr⟩ := port_kept hw (by rintro b rfl; cases hl) (by rintro rfl; cases hl) h
  exact .untouched (hk.fifoView_eq (hr (by rintro rfl; cases hl) (by rintro rfl; cases hl)))

/-- ENGINE's turn takes a byte in IDLE on a FIFO that is not empty, and leaves the FIFO alone otherwise. -/
theorem engineTurn_effect {s t : State} (h : engineTurn s = .next t) :
    FifoEffect s t [] (if s.engPhase = .idle ∧ fifoEmpty s = false then [fifoSlot s s.fifoRd] else []) := by
  cases hp : s.engPhase <;> simp only [engineTurn, engineOp, hp] at h
  case idle =>
    cases he : fifoEmpty s <;> simp only [he, if_true, Bool.false_eq_true, if_false] at h
    case true => simpa using exec_effect_untouched rfl h
    case false => simpa using decFeed_effect hp he h
  case dispatch => simpa using FifoEffect.untouched (dispatch_fifoView_eq h)
  all_goals
    injection h with h
    subst h
    simpa using FifoEffect.untouched rfl

/-- ENGINE's direct use of a FIFO port: a get in IDLE takes a byte where there is one. -/
theorem enginePortTurn_effect {s t : State} {op : FifoOp} (hn : nextTurn s = .port .engine op)
    (h : portTurn .engine op (beginTurn s) = .next t) : FifoEffect s t (acceptedNext s) (takenNext s) := by
  simp only [acceptedNext, takenNext, hn]
  by_cases hp : s.engPhase = .idle
  · cases op <;> simp [portTurn, portRefusal, hp, portInstr] at h ⊢
    case get => exact (fifoGet_effect h).of_beginTurn
    all_goals exact (exec_effect_untouched rfl h).of_beginTurn
  · cases op <;> simp [portTurn, portRefusal, hp] at h ⊢
    all_goals exact h ▸ .untouched rfl

/-- What a step that is no block reset does to the FIFO: it accepts and takes the bytes of the FIFO's history. -/
theorem step_effect {s t : State} (hn : nextTurn s ≠ .rst) (h : step s = .next t) :
    FifoEffect s t (acceptedNext s) (takenNext s) := by
  obtain ⟨-, h⟩ := step_next h
  cases ht : nextTurn s <;> simp only [ht, runTurn] at h
  case rst => exact absurd ht hn
  case port a op =>
    cases a with
    | engine => exact enginePortTurn_effect ht h
    | producer =>
      cases op <;> simp [portTurn, portRefusal, portInstr] at h
      simp only [acceptedNext, takenNext, ht]
      exact (fifoPut_effect h).of_beginTurn
    | other id => cases op <;> simp [portTurn, portRefusal] at h
  all_goals simp only [acceptedNext, takenNext, ht]
  case rx b => exact (fifoPut_effect h).of_beginTurn
  case engine => exact (engineTurn_effect h).of_beginTurn
  case txAccept => exact (exec_effect_untouched rfl h).of_beginTurn
  case elapse ms => injection h with h; subst h; exact .untouched rfl

/-- Along a run without block reset from an empty FIFO, the bytes accepted are the bytes taken, followed by the bytes
held. -/
theorem fifoRun_order {s t : State} {accepted taken : List Byte} (hi : Inv s) (he : fifoHeld s = [])
    (run : FifoRun s accepted taken t) : Inv (fifoView t) ∧ accepted = taken ++ fifoHeld t := by
  induction run with
  | refl => exact ⟨inv_fifoView hi, by simp [he]⟩
  | @step t u accepted taken run noReset last ih =>
    obtain ⟨hit, hacc⟩ := ih
    obtain ⟨hiu, horder⟩ := (step_effect noReset last).keeps_order hit
    refine ⟨hiu, ?_⟩
    calc accepted ++ acceptedNext t = taken ++ (fifoHeld t ++ acceptedNext t) := by rw [hacc, List.append_assoc]
      _ = taken ++ takenNext t ++ fifoHeld u := by rw [horder, List.append_assoc]

end Sys2Proof.Machine

namespace Sys2Proof.Proofs

open Sys2Proof.Machine Sys2Proof.Safety

/-- Settles O13, by induction on the run: the bytes accepted are the bytes taken followed by the bytes held. -/
theorem fifoDeliversAcceptedBytesInOrder : Obligations.FifoDeliversAcceptedBytesInOrder := by
  unfold Obligations.FifoDeliversAcceptedBytesInOrder
  intro s t accepted taken hi he run
  obtain ⟨-, h⟩ := fifoRun_order hi he run
  exact ⟨⟨fifoHeld t, h.symm⟩, h⟩

end Sys2Proof.Proofs
end

section
/-! Words as bytes in payloads and data (R81, R100, R111 to R113, R275). -/

namespace Sys2Proof.Machine

/-! ### The u32 fields of a payload -/

/-- A field that begins where a word's bytes stand is that word (R81, R100). -/
theorem field32_append (pre rest : List Byte) (v : Word) {k : Nat} (hk : pre.length = k) :
    field32 (pre ++ bytes32 v ++ rest) k = v := by
  subst hk
  simp [field32, bytes32, le32_bytes32]

theorem rangeOf_bytes32 (address size : Word) (rest : List Byte) :
    rangeOf (bytes32 address ++ bytes32 size ++ rest) = ⟨address, size⟩ := by
  have haddress : field32 (bytes32 address ++ bytes32 size ++ rest) 0 = address := by
    simpa using field32_append [] (bytes32 size ++ rest) address rfl
  simp only [rangeOf, haddress, field32_append (bytes32 address) rest size (length_bytes32 _)]

theorem verifyOperand_bytes32 (address size crc : Word) :
    verifyOperand (bytes32 address ++ bytes32 size ++ bytes32 crc) = some (⟨address, size⟩, crc) := by
  have hcrc : field32 (bytes32 address ++ bytes32 size ++ bytes32 crc) 8 = crc := by
    simpa using field32_append (bytes32 address ++ bytes32 size) [] crc (by simp)
  simp only [verifyOperand, List.length_append, length_bytes32, if_true, rangeOf_bytes32, hcrc]

/-! ### The word that WRITE makes of its data -/

/-- Byte `k` of a word made of four bytes is the k-th of them. -/
theorem extractLsb'_le32 (b : Nat → Byte) {k : Nat} (hk : k < 4) :
    (le32 (b 0) (b 1) (b 2) (b 3)).extractLsb' (8 * k) 8 = b k := by
  rw [← getElem_bytes32 _ k hk]
  simp only [bytes32_le32]
  match k, hk with
  | 0, _ => rfl
  | 1, _ => rfl
  | 2, _ => rfl
  | 3, _ => rfl

/-- Byte `k` of the word at offset `i` is data byte `i + k`, and 0xFF past the end of the data (R275). -/
theorem extractLsb'_dataWord (data : List Byte) (i : Nat) {k : Nat} (hk : k < 4) :
    (dataWord data i).extractLsb' (8 * k) 8 = data.getD (i + k) 0xFF :=
  extractLsb'_le32 (fun k => data.getD (i + k) 0xFF) hk

end Sys2Proof.Machine

namespace Sys2Proof.Proofs

open Sys2Proof.Machine

/-- Settles O6: each field begins where its word's bytes stand. -/
theorem payloadFieldsAreLittleEndian : Obligations.PayloadFieldsAreLittleEndian := by
  unfold Obligations.PayloadFieldsAreLittleEndian
  exact fun address size crc rest => ⟨rangeOf_bytes32 address size rest, verifyOperand_bytes32 address size crc⟩

/-- Settles O7: byte `k` of the word is the data's byte at that place, or the padding. -/
theorem dataWordIsLittleEndianAndPadded : Obligations.DataWordIsLittleEndianAndPadded := by
  unfold Obligations.DataWordIsLittleEndianAndPadded
  intro data i k hk
  rw [extractLsb'_dataWord data i hk]
  split
  · next hin => exact List.getD_eq_getElem data 0xFF hin
  · next hout => exact List.getD_eq_default data 0xFF (by omega)

end Sys2Proof.Proofs
end

section
/-! What a step refuses (R72, R151, R353, R355). -/

namespace Sys2Proof.Machine

theorem step_of_configRefusal {s : State} {r : Refusal} (h : configRefusal s.params = some r) :
    step s = .refused r := by
  simp only [step, takeStep, h]

theorem configRefusal_fewSlots {p : Config.Params} (h : p.fifoSlots < 2) : configRefusal p = some .fifoSlotsTooFew := by
  simp [configRefusal, h]

theorem configRefusal_illFormed {p : Config.Params} (h : 2 ≤ p.fifoSlots) (ho : offsetsMatch p.sectors 0 = false) :
    configRefusal p = some .illFormedSectorTable := by
  simp [configRefusal, Nat.not_lt.2 h, ho]

/-- The use of a FIFO port by an agent that has no right to it is refused. -/
theorem step_of_portRefusal {s : State} {a : Agent} {op : FifoOp} {r : Refusal} (hc : configRefusal s.params = none)
    (hn : nextTurn s = .port a op) (h : portRefusal a op = some r) : step s = .refused r := by
  simp only [step, takeStep, hc, hn, runTurn, portTurn, h]

theorem portRefusal_put {a : Agent} (b : Byte) (ha : a ≠ .producer) :
    portRefusal a (.put b) = some .secondProducer := by
  cases a with
  | producer => exact absurd rfl ha
  | engine => rfl
  | other id => rfl

theorem portRefusal_consumer {a : Agent} {op : FifoOp} (ha : a ≠ .engine) (hop : ∀ b, op ≠ .put b) :
    portRefusal a op = some .secondConsumer := by
  cases op with
  | put b => exact absurd rfl (hop b)
  | get | isEmpty | full =>
    cases a with
    | engine => exact absurd rfl ha
    | producer => rfl
    | other id => rfl

end Sys2Proof.Machine

namespace Sys2Proof.Proofs

open Sys2Proof.Machine

/-- Settles O60: two refusals are of the parameters and two of the ports. -/
theorem outsideTheRulesIsRefused : Obligations.OutsideTheRulesIsRefused := by
  unfold Obligations.OutsideTheRulesIsRefused
  intro s
  refine ⟨fun h => ?_, fun h ho => ?_, fun a b hc hn ha => ?_, fun a op hc hn ha hop => ?_⟩
  · exact step_of_configRefusal (configRefusal_fewSlots h)
  · exact step_of_configRefusal (configRefusal_illFormed h ho)
  · exact step_of_portRefusal hc hn (portRefusal_put b ha)
  · exact step_of_portRefusal hc hn (portRefusal_consumer ha hop)

end Sys2Proof.Proofs
end

section
/-! What FlashProgramWord does, by R79's table. -/

namespace Sys2Proof.Machine

variable {s : State} {addr : Word}

/-- On a locked controller, at a misaligned address and outside the sectors a program fails and changes nothing. -/
theorem programWord_rejected (w : Word)
    (h : s.flashLocked = true ∨ addr.toNat % 4 ≠ 0 ∨ wordInOneSector s.params addr.toNat = false) :
    programWord addr w s = (.fail, s) := by
  unfold programWord
  simp only [Config.wordBytes]
  rcases h with h | h | h <;> simp [h]

section Accepted

variable (hl : s.flashLocked = false) (ha : addr.toNat % 4 = 0) (hs : wordInOneSector s.params addr.toNat = true)

include hl ha hs

/-- Elsewhere a program answers the result that the port draws. -/
theorem programWord_answer (w : Word) : (programWord addr w s).1 = (nextResult s).1 := by
  unfold programWord
  simp only [Config.wordBytes, hl, ha, hs]
  rcases nextResult s with ⟨r, t⟩
  cases r
  · by_cases he : wordErased t addr.toNat = true <;> simp [he]
  · simp

/-- A program of an erased word for which the port draws ok stores the word. -/
theorem programWord_drawn_ok (w : Word) (hr : (nextResult s).1 = .ok)
    (he : ∀ k < 4, flashByte s (addr.toNat + k) = Config.erasedByte) :
    (programWord addr w s).2.flash = s.flash.writeBytes Config.erasedByte addr.toNat (bytes32 w) := by
  have hflash := nextResult_flash s
  have herased : wordErased (nextResult s).2 addr.toNat = true := by
    rw [wordErased_iff]
    simpa only [flashByte, hflash] using he
  unfold programWord
  simp only [Config.wordBytes, hl, ha, hs]
  rcases hn : nextResult s with ⟨r, t⟩
  rw [hn] at hr hflash herased
  subst hr
  rw [← hflash]
  simp [herased]

end Accepted

/-- The bytes of a word that is written to flash. -/
theorem read_writeBytes_bytes32 {m : Memory} {fill : Byte} (hm : m.wf fill) (a : Nat) (w : Word) {k : Nat}
    (hk : k < 4) : (m.writeBytes fill a (bytes32 w)).read fill (a + k) = w.extractLsb' (8 * k) 8 := by
  rw [Memory.read_writeBytes_inside hm (by simpa using hk), getElem_bytes32 w k hk]

/-- The port draws the oldest listed result (log entry 3). -/
theorem nextResult_listed {r : FlashResult} {rest : List FlashResult} (h : s.flashResults = r :: rest) :
    (nextResult s).1 = r := by
  simp only [nextResult, h]

end Sys2Proof.Machine

namespace Sys2Proof.Proofs

open Sys2Proof.Machine

/-- Settles O50, by the rows of R79's table for the operation that the request begins. -/
theorem programWordPrimitiveFollowsItsTable : Obligations.ProgramWordPrimitiveFollowsItsTable := by
  unfold Obligations.ProgramWordPrimitiveFollowsItsTable
  intro s addr w hwf
  refine ⟨fun h => ?_, fun hl ha hs => ⟨?_, fun hr he k hk => ?_⟩, fun r rest h => ?_, fun a hout => ?_⟩
  · have hfail := programWord_rejected (s := request (.programWord addr w) s) w h
    exact ⟨congrArg Prod.fst hfail, congrArg (fun x => x.2.flash) hfail⟩
  · exact programWord_answer (s := request (.programWord addr w) s) hl ha hs w
  · have hstored := programWord_drawn_ok (s := request (.programWord addr w) s) hl ha hs w hr he
    simp only [flashByte, flashProgramWord, hstored]
    exact read_writeBytes_bytes32 hwf _ w hk
  · exact nextResult_listed (s := request (.programWord addr w) s) h
  · exact (flashProgramWord_flashOnly addr w s).outside a fun hin => hout hin.2

end Sys2Proof.Proofs
end

section
/-! WRITE's loop over erased words whose programs succeed (R274, R275). -/

namespace Sys2Proof.Machine

open Sys2Proof.Safety

variable {address : Word} {data : List Byte} {n i : Nat} {s : State}

/-- The address lies in the word at byte offset `i` of WRITE's loop (R274). -/
def InWord (address : Word) (i x : Nat) : Prop :=
  (address + BitVec.ofNat 32 i).toNat ≤ x ∧ x < (address + BitVec.ofNat 32 i).toNat + 4

theorem inWord_add {j : Nat} (hj : j < 4) : InWord address i ((address + BitVec.ofNat 32 i).toNat + j) :=
  ⟨by omega, by omega⟩

/-- Words at two offsets do not overlap. -/
theorem InWord.disjoint {i' x : Nat} (hx : InWord address i x) (hi : i % 4 = 0) (hi' : i' % 4 = 0) (hlt : i < 2 ^ 32)
    (hlt' : i' < 2 ^ 32) (hne : i ≠ i') : ¬ InWord address i' x := by
  simp only [InWord, BitVec.toNat_add, BitVec.toNat_ofNat] at hx ⊢
  omega

/-- The state in which the next `n` words of WRITE's loop, from byte offset `i` on, can all be programmed: the controller
is unlocked, the words are aligned, inside the sectors and erased, and the results listed for them are ok. -/
structure Programmable (address : Word) (n i : Nat) (s : State) : Prop where
  /-- the range begins at a word -/
  aligned : address.toNat % 4 = 0
  /-- so does the offset -/
  offset : i % 4 = 0
  /-- the loop does not come round to a word again -/
  fits : i + 4 * n ≤ 2 ^ 32
  /-- the controller is unlocked -/
  unlocked : s.flashLocked = false
  /-- the flash list is in canonical form -/
  form : s.flash.wf Config.erasedByte
  /-- the words lie inside the sectors -/
  inSector : ∀ k < n, wordInOneSector s.params (address + BitVec.ofNat 32 (i + 4 * k)).toNat = true
  /-- the words are erased -/
  erased : ∀ k < n, ∀ x, InWord address (i + 4 * k) x → flashByte s x = Config.erasedByte
  /-- the programs succeed -/
  listed : ∃ rest, s.flashResults = List.replicate n .ok ++ rest

/-- The first program stores its word and uses up its result. -/
theorem Programmable.first (h : Programmable address (n + 1) i s) (w : Word) : ∃ rest,
    (flashProgramWord (address + BitVec.ofNat 32 i) w s).2 =
      { request (.programWord (address + BitVec.ofNat 32 i) w) s with
        flashResults := List.replicate n .ok ++ rest
        flash := s.flash.writeBytes Config.erasedByte (address + BitVec.ofNat 32 i).toNat (bytes32 w) } := by
  obtain ⟨rest, hrest⟩ := h.listed
  have haligned : (address + BitVec.ofNat 32 i).toNat % 4 = 0 := by
    have ha := h.aligned
    have hi := h.offset
    rw [BitVec.toNat_add, BitVec.toNat_ofNat]
    omega
  have hok := programWord_ok (s := request (.programWord (address + BitVec.ofNat 32 i) w) s) (w := w) h.unlocked
    haligned (h.inSector 0 (by omega)) hrest fun k hk => h.erased 0 (by omega) _ (inWord_add hk)
  exact ⟨rest, congrArg Prod.snd hok⟩

theorem Programmable.first_byte (h : Programmable address (n + 1) i s) (w : Word) {j : Nat} (hj : j < 4) :
    flashByte (flashProgramWord (address + BitVec.ofNat 32 i) w s).2 ((address + BitVec.ofNat 32 i).toNat + j) =
      w.extractLsb' (8 * j) 8 := by
  obtain ⟨rest, heq⟩ := h.first w
  rw [heq]
  exact read_writeBytes_bytes32 h.form _ w hj

/-- After the first program the other words can still be programmed. -/
theorem Programmable.next (h : Programmable address (n + 1) i s) (w : Word) :
    Programmable address n (i + 4) (flashProgramWord (address + BitVec.ofNat 32 i) w s).2 := by
  obtain ⟨rest, heq⟩ := h.first w
  have honly := flashProgramWord_flashOnly (address + BitVec.ofNat 32 i) w s
  have hfits := h.fits
  have hoffset := h.offset
  have later : ∀ k, i + 4 + 4 * k = i + 4 * (k + 1) := fun k => by omega
  refine ⟨h.aligned, by omega, by omega, ?_, honly.form h.form, fun k hk => ?_, fun k hk x hx => ?_, rest, ?_⟩
  · rw [heq]; exact h.unlocked
  · rw [honly.params_eq, later]; exact h.inSector (k + 1) (by omega)
  · rw [later] at hx
    rw [honly.outside]
    · exact h.erased (k + 1) (by omega) x hx
    · rintro ⟨-, hin⟩
      exact hx.disjoint (i' := i) (by omega) hoffset (by omega) (by omega) (by omega) hin
  · rw [heq]

/-- The loop leaves the data in its words, and 0xFF past the end of the data (R275). -/
theorem Programmable.stores (h : Programmable address n i s) : ∀ k < n, ∀ j < 4,
    flashByte (programWords address data n i s) ((address + BitVec.ofNat 32 (i + 4 * k)).toNat + j) =
      data.getD (i + 4 * k + j) 0xFF := by
  induction n generalizing i s with
  | zero => intro k hk; omega
  | succ n ih =>
    intro k hk j hj
    simp only [programWords, Config.wordBytes]
    have hnext := h.next (dataWord data i)
    cases k with
    | succ k => simpa only [show i + 4 + 4 * k = i + 4 * (k + 1) by omega] using ih hnext k (by omega) j hj
    | zero =>
      have honly := programWords_flashOnly address data (fun x => ∃ k < n, InWord address (i + 4 + 4 * k) x) n (i + 4)
        (flashProgramWord (address + BitVec.ofNat 32 i) (dataWord data i) s).2
        (fun k hk _ _ x hle hlt => ⟨k, hk, hle, hlt⟩) hnext.offset
      simp only [Nat.mul_zero, Nat.add_zero]
      rw [honly.outside, h.first_byte _ hj, extractLsb'_dataWord data i hj]
      rintro ⟨k, hk, hin⟩
      have hfits := h.fits
      have hoffset := h.offset
      exact (inWord_add hj).disjoint hoffset (by omega) (by omega) (by omega) (by omega) hin

theorem eq_replicate_append_of_take {α : Type} {xs : List α} {a : α} (hn : n ≤ xs.length)
    (h : ∀ x ∈ xs.take n, x = a) : xs = List.replicate n a ++ xs.drop n := by
  have htake : xs.take n = List.replicate n a := List.eq_replicate_iff.2 ⟨by simpa using hn, h⟩
  rw [← htake, List.take_append_drop]

/-- An accepted WRITE is the loop between unlock and lock, and an ack (R264, R274, R277). -/
theorem exec_cmdWrite_accepted {p : List Byte} (hl : p.length = 8 + (rangeOf p).size.toNat) (hp : ¬ meetsProtected p) :
    exec (.cmdWrite p) s =
      .next (ack 0x22 (writeRange (rangeOf p) (p.drop 8) (beginDispatch .decoderReset s))) := by
  have hoperand : writeOperand p = some (rangeOf p, p.drop 8) := if_pos ⟨by omega, hl⟩
  have hprot : (rangeOf p).intersectsProtected = false := by
    rw [← Bool.not_eq_true, intersectsProtected_iff]
    exact hp
  simp only [exec, execCmdWrite, hoperand, hprot, Bool.false_eq_true, if_false]

theorem wordAddress_eq (r : Range) (k : Nat) : r.address + BitVec.ofNat 32 (0 + 4 * k) = wordAddress r k := by
  apply BitVec.eq_of_toNat_eq
  simp [wordAddress]

/-- The i-th address of a range is a byte of its word number `i / 4`. -/
theorem readAddress_eq {r : Range} (ha : r.address.toNat % 4 = 0) (i : Nat) :
    readAddress r i = (wordAddress r (i / 4)).toNat + i % 4 := by
  simp only [readAddress, wordAddress, BitVec.toNat_ofNat]
  omega

end Sys2Proof.Machine

namespace Sys2Proof.Proofs

open Sys2Proof.Machine Sys2Proof.Safety

/-- Settles O47: the range's words can all be programmed, and the loop stores the data in them. -/
theorem writeToErasedWordsStoresTheData : Obligations.WriteToErasedWordsStoresTheData := by
  unfold Obligations.WriteToErasedWordsStoresTheData
  intro s p hwf hl hmax hp ha hs he hok hlen
  refine ⟨_, exec_cmdWrite_accepted hl hp, fun i hi => ?_⟩
  have hready : Programmable (rangeOf p).address (wordCount (rangeOf p).size.toNat) 0
      (flashUnlock (beginDispatch .decoderReset s)) :=
    { aligned := ha
      offset := rfl
      fits := by simp only [wordCount, Config.wordBytes]; omega
      unlocked := rfl
      form := hwf
      inSector := fun k hk => by rw [wordAddress_eq]; exact hs k hk
      erased := fun k hk x hx => he x ⟨k, hk, by rwa [InWord, wordAddress_eq] at hx⟩
      listed := ⟨_, eq_replicate_append_of_take hlen hok⟩ }
  have hstored := hready.stores (data := p.drop 8) (i / 4) (by omega) (i % 4) (by omega)
  rw [wordAddress_eq, ← readAddress_eq ha, show 0 + 4 * (i / 4) + i % 4 = i by omega,
    List.getD_eq_getElem?_getD] at hstored
  exact hstored
end Sys2Proof.Proofs
end

section
/-! A put and a dispatch commute (R84, R220): no command reads or writes what a put writes. -/

namespace Sys2Proof.Machine

/-! ### What a put writes -/

/-- The state with a put's three writes made (R144, R145): the slots, the write cursor and the result. -/
def withPut (m : Memory) (w : Nat) (r : Option Bool) (s : State) : State :=
  { s with fifoMem := m, fifoWr := w, putResult := r }

theorem fifo_eq_of_fifoView_eq {s t : State} (h : fifoView t = fifoView s) :
    t.params = s.params ∧ t.fifoMem = s.fifoMem ∧ t.fifoWr = s.fifoWr ∧ t.fifoRd = s.fifoRd := by
  simpa [fifoView] using h

/-- What a put writes depends on the FIFO alone. -/
theorem exec_fifoPut_withPut (b : Byte) (s : State) : ∃ m w r, ∀ t, fifoView t = fifoView s →
    exec (.fifoPut b) t = .next (withPut m w r t) := by
  cases hf : fifoIsFull s with
  | true =>
    refine ⟨s.fifoMem, s.fifoWr, some false, fun t ht => ?_⟩
    obtain ⟨hp, hm, hw, hr⟩ := fifo_eq_of_fifoView_eq ht
    have hft : fifoIsFull t = true := by rw [← hf]; simp only [fifoIsFull, hp, hw, hr]
    simp only [exec, execFifoPut, hft, if_true, withPut, ← hm, ← hw]
  | false =>
    refine ⟨(putSlot b s).fifoMem, (putSlot b s).fifoWr, some true, fun t ht => ?_⟩
    obtain ⟨hp, hm, hw, hr⟩ := fifo_eq_of_fifoView_eq ht
    have hft : fifoIsFull t = false := by rw [← hf]; simp only [fifoIsFull, hp, hw, hr]
    simp only [exec, execFifoPut, hft, Bool.false_eq_true, if_false, putSlot, withPut, hp, hm, hw]

/-! ### The flash primitives under a put's writes -/

section Commutes

variable (m : Memory) (w : Nat) (r : Option Bool) (s : State)

theorem nextResult_withPut :
    nextResult (withPut m w r s) = ((nextResult s).1, withPut m w r (nextResult s).2) := by
  cases h : s.flashResults <;> simp [nextResult, withPut, h]

theorem eraseSpan_withPut (start size : Nat) :
    eraseSpan start size (withPut m w r s) = withPut m w r (eraseSpan start size s) := by
  have hl : (withPut m w r s).flashLocked = s.flashLocked := rfl
  simp only [eraseSpan, nextResult_withPut, hl]
  rcases nextResult s with ⟨answer, t⟩
  cases s.flashLocked <;> cases answer <;> rfl

theorem flashEraseSector_withPut (id : Nat) :
    flashEraseSector id (withPut m w r s) = withPut m w r (flashEraseSector id s) := by
  have hp : (withPut m w r s).params = s.params := rfl
  simp only [flashEraseSector, hp]
  cases (spans s.params)[id]? with
  | none => rfl
  | some sp => exact eraseSpan_withPut m w r (request (.eraseSector id) s) sp.1 sp.2

theorem eraseWalk_withPut (range : Range) (sectors : List (Nat × Nat)) (j : Nat) :
    eraseWalk range sectors j (withPut m w r s) = withPut m w r (eraseWalk range sectors j s) := by
  induction sectors generalizing j s with
  | nil => rfl
  | cons sp rest ih =>
    simp only [eraseWalk]
    split
    · rw [flashEraseSector_withPut, ih]
    · rw [ih]

theorem eraseRange_withPut (range : Range) : eraseRange range (withPut m w r s) = withPut m w r (eraseRange range s) :=
  congrArg flashLock (eraseWalk_withPut m w r (flashUnlock s) range (spans s.params) 0)

theorem programWord_withPut (addr d : Word) :
    programWord addr d (withPut m w r s) = ((programWord addr d s).1, withPut m w r (programWord addr d s).2) := by
  have hl : (withPut m w r s).flashLocked = s.flashLocked := rfl
  have hp : (withPut m w r s).params = s.params := rfl
  simp only [programWord, nextResult_withPut, hl, hp]
  rcases nextResult s with ⟨answer, t⟩
  have he : wordErased (withPut m w r t) addr.toNat = wordErased t addr.toNat := rfl
  split
  · rfl
  · split
    · rfl
    · split
      · rfl
      · cases answer with
        | ok =>
          simp only [he]
          cases wordErased t addr.toNat <;> rfl
        | fail => rfl

theorem programWords_withPut (address : Word) (data : List Byte) (n i : Nat) :
    programWords address data n i (withPut m w r s) = withPut m w r (programWords address data n i s) := by
  induction n generalizing i s with
  | zero => rfl
  | succ n ih =>
    have hfirst := congrArg Prod.snd (programWord_withPut m w r
      (request (.programWord (address + BitVec.ofNat 32 i) (dataWord data i)) s)
      (address + BitVec.ofNat 32 i) (dataWord data i))
    simp only [programWords]
    rw [← ih]
    exact congrArg (programWords address data n (i + Config.wordBytes)) hfirst

theorem writeRange_withPut (range : Range) (data : List Byte) :
    writeRange range data (withPut m w r s) = withPut m w r (writeRange range data s) :=
  congrArg flashLock (programWords_withPut m w r (flashUnlock s) range.address data (wordCount range.size.toNat) 0)

theorem memReadBytes_withPut (n k : Nat) (addr : Word) :
    memReadBytes (withPut m w r s) n k addr = memReadBytes s n k addr := by
  have hbyte : memReadByte (withPut m w r s) = memReadByte s := rfl
  induction n generalizing k addr with
  | zero => rfl
  | succ n ih => simp only [memReadBytes, hbyte, ih]

theorem memRead_withPut (range : Range) :
    memRead range (withPut m w r s) = ((memRead range s).1, withPut m w r (memRead range s).2) := by
  simp only [memRead, memReadBytes_withPut]
  rfl

/-! ### The commands under a put's writes -/

/-- The outcome with a change made to its state. -/
def mapNext (f : State → State) : Host.Outcome State Fault Refusal → Host.Outcome State Fault Refusal
  | .next t => .next (f t)
  | .fault e => .fault e
  | .refused e => .refused e

theorem execCmdErase_withPut (p : List Byte) :
    execCmdErase p (withPut m w r s) = mapNext (withPut m w r) (execCmdErase p s) := by
  have hb : beginDispatch .decoderReset (withPut m w r s) = withPut m w r (beginDispatch .decoderReset s) := rfl
  simp only [execCmdErase, hb, eraseRange_withPut]
  cases eraseOperand p with
  | none => rfl
  | some range =>
    simp only [apply_ite (mapNext (withPut m w r))]
    rfl

theorem execCmdWrite_withPut (p : List Byte) :
    execCmdWrite p (withPut m w r s) = mapNext (withPut m w r) (execCmdWrite p s) := by
  have hb : beginDispatch .decoderReset (withPut m w r s) = withPut m w r (beginDispatch .decoderReset s) := rfl
  simp only [execCmdWrite, hb, writeRange_withPut]
  cases writeOperand p with
  | none => rfl
  | some operand =>
    simp only [apply_ite (mapNext (withPut m w r))]
    rfl

theorem execCmdVerify_withPut (p : List Byte) :
    execCmdVerify p (withPut m w r s) = mapNext (withPut m w r) (execCmdVerify p s) := by
  have hb : beginDispatch .decoderReset (withPut m w r s) = withPut m w r (beginDispatch .decoderReset s) := rfl
  simp only [execCmdVerify, hb, memRead_withPut]
  cases verifyOperand p with
  | none => rfl
  | some operand =>
    simp only [apply_ite (mapNext (withPut m w r))]
    rfl

theorem runCommand_withPut (op : Byte) (p : List Byte) :
    runCommand op p (withPut m w r s) = mapNext (withPut m w r) (runCommand op p s) := by
  simp only [runCommand, apply_ite (mapNext (withPut m w r)), execCmdErase_withPut, execCmdWrite_withPut,
    execCmdVerify_withPut]
  rfl

/-- A dispatch gives the same outcome under a put's writes, with those writes made. -/
theorem execEngDispatch_withPut :
    execEngDispatch (withPut m w r s) = mapNext (withPut m w r) (execEngDispatch s) := by
  have hrun := runCommand_withPut m w r s s.decOpcode (heldPayload s)
  simp only [execEngDispatch, apply_ite (mapNext (withPut m w r)), ← hrun]
  rfl

end Commutes

end Sys2Proof.Machine

namespace Sys2Proof.Proofs

open Sys2Proof.Machine

/-- Settles O16: the dispatch leaves the FIFO alone, so a put writes the same before and after it, and the dispatch does
the same under those writes. -/
theorem putCommutesWithDispatch : Obligations.PutCommutesWithDispatch := by
  unfold Obligations.PutCommutesWithDispatch
  intro s t b h
  obtain ⟨m, w, r, hput⟩ := exec_fifoPut_withPut b s
  refine ⟨withPut m w r t, withPut m w r s, hput t (dispatch_fifoView_eq h), hput s rfl, ?_⟩
  calc exec .engDispatch (withPut m w r s) = mapNext (withPut m w r) (exec .engDispatch s) :=
        execEngDispatch_withPut m w r s
    _ = .next (withPut m w r t) := by rw [h]; rfl

end Sys2Proof.Proofs
end

section
/-! Frames as bytes (R100 to R107): decoding answers an instruction on exactly the bytes that begin with a frame, and
where the fields of a frame stand. -/

namespace Sys2Proof

/-! ### The fields of a frame (R101 to R103) -/

/-- A frame, byte by byte: start, opcode, the two length bytes, the payload and the CRC's bytes (R101). -/
theorem frame_eq_cons (c : Config.CrcSpec) (op : Byte) (p : List Byte) :
    frame c op p = Config.startMarker :: op :: (BitVec.ofNat 16 p.length).extractLsb' 0 8 ::
      (BitVec.ofNat 16 p.length).extractLsb' 8 8 :: (p ++ bytes32 (crc32 c (frameBody op p))) := rfl

/-- The CRC covers the first `4 + length` bytes (R103). -/
theorem take_frame (c : Config.CrcSpec) (op : Byte) (p : List Byte) :
    (frame c op p).take (4 + p.length) = frameBody op p :=
  List.take_left' (length_frameBody op p)

theorem drop_frame (c : Config.CrcSpec) (op : Byte) (p : List Byte) :
    (frame c op p).drop (4 + p.length) = bytes32 (crc32 c (frameBody op p)) :=
  List.drop_left' (length_frameBody op p)

theorem getElem?_frame_payload (c : Config.CrcSpec) (op : Byte) (p : List Byte) {k : Nat} (hk : k < p.length) :
    (frame c op p)[4 + k]? = p[k]? := by
  rw [frame_eq_cons, Nat.add_comm 4 k]
  exact List.getElem?_append_left hk

/-- A payload's length fits the length field (R105). -/
theorem toNat_ofNat_length {p : List Byte} (hp : p.length ≤ 4096) : (BitVec.ofNat 16 p.length).toNat = p.length := by
  rw [BitVec.toNat_ofNat]
  exact Nat.mod_eq_of_lt (by omega)

/-- The bytes of a half, the least significant first, add up to it (R100). -/
theorem toNat_bytes16 (v : Half) : (v.extractLsb' 0 8).toNat + 256 * (v.extractLsb' 8 8).toNat = v.toNat := by
  rw [← le16_toNat, le16_bytes16]

/-- The bytes of a word, the least significant first, add up to it (R100). -/
theorem toNat_bytes32 (v : Word) :
    (v.extractLsb' 0 8).toNat + 2 ^ 8 * (v.extractLsb' 8 8).toNat + 2 ^ 16 * (v.extractLsb' 16 8).toNat +
      2 ^ 24 * (v.extractLsb' 24 8).toNat = v.toNat := by
  rw [← le32_toNat, le32_bytes32]

/-! ### Decoding answers exactly on frames (R101 to R107) -/

/-- What `decodeBody` answers where the payload and the CRC of the frame stand at the head of its bytes. -/
theorem decodeBody_append (c : Config.CrcSpec) (op : Byte) (p rest : List Byte) :
    decodeBody c op p.length (p ++ (bytes32 (crc32 c (frameBody op p)) ++ rest)) = .instr (selectCommand op p) rest := by
  simp only [decodeBody, List.drop_left, List.take_left, bytes32, List.cons_append, List.nil_append,
    le32_bytes32, if_true]

/-- `decodeBody` answers an instruction only where `length` payload bytes and their frame's CRC stand at the head. -/
theorem decodeBody_eq_instr {c : Config.CrcSpec} {op : Byte} {n : Nat} {bs rest : List Byte} {i : Instr}
    (h : decodeBody c op n bs = .instr i rest) :
    ∃ p, p.length = n ∧ i = selectCommand op p ∧ bs = p ++ (bytes32 (crc32 c (frameBody op p)) ++ rest) := by
  unfold decodeBody at h
  split at h
  · next c0 c1 c2 c3 tail hdrop =>
    split at h
    · next hcrc =>
      obtain ⟨rfl, rfl⟩ := Decoded.instr.inj h
      have hlen : n ≤ bs.length := by
        have := congrArg List.length hdrop
        rw [List.length_drop, List.length_cons] at this
        omega
      refine ⟨bs.take n, List.length_take_of_le hlen, rfl, ?_⟩
      rw [← hcrc, bytes32_le32]
      exact (List.take_append_drop n bs).symm.trans (congrArg (bs.take n ++ ·) hdrop)
    · nomatch h
  · nomatch h

/-- A frame with bytes after it decodes to the command that its opcode selects, and those bytes are left. -/
theorem decode_frame_append (c : Config.CrcSpec) (op : Byte) {p : List Byte} (rest : List Byte)
    (hp : p.length ≤ 4096) : decode c (frame c op p ++ rest) = .instr (selectCommand op p) rest := by
  have hmax : p.length ≤ Config.maxPayload := hp
  simp only [frame_eq_cons, List.cons_append, List.append_assoc, decode, le16_bytes16, toNat_ofNat_length hp, if_true,
    hmax, decodeBody_append]

theorem decode_frame (c : Config.CrcSpec) (op : Byte) {p : List Byte} (hp : p.length ≤ 4096) :
    decode c (frame c op p) = .instr (selectCommand op p) [] := by
  simpa using decode_frame_append c op [] hp

/-- Bytes that are worked out to be a frame decode to the command that its opcode selects. -/
theorem decode_of_frame_eq {c : Config.CrcSpec} {op : Byte} {p bytes : List Byte} (hp : p.length ≤ 4096)
    (h : frame c op p = bytes) : decode c bytes = .instr (selectCommand op p) [] :=
  h ▸ decode_frame c op hp

/-- Bytes that decode to an instruction begin with the frame of the opcode that selects it. -/
theorem decode_eq_instr {c : Config.CrcSpec} {bytes rest : List Byte} {i : Instr} (h : decode c bytes = .instr i rest) :
    ∃ op p, p.length ≤ 4096 ∧ i = selectCommand op p ∧ bytes = frame c op p ++ rest := by
  unfold decode at h
  split at h
  · nomatch h
  split at h
  · next hstart =>
    split at h
    · next op l0 l1 body =>
      split at h
      · next hmax =>
        obtain ⟨p, hlen, rfl, rfl⟩ := decodeBody_eq_instr h
        have hfield : bytes16 (BitVec.ofNat 16 p.length) = [l0, l1] := by
          rw [hlen, BitVec.ofNat_toNat, BitVec.setWidth_eq, bytes16_le16]
        refine ⟨op, p, hlen ▸ hmax, rfl, ?_⟩
        simp only [hstart, frame, frameBody, hfield, List.cons_append, List.nil_append, List.append_assoc]
      · nomatch h
    · nomatch h
  · nomatch h

/-! ### Encoding -/

/-- Only a wire command has an encoding, and it is the frame of its fields. -/
theorem encode_eq_some {c : Config.CrcSpec} {i : Instr} {bytes : List Byte} (h : encode c i = some bytes) :
    ∃ op p, wireFields i = some (op, p) ∧ bytes = frame c op p := by
  obtain ⟨⟨op, p⟩, hfields, rfl⟩ := Option.map_eq_some_iff.1 h
  exact ⟨op, p, hfields, rfl⟩

theorem encode_selectCommand (c : Config.CrcSpec) (op : Byte) (p : List Byte) :
    encode c (selectCommand op p) = some (frame c op p) := by
  rw [encode, wireFields_selectCommand]
  rfl

/-- An opcode without a row of its own selects the unrecognized-opcode command (R107). -/
theorem selectCommand_of_notMem {op : Byte} (p : List Byte) (h : op ∉ assignedOpcodes) :
    selectCommand op p = .cmdUnrecognized op p := by
  simp only [assignedOpcodes, List.mem_cons, List.not_mem_nil, or_false, not_or] at h
  simp only [selectCommand, h, if_false]

end Sys2Proof

namespace Sys2Proof.Proofs

/-- Settles O1: the encoding is a frame, and a frame decodes to the command that its opcode selects. -/
theorem encodedCommandDecodesToItself : Obligations.EncodedCommandDecodesToItself := by
  unfold Obligations.EncodedCommandDecodesToItself
  intro c i bytes rest hwf hencode
  obtain ⟨op, p, hfields, rfl⟩ := encode_eq_some hencode
  obtain ⟨rfl, hp⟩ := eq_selectCommand hwf hfields
  exact decode_frame_append c op rest hp

/-- Settles O2: bytes that decode begin with a frame, and a frame is the encoding of the command that its opcode
selects. -/
theorem decodedBytesAreTheCommandsFrame : Obligations.DecodedBytesAreTheCommandsFrame := by
  unfold Obligations.DecodedBytesAreTheCommandsFrame
  intro c bytes rest i h
  obtain ⟨op, p, hp, rfl, rfl⟩ := decode_eq_instr h
  exact ⟨wf_selectCommand op hp, frame c op p, encode_selectCommand c op p, rfl⟩

/-- Settles O3: the frame is its body followed by the bytes of the body's CRC. -/
theorem frameFieldsStandAtTheirOffsets : Obligations.FrameFieldsStandAtTheirOffsets := by
  unfold Obligations.FrameFieldsStandAtTheirOffsets
  intro c op p hp
  refine ⟨length_frame c op p, rfl, rfl, ⟨_, _, rfl, rfl, ?_⟩, fun k hk => getElem?_frame_payload c op p hk,
    _, _, _, _, drop_frame c op p, ?_⟩
  · rw [toNat_bytes16, toNat_ofNat_length hp]
  · rw [toNat_bytes32, take_frame]

/-- Settles O4: eight rows of the opcode map, and every other opcode. -/
theorem opcodeAloneSelectsTheCommand : Obligations.OpcodeAloneSelectsTheCommand := by
  unfold Obligations.OpcodeAloneSelectsTheCommand
  exact fun p => ⟨rfl, rfl, rfl, rfl, rfl, rfl, rfl, rfl, fun op h => selectCommand_of_notMem p h⟩

/-- Settles O5: each vector is the frame of its opcode and payload, which the CRC's computation shows. -/
theorem vectorFramesDecode : Obligations.VectorFramesDecode := by
  unfold Obligations.VectorFramesDecode
  refine ⟨decode_of_frame_eq (op := 0x10) (p := [0x00]) ?_ ?_, decode_of_frame_eq (op := 0x21) (p := []) ?_ ?_,
    decode_of_frame_eq (op := 0x00) (p := []) ?_ ?_, decode_of_frame_eq (op := 0x7E) (p := []) ?_ ?_,
    decode_of_frame_eq (op := 0x20) (p := [0x00, 0x00, 0x00, 0x08, 0x00, 0x10, 0x00, 0x00]) ?_ ?_⟩ <;> decide +kernel

end Sys2Proof.Proofs
end

section
/-! Every step keeps the invariant (R153, R184, R357, R45, R141, R230). Each operation that a step can run goes on, from
a state that meets the invariant to one that meets it. -/

namespace Sys2Proof.Machine

open Sys2Proof.Safety

/-- The outcome is a next state that meets the invariant. -/
def NextInv (o : Host.Outcome State Fault Refusal) : Prop := ∃ t, o = .next t ∧ Inv t

theorem nextInv_next {t : State} (h : Inv t) : NextInv (.next t) := ⟨t, rfl, h⟩

theorem NextInv.inv {o : Host.Outcome State Fault Refusal} {t : State} (h : NextInv o) (ht : o = .next t) : Inv t := by
  obtain ⟨u, hu, hinv⟩ := h
  rw [ht] at hu
  injection hu with hu
  exact hu ▸ hinv

variable {s : State}

theorem inv_blockReset (h : Inv s) : Inv (blockReset s) := by
  have := two_le_slots h.config
  refine ⟨h.config, ⟨?_, ?_⟩, ?_, ?_, h.flashForm, rfl, ?_, rfl, ⟨rfl, rfl⟩, fun _ => ⟨rfl, rfl⟩⟩
  · rw [blockReset_fifoWr, blockReset_params]; omega
  · rw [blockReset_fifoRd, blockReset_params]; omega
  all_goals simp [Memory.wf]

/-! ### What each phase gives (R44, R230) -/

theorem engine_idle (h : Inv s) (hp : s.engPhase = .idle) : s.frameReady = false ∧ s.engAfterTx = .none := by
  simpa only [EngineOk, hp] using h.engine

theorem engine_dispatch (h : Inv s) (hp : s.engPhase = .dispatch) : HoldsFrame s ∧ s.engAfterTx = .none := by
  simpa only [EngineOk, hp] using h.engine

theorem engine_tx (h : Inv s) (hp : s.engPhase = .tx) : s.txIdx < s.txBuf.length ∧
    (s.engAfterTx = .none → s.frameReady = false ∧ s.decState = .awaitingStart) ∧
    (s.engAfterTx ≠ .none → HoldsFrame s) := by
  simpa only [EngineOk, hp] using h.engine

/-! ### The decoder's arms (R171 to R181) -/

/-- The second length byte (R174). -/
theorem inv_judgeLength (h : Inv s) (hp : s.engPhase = .idle) : Inv (judgeLength s) := by
  unfold judgeLength
  split
  · exact inv_error codeErrOverflow h hp
  · next hmax =>
    split
    · exact inv_idle h hp rfl h.payloadForm ⟨Nat.not_lt.1 hmax, Nat.zero_le 3⟩
    · next hzero =>
      have hpos : 0 < s.decLength.toNat := Nat.pos_of_ne_zero fun e => hzero (BitVec.eq_of_toNat_eq e)
      exact inv_idle h hp rfl h.payloadForm ⟨hpos, Nat.not_lt.1 hmax, hpos⟩

/-- The fourth CRC byte (R177, R178). -/
theorem inv_judgeCrc (h : Inv s) (hp : s.engPhase = .idle) (hd : s.decState = .awaitingCrc) : Inv (judgeCrc s) := by
  unfold judgeCrc
  split
  · exact ⟨h.config, h.cursors, h.fifoForm, h.payloadForm, h.flashForm, h.locked, h.response, h.decoder,
      ⟨⟨rfl, hd⟩, (engine_idle h hp).2⟩, fun _ => h.requests (by simp [hp])⟩
  · exact inv_error codeErrVerify h hp

theorem toNat_add_one {i : BitVec 13} (h : i.toNat < 4096) : (i + 1).toNat = i.toNat + 1 := by
  rw [BitVec.toNat_add]
  exact Nat.mod_eq_of_lt (by simp; omega)

/-- A length byte (R173, R174). -/
theorem feed_awaitingLength_nextInv (b : Byte) (h : Inv s) (hp : s.engPhase = .idle)
    (hd : s.decState = .awaitingLength) : NextInv (feed b s) := by
  have hok : s.decIdx.toNat ≤ 1 := by simpa only [DecoderOk, hd] using h.decoder
  rcases Nat.le_one_iff_eq_zero_or_eq_one.1 hok with hi | hi
  · rw [feed_firstLength hd (BitVec.eq_of_toNat_eq hi)]
    refine nextInv_next (inv_idle (inv_answerFalse h) hp rfl h.payloadForm ?_)
    simp only [DecoderOk, answerFalse_decState, hd, toNat_add_one (show s.decIdx.toNat < 4096 by omega), hi]
    omega
  · rw [feed_secondLength hd (BitVec.eq_of_toNat_eq hi)]
    refine nextInv_next (inv_judgeLength (inv_idle (inv_answerFalse h) hp rfl h.payloadForm ?_) hp)
    simpa only [DecoderOk, answerFalse_decState, answerFalse_decIdx, hd] using hok

/-- A payload byte (R175, R176). -/
theorem feed_awaitingPayload_nextInv (b : Byte) (h : Inv s) (hp : s.engPhase = .idle)
    (hd : s.decState = .awaitingPayload) : NextInv (feed b s) := by
  obtain ⟨hpos, hmax, hlt⟩ : 1 ≤ s.decLength.toNat ∧ s.decLength.toNat ≤ Config.maxPayload ∧
      s.decIdx.toNat < s.decLength.toNat := by
    simpa only [DecoderOk, hd] using h.decoder
  have hidx : s.decIdx.toNat < 4096 := Nat.lt_of_lt_of_le hlt hmax
  have hstored := inv_storePayload b (s := answerFalse s) h.payloadForm hidx
  rcases Nat.lt_or_eq_of_le (Nat.succ_le_of_lt hlt) with hnext | hlast
  · rw [feed_payload hd hidx hnext]
    refine nextInv_next (inv_idle (inv_answerFalse h) hp rfl hstored ?_)
    have hcount : (countByte (storePayload b (answerFalse s))).decIdx.toNat = s.decIdx.toNat + 1 := toNat_add_one hidx
    simp only [DecoderOk, countByte_decState, storePayload_decState, answerFalse_decState, hd, hcount]
    exact ⟨hpos, hmax, hnext⟩
  · rw [feed_lastPayload hd hidx hlast]
    exact nextInv_next (inv_idle (inv_answerFalse h) hp rfl hstored ⟨hmax, Nat.zero_le 3⟩)

/-- A CRC byte (R177 to R179). -/
theorem feed_awaitingCrc_nextInv (b : Byte) (h : Inv s) (hp : s.engPhase = .idle)
    (hd : s.decState = .awaitingCrc) : NextInv (feed b s) := by
  obtain ⟨hmax, hle⟩ : s.decLength.toNat ≤ Config.maxPayload ∧ s.decIdx.toNat ≤ 3 := by
    simpa only [DecoderOk, hd] using h.decoder
  rcases Nat.lt_or_eq_of_le hle with hnext | hlast
  · rw [feed_crc hd hnext]
    refine nextInv_next (inv_idle (inv_answerFalse h) hp rfl h.payloadForm ?_)
    simp only [DecoderOk, answerFalse_decState, answerFalse_decLength, hd,
      toNat_add_one (show s.decIdx.toNat < 4096 by omega)]
    exact ⟨hmax, hnext⟩
  · rw [feed_lastCrc hd (BitVec.eq_of_toNat_eq hlast) hmax]
    refine nextInv_next (inv_judgeCrc (inv_idle (inv_answerFalse h) hp rfl h.payloadForm ?_) hp hd)
    simpa only [DecoderOk, answerFalse_decState, answerFalse_decLength, answerFalse_decIdx, hd] using ⟨hmax, hle⟩

/-- `feed` in IDLE, over the decoder's states; the invariant excludes those that are not in the table (R184). -/
theorem feed_nextInv (b : Byte) (h : Inv s) (hp : s.engPhase = .idle) : NextInv (feed b s) := by
  cases hd : s.decState with
  | awaitingStart =>
    have hidx : s.decIdx = 0 := by simpa only [DecoderOk, hd] using h.decoder
    rw [feed_awaitingStart hd]
    split
    · exact nextInv_next (inv_idle (inv_answerFalse h) hp rfl h.payloadForm hidx)
    · exact nextInv_next (inv_answerFalse h)
  | awaitingOpcode =>
    rw [feed_awaitingOpcode hd]
    exact nextInv_next (inv_idle (inv_answerFalse h) hp rfl h.payloadForm (Nat.zero_le 1))
  | awaitingLength => exact feed_awaitingLength_nextInv b h hp hd
  | awaitingPayload => exact feed_awaitingPayload_nextInv b h hp hd
  | awaitingCrc => exact feed_awaitingCrc_nextInv b h hp hd
  | corrupt k => exact absurd h.decoder (by simp only [DecoderOk, hd, not_false_eq_true])

/-! ### The response (R229, R230) -/

theorem inv_handOver (b : Byte) (h : Inv s) (hp : s.engPhase = .tx) (hlt : s.txIdx + 1 < s.txBuf.length) :
    Inv (handOver b s) := by
  obtain ⟨-, hnone, hframe⟩ := engine_tx h hp
  refine ⟨h.config, h.cursors, h.fifoForm, h.payloadForm, h.flashForm, h.locked, h.response, h.decoder, ?_, h.requests⟩
  simp only [EngineOk, handOver_engPhase, hp]
  exact ⟨hlt, hnone, hframe⟩

/-- The end of a response keeps the frame of a BOOT or RESET, which HALTED allows (R230, log entry 9). -/
theorem inv_endOfTransmit_handOver (b : Byte) (h : Inv s) (hp : s.engPhase = .tx) :
    Inv (endOfTransmit (handOver b s)) := by
  obtain ⟨-, hnone, hframe⟩ := engine_tx h hp
  obtain ⟨hboot, hreset⟩ := h.requests (by simp [hp])
  cases ha : s.engAfterTx <;> simp only [endOfTransmit, handOver_engAfterTx, ha]
  case none =>
    exact ⟨h.config, h.cursors, h.fifoForm, h.payloadForm, h.flashForm, h.locked, h.response, h.decoder,
      ⟨(hnone ha).1, rfl⟩, fun _ => ⟨hboot, hreset⟩⟩
  case decoderReset =>
    exact ⟨h.config, h.cursors, h.fifoForm, h.payloadForm, h.flashForm, h.locked, h.response, rfl,
      ⟨rfl, rfl⟩, fun _ => ⟨hboot, hreset⟩⟩
  case boot =>
    exact ⟨h.config, h.cursors, h.fifoForm, h.payloadForm, h.flashForm, h.locked, h.response, h.decoder,
      ⟨hframe (by simp [ha]), .inl ⟨rfl, rfl, hreset⟩⟩, fun hne => absurd rfl hne⟩
  case reset =>
    exact ⟨h.config, h.cursors, h.fifoForm, h.payloadForm, h.flashForm, h.locked, h.response, h.decoder,
      ⟨hframe (by simp [ha]), .inr ⟨rfl, hboot, rfl⟩⟩, fun hne => absurd rfl hne⟩

/-! ### A dispatch (R220) -/

/-- A command that is dispatched leaves flash in its form and locked, and a response of at most 11 bytes. -/
theorem CommandDone.inv {op : Byte} {p : List Byte} {t : State} (hdone : CommandDone op p s t) (h : Inv s)
    (hp : s.engPhase = .dispatch) : Inv t := by
  obtain @⟨after, q, w, _, hflash, hafter, hshort, -, -, hlocked⟩ := hdone
  have hform := hflash.form h.flashForm.1
  have hlisted := hflash.listed
  have hlock := hlocked (.inl h.locked)
  have hlen : ∀ c, (frame c op q).length ≤ Config.frameOverhead + 3 ∧ 0 < (frame c op q).length := fun c => by
    rw [length_frame]; simp only [Config.frameOverhead]; omega
  have hframe := (engine_dispatch h hp).1
  rw [hflash.frame] at hform hlisted hlock ⊢
  refine ⟨h.config, h.cursors, h.fifoForm, h.payloadForm, ⟨hform, fun c hc => ?_⟩, hlock, (hlen _).1, h.decoder,
    ⟨(hlen _).2, fun hnone => absurd hnone hafter, fun _ => hframe⟩, fun _ => h.requests (by simp [hp])⟩
  rcases hlisted c hc with hin | hold
  · exact hin.1
  · exact h.flashForm.2 c hold

/-! ### The operations that a step runs -/

theorem execFifoPut_nextInv (b : Byte) (h : Inv s) : NextInv (execFifoPut b s) := by
  refine nextInv_next ?_
  split
  · exact inv_of_same h rfl
  · exact inv_put h b

theorem execFifoGet_nextInv (h : Inv s) : NextInv (execFifoGet s) := by
  refine nextInv_next ?_
  split
  · exact inv_of_same h rfl
  · exact inv_take h

theorem execDecFeed_nextInv (h : Inv s) : NextInv (execDecFeed s) := by
  unfold execDecFeed
  split
  · next hp => exact feed_nextInv _ (inv_takeByte h) hp.1
  · exact nextInv_next h

theorem execDecTimeout_nextInv (h : Inv s) : NextInv (execDecTimeout s) := by
  unfold execDecTimeout
  split
  · next hp =>
    split
    · refine nextInv_next ?_
      split
      · exact inv_reset_idle h hp.1
      · exact h
    · exact nextInv_next (inv_of_same h rfl)
  · exact nextInv_next h

theorem execEngDispatch_nextInv (h : Inv s) : NextInv (exec .engDispatch s) := by
  by_cases hp : s.engPhase = .dispatch
  · obtain ⟨⟨-, hd⟩, -⟩ := engine_dispatch h hp
    have hok := h.decoder
    simp only [DecoderOk, hd] at hok
    obtain ⟨t, ht, hdone⟩ := command_done s (wireFields_selectCommand s.decOpcode (heldPayload s))
    exact ⟨t, (dispatch_eq hp hok.1).trans ht, hdone.inv h hp⟩
  · exact ⟨s, if_neg hp, h⟩

theorem execEngTx_nextInv (h : Inv s) : NextInv (execEngTx s) := by
  unfold execEngTx
  split
  · next hp =>
    have hlt := (engine_tx h hp).1
    rw [List.getElem?_eq_getElem hlt]
    refine nextInv_next ?_
    split
    · exact inv_endOfTransmit_handOver _ h hp
    · exact inv_handOver _ h hp (by omega)
  · exact nextInv_next h

/-- Each operation that a step can run goes on and keeps the invariant. -/
theorem exec_nextInv {i : Instr} (hi : stepOps i = true) (h : Inv s) : NextInv (exec i s) := by
  cases i with
  | fifoPut b => exact execFifoPut_nextInv b h
  | fifoGet => exact execFifoGet_nextInv h
  | fifoIsEmpty => exact nextInv_next (inv_of_same h rfl)
  | fifoFull => exact nextInv_next (inv_of_same h rfl)
  | decFeed => exact execDecFeed_nextInv h
  | decTimeout => exact execDecTimeout_nextInv h
  | engDispatch => exact execEngDispatch_nextInv h
  | engTx => exact execEngTx_nextInv h
  | _ => nomatch hi

end Sys2Proof.Machine

namespace Sys2Proof.Proofs

open Sys2Proof.Machine Sys2Proof.Safety

/-- Settles O53: over the ways in which a step goes on, each of which keeps the invariant. -/
theorem stepKeepsInvariant : Obligations.StepKeepsInvariant := by
  unfold Obligations.StepKeepsInvariant
  intro s t h hstep
  have hbegin := inv_begin h
  rcases step_cases hstep with rfl | ⟨ms, rfl⟩ | rfl | ⟨i, hi, -, hexec⟩
  · exact hbegin
  · exact inv_of_same hbegin rfl
  · exact inv_blockReset hbegin
  · exact (exec_nextInv hi hbegin).inv hexec

end Sys2Proof.Proofs
end

section
/-! The FIFO's four operations (R144 to R149, R152, R154), and a delivery of several bytes (R150). -/

namespace Sys2Proof.Machine

open Sys2Proof.Safety

variable {s : State} {b : Byte}

/-! ### One lemma per case of put and get -/

theorem fifoEmpty_eq_false_iff : fifoEmpty s = false ↔ s.fifoWr ≠ s.fifoRd := by
  rw [← Bool.not_eq_true, fifoEmpty_iff]

theorem fifoIsFull_eq_false_iff : fifoIsFull s = false ↔ (s.fifoWr + 1) % s.params.fifoSlots ≠ s.fifoRd := by
  rw [← Bool.not_eq_true, fifoIsFull_iff]

theorem exec_fifoPut_full (h : fifoIsFull s = true) :
    exec (.fifoPut b) s = .next { s with putResult := some false } := by
  simp only [exec, execFifoPut, h, if_true]

theorem exec_fifoPut_room (h : fifoIsFull s = false) : exec (.fifoPut b) s = .next (putSlot b s) := by
  simp only [exec, execFifoPut, h, Bool.false_eq_true, if_false]

theorem exec_fifoGet_empty (h : fifoEmpty s = true) : exec .fifoGet s = .next { s with getResult := some none } := by
  simp only [exec, execFifoGet, h, if_true]

theorem exec_fifoGet_nonempty (h : fifoEmpty s = false) : exec .fifoGet s = .next (takeSlot s) := by
  simp only [exec, execFifoGet, h, Bool.false_eq_true, if_false]

/-! ### The flags and the count after a put and after a get (R144, R146) -/

/-- A FIFO with room for a byte is not empty once the byte is put. -/
theorem fifoEmpty_putSlot (h : fifoIsFull s = false) : fifoEmpty (putSlot b s) = false :=
  fifoEmpty_eq_false_iff.2 (fifoIsFull_eq_false_iff.1 h)

theorem fifoSlot_putSlot (h : s.fifoMem.wf Config.slotFill) (i : Nat) :
    fifoSlot (putSlot b s) i = if i = s.fifoWr then b else fifoSlot s i := Memory.read_write h

section Cursors

variable (hN : 2 ≤ s.params.fifoSlots) (hw : s.fifoWr < s.params.fifoSlots) (hr : s.fifoRd < s.params.fifoSlots)

include hN hw hr

theorem fifoCount_putSlot (h : fifoIsFull s = false) : fifoCount (putSlot b s) = fifoCount s + 1 :=
  (count_put hN hw hr (fifoIsFull_eq_false_iff.1 h)).1

theorem fifoIsFull_putSlot_iff (h : fifoIsFull s = false) :
    fifoIsFull (putSlot b s) = true ↔ fifoCount (putSlot b s) = s.params.fifoSlots - 1 :=
  fifoIsFull_iff.trans (count_put hN hw hr (fifoIsFull_eq_false_iff.1 h)).2

theorem fifoCount_takeSlot (h : fifoEmpty s = false) : fifoCount (takeSlot s) + 1 = fifoCount s :=
  (count_get hN hw hr (fifoEmpty_eq_false_iff.1 h)).1

/-- A FIFO from which a byte has been taken is not full. -/
theorem fifoIsFull_takeSlot (h : fifoEmpty s = false) : fifoIsFull (takeSlot s) = false :=
  fifoIsFull_eq_false_iff.2 (count_get hN hw hr (fifoEmpty_eq_false_iff.1 h)).2.1

theorem fifoEmpty_takeSlot_iff (h : fifoEmpty s = false) :
    fifoEmpty (takeSlot s) = true ↔ fifoCount (takeSlot s) = 0 :=
  fifoEmpty_iff.trans (count_get hN hw hr (fifoEmpty_eq_false_iff.1 h)).2.2

/-- A full FIFO holds one byte fewer than it has slots (R35). -/
theorem fifoCount_of_full (h : fifoIsFull s = true) : fifoCount s = s.params.fifoSlots - 1 := by
  rw [fifoIsFull_iff, succ_mod hw] at h
  rw [fifoCount, count_eq hw hr]
  split at h <;> split <;> omega

end Cursors

/-! ### A put and a get at the same instant (R152) -/

theorem fifoEmpty_not_full (h : Inv s) (he : fifoEmpty s = true) : fifoIsFull s = false := by
  cases hf : fifoIsFull s with
  | false => rfl
  | true => exact absurd he (by simp [full_not_empty h hf])

/-- Where the FIFO is not empty a put leaves the slot at the read cursor alone, so put and get commute. -/
theorem putSlot_takeSlot (he : fifoEmpty s = false) : putSlot b (takeSlot s) = takeSlot (putSlot b s) := by
  have hslot : fifoSlot (putSlot b s) s.fifoRd = fifoSlot s s.fifoRd :=
    Memory.read_write_ne (fifoEmpty_eq_false_iff.1 he)
  simp only [takeSlot, putSlot_fifoRd, hslot]
  rfl

/-! ### A delivery (R150) -/

/-- How many bytes there is room for (R35). -/
def fifoRoom (s : State) : Nat := s.params.fifoSlots - 1 - fifoCount s

/-- The state after the turn in which a delivered byte is put (R144, R145). -/
def afterDelivered (b : Byte) (s : State) : State :=
  if fifoIsFull s then { s with frameDispatched := false, putResult := some false }
  else putSlot b { s with frameDispatched := false }

theorem step_deliver (bs : List Byte) (hc : configRefusal s.params = none) :
    step (deliver (b :: bs) s) = .next (deliver bs (afterDelivered b s)) := by
  have hparams : (deliver (b :: bs) s).params = s.params := rfl
  have hturn : nextTurn (deliver (b :: bs) s) = .rx b := rfl
  simp only [step, takeStep, hparams, hc, hturn, runTurn]
  cases hf : fifoIsFull s with
  | true =>
    rw [exec_fifoPut_full (s := beginTurn (deliver (b :: bs) s)) hf, afterDelivered, if_pos hf]
    rfl
  | false =>
    rw [exec_fifoPut_room (s := beginTurn (deliver (b :: bs) s)) hf, afterDelivered, if_neg (by simp [hf])]
    rfl

theorem afterDelivered_inputs : (afterDelivered b s).inputs = s.inputs := by
  unfold afterDelivered
  split <;> rfl

theorem inv_afterDelivered (h : Inv s) : Inv (afterDelivered b s) := by
  unfold afterDelivered
  split
  · exact inv_of_same h rfl
  · exact inv_put (inv_of_same h rfl) b

/-- A delivered byte is appended where there is room for it, and takes up one byte of the room. -/
theorem afterDelivered_held_room (h : Inv s) : fifoHeld (afterDelivered b s) = fifoHeld s ++ [b].take (fifoRoom s) ∧
    fifoRoom (afterDelivered b s) = fifoRoom s - 1 := by
  have hN := two_le_slots h.config
  obtain ⟨hw, hr⟩ := h.cursors
  have hlowered : Inv { s with frameDispatched := false } := inv_of_same h rfl
  cases hf : fifoIsFull s with
  | true =>
    have hroom : fifoRoom s = 0 := by rw [fifoRoom, fifoCount_of_full hN hw hr hf, Nat.sub_self]
    rw [afterDelivered, if_pos hf, hroom]
    exact ⟨(List.append_nil _).symm, hroom⟩
  | false =>
    have hcount : fifoCount (putSlot b s) = fifoCount s + 1 := fifoCount_putSlot hN hw hr hf
    have hlt : fifoCount (putSlot b s) < s.params.fifoSlots := count_lt (s := putSlot b s) hN
    have hpos : [b].take (fifoRoom s) = [b] := List.take_of_length_le (by rw [fifoRoom, List.length_singleton]; omega)
    rw [afterDelivered, if_neg (by simp [hf]), hpos]
    refine ⟨held_put hlowered b hf, ?_⟩
    calc s.params.fifoSlots - 1 - fifoCount (putSlot b s) = s.params.fifoSlots - 1 - (fifoCount s + 1) := by rw [hcount]
      _ = fifoRoom s - 1 := Nat.sub_add_eq _ _ _

/-- By induction on the delivered bytes: each is appended while there is room. -/
theorem runSteps_deliver (bs : List Byte) (h : Inv s) : ∃ t, runSteps bs.length (deliver bs s) = .next t ∧
    t.inputs = s.inputs ∧ fifoHeld t = fifoHeld s ++ bs.take (fifoRoom s) := by
  induction bs generalizing s with
  | nil => exact ⟨s, rfl, rfl, by simp⟩
  | cons b bs ih =>
    obtain ⟨t, hrun, hinputs, hheld⟩ := ih (inv_afterDelivered (b := b) h)
    obtain ⟨hfirst, hroom⟩ := afterDelivered_held_room (b := b) h
    refine ⟨t, ?_, hinputs.trans afterDelivered_inputs, ?_⟩
    · simp only [List.length_cons, runSteps, step_deliver bs h.config, hrun]
    · calc fifoHeld t = fifoHeld s ++ ([b].take (fifoRoom s) ++ bs.take (fifoRoom s - 1)) := by
            rw [hheld, hfirst, hroom, List.append_assoc]
        _ = fifoHeld s ++ (b :: bs).take (fifoRoom s) :=
            congrArg (fifoHeld s ++ ·) (List.take_append (l₁ := [b])).symm

/-! ### Who touches the FIFO (R154) -/

/-- A wire command and a dispatch leave the whole FIFO alone. -/
theorem command_or_dispatch_fifoView_eq {t : State} {i : Instr} (hi : wireFields i ≠ none ∨ i = .engDispatch)
    (h : exec i s = .next t) : fifoView t = fifoView s := by
  rcases hi with hwire | rfl
  · obtain ⟨f, hf⟩ := Option.ne_none_iff_exists'.1 hwire
    obtain ⟨u, hu, hdone⟩ := command_done s hf
    rw [h] at hu
    injection hu with hu
    exact hu ▸ hdone.fifoView_eq
  · exact dispatch_fifoView_eq h

theorem exec_fifoPut_fifoRd {t : State} (h : exec (.fifoPut b) s = .next t) : t.fifoRd = s.fifoRd := by
  injection h with h
  subst h
  split <;> rfl

theorem exec_keeps_fifo {t : State} {i : Instr} (h : exec i s = .next t) :
    ((∀ b, i ≠ .fifoPut b) → t.fifoMem = s.fifoMem ∧ t.fifoWr = s.fifoWr) ∧
      (i ≠ .fifoGet → i ≠ .decFeed → t.fifoRd = s.fifoRd) := by
  by_cases hi : wireFields i ≠ none ∨ i = .engDispatch
  · obtain ⟨-, hm, hw, hr⟩ := fifo_eq_of_fifoView_eq (command_or_dispatch_fifoView_eq hi h)
    exact ⟨fun _ => ⟨hm, hw⟩, fun _ _ => hr⟩
  · obtain ⟨hwire, hdisp⟩ := not_or.1 hi
    by_cases hput : ∃ b, i = .fifoPut b
    · obtain ⟨b, rfl⟩ := hput
      exact ⟨fun hne => absurd rfl (hne b), fun _ _ => exec_fifoPut_fifoRd h⟩
    · obtain ⟨hkept, hrd⟩ := port_kept (not_not.1 hwire) (not_exists.1 hput) hdisp h
      exact ⟨fun _ => ⟨hkept.fifoMem, hkept.fifoWr⟩, hrd⟩

end Sys2Proof.Machine

namespace Sys2Proof.Proofs

open Sys2Proof.Machine Sys2Proof.Safety

/-- Settles O8: the two cases of put; the FIFO is full or the byte is stored. -/
theorem putStoresTheByteAtTheWriteCursor : Obligations.PutStoresTheByteAtTheWriteCursor := by
  unfold Obligations.PutStoresTheByteAtTheWriteCursor
  intro s b hN hw hr hwf
  refine ⟨fun hfull => exec_fifoPut_full (fifoIsFull_iff.2 hfull), fun hroom => ?_⟩
  have hf := fifoIsFull_eq_false_iff.2 hroom
  exact ⟨putSlot b s, exec_fifoPut_room hf, rfl, fifoSlot_putSlot hwf, fifoEmpty_putSlot hf,
    fifoIsFull_putSlot_iff hN hw hr hf, fifoCount_putSlot hN hw hr hf⟩

/-- Settles O9: the case of put on a full FIFO. -/
theorem putOnFullFifoDropsTheByte : Obligations.PutOnFullFifoDropsTheByte := by
  unfold Obligations.PutOnFullFifoDropsTheByte
  exact fun s b hfull => exec_fifoPut_full (fifoIsFull_iff.2 hfull)

/-- Settles O10: the two cases of get; the FIFO is empty or a byte is taken. -/
theorem getTakesTheByteAtTheReadCursor : Obligations.GetTakesTheByteAtTheReadCursor := by
  unfold Obligations.GetTakesTheByteAtTheReadCursor
  intro s hN hw hr
  refine ⟨fun hempty => exec_fifoGet_empty (fifoEmpty_iff.2 hempty), fun hne => ?_⟩
  have he := fifoEmpty_eq_false_iff.2 hne
  exact ⟨takeSlot s, exec_fifoGet_nonempty he, rfl, fifoIsFull_takeSlot hN hw hr he,
    fifoEmpty_takeSlot_iff hN hw hr he, fifoCount_takeSlot hN hw hr he⟩

/-- Settles O11: the case of get on an empty FIFO. -/
theorem getOnEmptyFifoReturnsNothing : Obligations.GetOnEmptyFifoReturnsNothing := by
  unfold Obligations.GetOnEmptyFifoReturnsNothing
  exact fun s hempty => exec_fifoGet_empty (fifoEmpty_iff.2 hempty)

/-- Settles O12: the two queries record the flags of R35, which are the cursors' relation. -/
theorem fifoQueriesReportTheFlags : Obligations.FifoQueriesReportTheFlags := by
  unfold Obligations.FifoQueriesReportTheFlags
  exact fun s => ⟨rfl, rfl⟩

/-- Settles O14: put first on a full FIFO, get first on an empty one, and the two orders commute otherwise. -/
theorem simultaneousPutAndGetHaveOneResult : Obligations.SimultaneousPutAndGetHaveOneResult := by
  unfold Obligations.SimultaneousPutAndGetHaveOneResult
  intro s b h
  refine ⟨fun hf => ?_, fun he => ?_, fun hf he => ?_⟩
  · have he := full_not_empty h hf
    exact ⟨_, _, exec_fifoPut_full hf, exec_fifoGet_nonempty (s := { s with putResult := some false }) he, rfl, rfl,
      (congrArg List.tail (held_take h he)).symm⟩
  · have hf := fifoEmpty_not_full h he
    have hanswered : Inv { s with getResult := some none } := inv_of_same h rfl
    exact ⟨_, _, exec_fifoGet_empty he, exec_fifoPut_room (s := { s with getResult := some none }) hf, rfl, rfl,
      (held_put hanswered b hf).trans (by rw [held_empty hanswered he, List.nil_append])⟩
  · obtain ⟨hw, hr⟩ := h.cursors
    have hroom := fifoIsFull_takeSlot (two_le_slots h.config) hw hr he
    refine ⟨putSlot b s, takeSlot s, putSlot b (takeSlot s), exec_fifoPut_room hf, exec_fifoGet_nonempty he,
      (exec_fifoGet_nonempty (fifoEmpty_putSlot hf)).trans (by rw [putSlot_takeSlot he]), exec_fifoPut_room hroom,
      rfl, rfl, ?_⟩
    rw [held_put (inv_take h) b hroom, held_take h he, List.tail_cons]

/-- Settles O15, by induction on the delivered bytes. -/
theorem deliveryStoresWhatFits : Obligations.DeliveryStoresWhatFits := by
  unfold Obligations.DeliveryStoresWhatFits
  exact fun s bs h => runSteps_deliver bs h

/-- Settles O57: a put writes no read cursor, the other port operations write at most that, and a dispatch and a wire
command write nothing of the FIFO. -/
theorem onlyFifoOperationsTouchTheFifo : Obligations.OnlyFifoOperationsTouchTheFifo := by
  unfold Obligations.OnlyFifoOperationsTouchTheFifo
  exact fun s t i h => exec_keeps_fifo h

end Sys2Proof.Proofs
end

section
/-! The frame decoder, byte by byte (41_frame_decoder.md): what a byte does in each state of the decoder, when `feed`
answers true (R183), and what an ENGINE step does on an empty FIFO and outside its phase (R186, R187, R235). -/

namespace Sys2Proof.Machine

open Sys2Proof.Safety

variable {s : State} {b : Byte}

/-! ### Bytes put together -/

/-- The second length byte is the high byte of the length (R174). -/
theorem toNat_le16_lowByte (l : Half) (b : Byte) :
    (le16 (l.extractLsb' 0 8) b).toNat = l.toNat % 256 + 256 * b.toNat := by
  rw [le16_toNat, BitVec.extractLsb'_toNat, Nat.shiftRight_zero]

/-- The fourth CRC byte is the high byte of the received CRC, and the three below it stay (R41). -/
theorem toNat_placeCrcByte_three (rx : Word) (b : Byte) :
    (placeCrcByte rx 3 b).toNat = rx.toNat % 2 ^ 24 + 2 ^ 24 * b.toNat := by
  have hbytes : placeCrcByte rx 3 b = le32 (rx.extractLsb' 0 8) (rx.extractLsb' 8 8) (rx.extractLsb' 16 8) b := by
    refine word_eq_of_bytes fun j hj => ?_
    rw [extract_placeCrcByte (by omega) hj]
    exact (extractLsb'_le32 (fun k => if k = 3 then b else rx.extractLsb' (8 * k) 8) hj).symm
  have hrx := toNat_bytes32 rx
  have := (rx.extractLsb' 24 8).isLt
  rw [hbytes, le32_toNat]
  omega

/-- The bytes that the CRC covers, as the decoder holds them (R103, R180). -/
theorem frameBody_heldPayload (op : Byte) (s : State) :
    frameBody op (heldPayload s) = [0xAA, op] ++ bytes16 s.decLength ++ heldPayload s := by
  rw [frameBody, length_heldPayload, BitVec.ofNat_toNat, BitVec.setWidth_eq]
  rfl

/-! ### The arms of `feed` that judge what has been read -/

theorem exec_decFeed_takes (hp : s.engPhase = .idle) (hne : s.fifoWr ≠ s.fifoRd) :
    exec .decFeed s = feed (fifoSlot s s.fifoRd) (takeByte s) := execDecFeed_takes hp hne

theorem judgeLength_oversize (h : 4096 < s.decLength.toNat) : judgeLength s = decoderError codeErrOverflow s :=
  if_pos h

theorem judgeLength_empty (h : s.decLength = 0) : judgeLength s = enterField .awaitingCrc s := by
  have hfits : ¬ Config.maxPayload < s.decLength.toNat := by simp [h]
  rw [judgeLength, if_neg hfits, if_pos h]

theorem judgeLength_payload (hpos : 0 < s.decLength.toNat) (hmax : s.decLength.toNat ≤ 4096) :
    judgeLength s = enterField .awaitingPayload s := by
  have hfits : ¬ Config.maxPayload < s.decLength.toNat := Nat.not_lt.2 hmax
  have hne : s.decLength ≠ 0 := fun h => by simp [h] at hpos
  rw [judgeLength, if_neg hfits, if_neg hne]

theorem judgeCrc_match (h : s.decCrcRx = crcCalc s) :
    judgeCrc s = { s with frameReady := true, engPhase := .dispatch, feedResult := some true } := if_pos h

theorem judgeCrc_differ (h : s.decCrcRx ≠ crcCalc s) : judgeCrc s = decoderError codeErrVerify s := if_neg h

/-- What `feed` can do with a byte: read it into the decoder's registers, answer a decoder error, or accept the
frame. -/
inductive FeedDone (b : Byte) (s : State) : State → Prop where
  /-- only the decoder's registers change, and the answer is false (R171 to R176, R179) -/
  | reads {t : State} (same : t = { answerFalse s with
      decState := t.decState, decOpcode := t.decOpcode, decLength := t.decLength, decIdx := t.decIdx,
      decPayload := t.decPayload, decCrcRx := t.decCrcRx }) : FeedDone b s t
  /-- an error is answered, with what has been read of the length (R174, R178, R181) -/
  | errs (code : Byte) (length : Half) : FeedDone b s (decoderError code { answerFalse s with decLength := length })
  /-- the fourth CRC byte matches (R177) -/
  | accepts (crcField : s.decState = .awaitingCrc) (fourth : s.decIdx = 3)
      (matched : placeCrcByte s.decCrcRx 3 b = crcCalc s) :
      FeedDone b s { answerFalse s with
        decCrcRx := placeCrcByte s.decCrcRx 3 b, frameReady := true, engPhase := .dispatch, feedResult := some true }

theorem judgeLength_done (l : Half) : FeedDone b s (judgeLength { answerFalse s with decLength := l }) := by
  unfold judgeLength
  split
  · exact .errs codeErrOverflow l
  · split <;> exact .reads rfl

theorem judgeCrc_done (hd : s.decState = .awaitingCrc) (hi : s.decIdx = 3) :
    FeedDone b s (judgeCrc { answerFalse s with decCrcRx := placeCrcByte s.decCrcRx 3 b }) := by
  unfold judgeCrc
  split
  · next hmatch => exact .accepts hd hi hmatch
  · exact .errs codeErrVerify s.decLength

/-- Each arm of the decoder's table, in the table's order, does one of the three. -/
theorem feed_done {t : State} (h : feed b s = .next t) : FeedDone b s t := by
  simp only [feed] at h
  split at h
  · -- AwaitingStart (R171)
    injection h with h
    subst h
    split <;> exact .reads rfl
  · -- AwaitingOpcode (R172)
    injection h with h
    exact h ▸ .reads rfl
  · -- AwaitingLength: the first length byte (R173), the second (R174)
    split at h
    · injection h with h
      exact h ▸ .reads rfl
    · split at h
      · injection h with h
        exact h ▸ judgeLength_done _
      · nomatch h
  · -- AwaitingPayload: the payload has bytes to come (R175), or has been read (R176)
    split at h
    · nomatch h
    · split at h
      · injection h with h
        exact h ▸ .reads rfl
      · split at h
        · injection h with h
          exact h ▸ .reads rfl
        · nomatch h
  · -- AwaitingCrc: CRC bytes 0 to 2 (R179), the fourth (R177, R178)
    next hd =>
    split at h
    · injection h with h
      exact h ▸ .reads rfl
    · split at h
      · next hi =>
        split at h
        · nomatch h
        · injection h with h
          exact h ▸ judgeCrc_done hd hi
      · nomatch h
  · -- the states outside the table (R181)
    injection h with h
    exact h ▸ .errs codeErrOpcode s.decLength

/-- `feed` hands no byte to the sink. -/
theorem feed_txOut {t : State} (h : feed b s = .next t) : t.txOut = s.txOut := by
  cases feed_done h with
  | reads same => rw [same]; rfl
  | errs code length => rfl
  | accepts => rfl

/-! ### ENGINE's operations outside their phase (R170, R220, R229, R235) -/

theorem exec_decFeed_outside_idle (h : s.engPhase ≠ .idle) : exec .decFeed s = .next s :=
  if_neg fun hc => h hc.1

theorem exec_decTimeout_outside_idle (h : s.engPhase ≠ .idle) : exec .decTimeout s = .next s :=
  if_neg fun hc => h hc.1

theorem exec_engDispatch_outside_dispatch (h : s.engPhase ≠ .dispatch) : exec .engDispatch s = .next s := if_neg h

theorem exec_engTx_outside_tx (h : s.engPhase ≠ .tx) : exec .engTx s = .next s := if_neg h

/-! ### The idle timeout (R186) -/

theorem toNat_idleTime (s : State) :
    (idleTime s).toNat = (s.nowMs.toNat + 2 ^ 32 - s.lastActivity.toNat) % 2 ^ 32 := by
  have := s.lastActivity.isLt
  rw [idleTime, BitVec.toNat_sub]
  congr 1
  omega

/-- On an empty FIFO with a partial frame in progress, DEC.TIMEOUT judges the time since the last activity. -/
theorem execDecTimeout_partial (hp : s.engPhase = .idle) (he : fifoEmpty s = true) (hd : s.decState ≠ .awaitingStart) :
    execDecTimeout s = .next (if 500 < (idleTime s).toNat then decoderReset s else s) := by
  have hpartial : partialFrame s = true := bne_iff_ne.2 hd
  rw [execDecTimeout, if_pos ⟨hp, he⟩, if_pos hpartial]
  rfl

end Sys2Proof.Machine

namespace Sys2Proof.Proofs

open Sys2Proof.Machine Sys2Proof.Safety

/-- Settles O17: the arm of AwaitingStart on the byte that ENGINE takes. -/
theorem startByteIsJudged : Obligations.StartByteIsJudged := by
  unfold Obligations.StartByteIsJudged
  intro s hp hne hd
  exact (exec_decFeed_takes hp hne).trans (feed_awaitingStart hd)

/-- Settles O18: the arm of AwaitingOpcode. -/
theorem opcodeByteIsStored : Obligations.OpcodeByteIsStored := by
  unfold Obligations.OpcodeByteIsStored
  intro s hp hne hd
  exact (exec_decFeed_takes hp hne).trans (feed_awaitingOpcode hd)

/-- Settles O19: the arm of AwaitingLength, where no length byte has been read. -/
theorem firstLengthByteIsTheLowByte : Obligations.FirstLengthByteIsTheLowByte := by
  unfold Obligations.FirstLengthByteIsTheLowByte
  intro s hp hne hd hi
  rw [exec_decFeed_takes hp hne, feed_firstLength (s := takeByte s) hd hi, takeByte_decIdx, hi]
  rfl

/-- Settles O20: the arm of AwaitingLength on the second byte, over the three ways in which the length is judged. -/
theorem secondLengthByteIsJudged : Obligations.SecondLengthByteIsJudged := by
  unfold Obligations.SecondLengthByteIsJudged
  intro s L hp hne hd hi hL
  have hlength : le16 ((takeByte s).decLength.extractLsb' 0 8) (fifoSlot s s.fifoRd) = L :=
    BitVec.eq_of_toNat_eq ((toNat_le16_lowByte _ _).trans hL.symm)
  rw [exec_decFeed_takes hp hne, feed_secondLength (s := takeByte s) hd hi, hlength]
  split
  · next hover => rw [judgeLength_oversize hover]; rfl
  · next hfits =>
    split
    · next hzero => rw [judgeLength_empty (BitVec.eq_of_toNat_eq hzero)]; rfl
    · next hpos => rw [judgeLength_payload (Nat.pos_of_ne_zero hpos) (Nat.not_lt.1 hfits)]; rfl

/-- Settles O21: the arm of AwaitingPayload, for a byte that is not the last and for the last one. -/
theorem payloadByteIsStoredAtItsIndex : Obligations.PayloadByteIsStoredAtItsIndex := by
  unfold Obligations.PayloadByteIsStoredAtItsIndex
  intro s hp hne hd hmax hlt hwf
  have hidx : s.decIdx.toNat < Config.maxPayload := Nat.lt_of_lt_of_le hlt hmax
  rw [exec_decFeed_takes hp hne]
  rcases Nat.lt_or_eq_of_le (Nat.succ_le_of_lt hlt) with hnext | hlast
  · exact ⟨_, feed_payload hd hidx hnext, fun i => Memory.read_write hwf, fun _ => rfl, fun h => by omega⟩
  · exact ⟨_, feed_lastPayload hd hidx hlast, fun i => Memory.read_write hwf, fun h => by omega, fun _ => rfl⟩

/-- Settles O22: the arm of AwaitingCrc on the first three bytes. -/
theorem crcByteIsPlacedAtItsBits : Obligations.CrcByteIsPlacedAtItsBits := by
  unfold Obligations.CrcByteIsPlacedAtItsBits
  intro s hp hne hd hi
  rw [exec_decFeed_takes hp hne]
  exact ⟨_, feed_crc hd hi, rfl, fun k hk => extract_placeCrcByte (by simp only [takeByte_decIdx]; omega) hk⟩

/-- Settles O23: the arm of AwaitingCrc on the fourth byte, where the received CRC matches and where it does not. -/
theorem fourthCrcByteDecidesTheFrame : Obligations.FourthCrcByteDecidesTheFrame := by
  unfold Obligations.FourthCrcByteDecidesTheFrame
  intro s rx hp hne hd hi hmax hrx
  have hcrc : placeCrcByte (takeByte s).decCrcRx 3 (fifoSlot s s.fifoRd) = rx :=
    BitVec.eq_of_toNat_eq ((toNat_placeCrcByte_three _ _).trans hrx.symm)
  rw [exec_decFeed_takes hp hne, feed_lastCrc (s := takeByte s) hd hi hmax, hcrc, ← frameBody_heldPayload]
  split
  · next hmatch => rw [judgeCrc_match hmatch]; rfl
  · next hdiffer => rw [judgeCrc_differ hdiffer]; rfl

/-- Settles O24: the arm of a state that is not in the table. -/
theorem corruptDecoderStateAnswersErrOpcode : Obligations.CorruptDecoderStateAnswersErrOpcode := by
  unfold Obligations.CorruptDecoderStateAnswersErrOpcode
  intro s k hp hne hd
  exact (exec_decFeed_takes hp hne).trans (feed_corrupt hd)

/-- Settles O25: of the three things that `feed` can do with a byte, only the acceptance of a frame answers true and
leaves IDLE for DISPATCH, where DEC.FEED takes no byte. -/
theorem feedIsTrueOnlyOnAnAcceptedFrame : Obligations.FeedIsTrueOnlyOnAnAcceptedFrame := by
  unfold Obligations.FeedIsTrueOnlyOnAnAcceptedFrame
  intro s t hp hne h
  rw [exec_decFeed_takes hp hne] at h
  cases feed_done h with
  | reads same =>
    have hfalse : t.feedResult = some false := by rw [same]; rfl
    have hidle : t.engPhase = .idle := by rw [same]; exact hp
    exact ⟨fun htrue => by simp [hfalse] at htrue, fun _ => ⟨hfalse, by simp [hidle]⟩⟩
  | errs code length => exact ⟨nofun, fun _ => ⟨rfl, nofun⟩⟩
  | accepts crcField fourth matched =>
    exact ⟨fun _ => ⟨crcField, fourth, matched, rfl, rfl, exec_decFeed_outside_idle nofun⟩, fun hn => absurd rfl hn⟩

/-- Settles O26: each operation's guard is its phase. -/
theorem engineOperationsWaitForTheirPhase : Obligations.EngineOperationsWaitForTheirPhase := by
  unfold Obligations.EngineOperationsWaitForTheirPhase
  exact fun s => ⟨fun h => ⟨exec_decFeed_outside_idle h, exec_decTimeout_outside_idle h⟩,
    exec_engDispatch_outside_dispatch, exec_engTx_outside_tx⟩

/-- Settles O27: DEC.RESET is the decoder reset of R182. -/
theorem decoderResetClearsOnlyItsRegisters : Obligations.DecoderResetClearsOnlyItsRegisters := by
  unfold Obligations.DecoderResetClearsOnlyItsRegisters
  exact fun s => rfl

/-- Settles O28: DEC.TIMEOUT with a partial frame in progress. -/
theorem staleFrameIsDroppedAfterTheTimeout : Obligations.StaleFrameIsDroppedAfterTheTimeout := by
  unfold Obligations.StaleFrameIsDroppedAfterTheTimeout
  intro s hp he hd
  rw [← toNat_idleTime]
  exact execDecTimeout_partial hp (fifoEmpty_iff.2 he) hd

/-- Settles O29: DEC.TIMEOUT with no partial frame in progress. -/
theorem idleRefreshSetsTheTimestamp : Obligations.IdleRefreshSetsTheTimestamp := by
  unfold Obligations.IdleRefreshSetsTheTimestamp
  exact fun s hp he hd => execDecTimeout_refresh hp (fifoEmpty_iff.2 he) hd

end Sys2Proof.Proofs
end

section
/-! A whole frame (R189): each of its bytes comes into an empty FIFO and ENGINE takes it at its next step, so the
decoder reads the frame field by field, and accepts it on its last byte. -/

namespace Sys2Proof.Machine

open Sys2Proof.Safety

/-! ### Runs in which no frame is ready -/

/-- `n` steps from `s` to `t`, with no frame ready in the states before `t`. -/
structure QuietRun (n : Nat) (s t : State) : Prop where
  /-- the run -/
  run : runSteps n s = .next t
  /-- the states before its end -/
  quiet : ∀ k u, k < n → runSteps k s = .next u → u.frameReady = false

theorem QuietRun.refl (s : State) : QuietRun 0 s s := ⟨rfl, fun k _ hk => absurd hk (Nat.not_lt_zero k)⟩

/-- One more step at the end of a run. -/
theorem runSteps_succ_of_step {n : Nat} {s t u : State} (hrun : runSteps n s = .next t) (hstep : step t = .next u) :
    runSteps (n + 1) s = .next u := by
  induction n generalizing s with
  | zero =>
    injection hrun with hrun
    subst hrun
    simp only [runSteps, hstep]
  | succ n ih =>
    simp only [runSteps] at hrun
    split at hrun
    · next v hv =>
      rw [runSteps, hv]
      exact ih hrun
    · nomatch hrun
    · nomatch hrun

theorem QuietRun.snoc {n : Nat} {s t u : State} (h : QuietRun n s t) (ht : t.frameReady = false)
    (hstep : step t = .next u) : QuietRun (n + 1) s u := by
  refine ⟨runSteps_succ_of_step h.run hstep, fun k v hk hv => ?_⟩
  rcases Nat.lt_succ_iff_lt_or_eq.1 hk with hlt | rfl
  · exact h.quiet k v hlt hv
  · rw [h.run] at hv
    injection hv with hv
    exact hv ▸ ht

/-! ### A byte that comes into an empty FIFO and is taken -/

/-- The state in which PRODUCER has put a byte and ENGINE has taken it, before the decoder's arm (R144, R170). -/
def byteTaken (b : Byte) (s : State) : State := takeByte (beginTurn (putSlot b (beginTurn s)))

variable {s : State} {b : Byte}

theorem inv_byteTaken (h : Inv s) : Inv (byteTaken b s) := inv_takeByte (inv_begin (inv_put (inv_begin h) b))

/-- The byte comes. -/
theorem step_rx_of_empty (h : Inv s) (hn : nextTurn s = .rx b) (he : s.fifoWr = s.fifoRd) :
    step s = .next (putSlot b (beginTurn s)) := by
  have hroom : fifoIsFull (beginTurn s) = false := fifoEmpty_not_full (inv_begin h) (fifoEmpty_iff.2 he)
  simp only [step, takeStep, h.config, hn, runTurn, exec_fifoPut_room hroom]

/-- ENGINE takes it. -/
theorem step_engine_takes (h : Inv s) (hp : s.engPhase = .idle) (he : s.fifoWr = s.fifoRd)
    (hn : nextTurn (putSlot b (beginTurn s)) = .engine) :
    step (putSlot b (beginTurn s)) = feed b (byteTaken b s) := by
  have hroom : fifoIsFull (beginTurn s) = false := fifoEmpty_not_full (inv_begin h) (fifoEmpty_iff.2 he)
  have hne : fifoEmpty (beginTurn (putSlot b (beginTurn s))) = false :=
    fifoEmpty_putSlot (s := beginTurn s) (b := b) hroom
  have hslot : fifoSlot (putSlot b (beginTurn s)) s.fifoRd = b :=
    (fifoSlot_putSlot (s := beginTurn s) h.fifoForm.1 s.fifoRd).trans (if_pos he.symm)
  calc step (putSlot b (beginTurn s))
    _ = execDecFeed (beginTurn (putSlot b (beginTurn s))) :=
        (step_engine (s := putSlot b (beginTurn s)) h.config hn).trans (engineTurn_idle_nonempty hp hne)
    _ = feed (fifoSlot (putSlot b (beginTurn s)) s.fifoRd) (byteTaken b s) :=
        execDecFeed_takes hp (fifoEmpty_eq_false_iff.1 hne)
    _ = feed b (byteTaken b s) := by rw [hslot]

/-! ### The bytes of a frame on their way -/

/-- `n` steps from `s₀` lead to a state with the bytes `bs` still to come, and after them `rest`. Every byte that came
has been taken, nothing has been sent, and no frame was ready before. -/
structure Reached (s₀ : State) (rest : List Turn) (n : Nat) (bs : List Byte) (s : State) : Prop where
  /-- the run so far -/
  run : QuietRun n s₀ s
  /-- what is to come -/
  inputs : s.inputs = slowly bs ++ rest
  /-- the invariant -/
  inv : Inv s
  /-- every byte that came has been taken -/
  empty : s.fifoWr = s.fifoRd
  /-- R51 -/
  params : s.params = s₀.params
  /-- nothing is sent -/
  txOut : s.txOut = s₀.txOut
  /-- flash is left alone -/
  flash : s.flash = s₀.flash

/-- ENGINE is in IDLE and the decoder has taken `i` bytes of the field that its state names. -/
structure Awaits (d : DecState) (i : Nat) (s : State) : Prop where
  /-- ENGINE takes bytes -/
  idle : s.engPhase = .idle
  /-- the field -/
  field : s.decState = d
  /-- how many of its bytes have been taken -/
  idx : s.decIdx.toNat = i

/-- The decoder holds the opcode, the length and the first `k` payload bytes of a frame. -/
structure HoldsFields (op : Byte) (p : List Byte) (k : Nat) (s : State) : Prop where
  /-- R172 -/
  opcode : s.decOpcode = op
  /-- R174 -/
  length : s.decLength.toNat = p.length
  /-- R175 -/
  payload : s.decPayload.readBytes Config.slotFill 0 k = p.take k

theorem HoldsFields.heldPayload_eq {op : Byte} {p : List Byte} (h : HoldsFields op p p.length s) :
    heldPayload s = p := by
  rw [heldPayload, h.length, h.payload, List.take_length]

theorem HoldsFields.crcCalc_eq {op : Byte} {p : List Byte} (h : HoldsFields op p p.length s) :
    crcCalc s = crc32 s.params.crc (frameBody op p) := by
  rw [crcCalc, h.heldPayload_eq, h.opcode]

variable {s₀ : State} {rest : List Turn} {n : Nat} {bs : List Byte}

/-- The next byte comes and is taken, in two steps. -/
theorem Reached.takes {t : State} (h : Reached s₀ rest n (b :: bs) s) (hp : s.engPhase = .idle)
    (hf : feed b (byteTaken b s) = .next t) : Reached s₀ rest (n + 2) bs t := by
  have hinputs : s.inputs = .rx b :: .engine :: (slowly bs ++ rest) := h.inputs
  have hready : s.frameReady = false := (engine_idle h.inv hp).1
  have hrx := step_rx_of_empty (b := b) h.inv (by rw [nextTurn, hinputs]; rfl) h.empty
  have hengine : nextTurn (putSlot b (beginTurn s)) = .engine := by
    rw [nextTurn, putSlot_inputs, beginTurn_inputs, hinputs]
    rfl
  obtain ⟨hkept, hrd⟩ := feed_kept hf
  refine ⟨(h.run.snoc hready hrx).snoc hready ((step_engine_takes h.inv hp h.empty hengine).trans hf), ?_,
    (feed_nextInv b (inv_byteTaken h.inv) hp).inv hf, ?_, hkept.params.trans h.params, (feed_txOut hf).trans h.txOut,
    hkept.flash.trans h.flash⟩
  · rw [hkept.inputs]
    exact congrArg (fun turns => turns.tail.tail) hinputs
  · rw [hkept.fifoWr, hrd]
    exact congrArg (advance s.params.fifoSlots) h.empty

/-! ### The fields of the frame, one after the other -/

/-- The start marker (R171). -/
theorem Reached.startByte (h : Reached s₀ rest n (Config.startMarker :: bs) s) (ha : Awaits .awaitingStart 0 s) :
    ∃ t, Reached s₀ rest (n + 2) bs t ∧ Awaits .awaitingOpcode 0 t :=
  ⟨_, h.takes ha.idle
    ((feed_awaitingStart (s := byteTaken _ s) ha.field).trans (congrArg Host.Outcome.next (if_pos rfl))),
    ha.idle, rfl, ha.idx⟩

/-- The opcode (R172). -/
theorem Reached.opcodeByte (h : Reached s₀ rest n (b :: bs) s) (ha : Awaits .awaitingOpcode 0 s) :
    ∃ t, Reached s₀ rest (n + 2) bs t ∧ Awaits .awaitingLength 0 t ∧ t.decOpcode = b :=
  ⟨_, h.takes ha.idle (feed_awaitingOpcode ha.field), ⟨ha.idle, rfl, rfl⟩, rfl⟩

/-- The low byte of the length (R173). -/
theorem Reached.firstLengthByte (h : Reached s₀ rest n (b :: bs) s) (ha : Awaits .awaitingLength 0 s) :
    ∃ t, Reached s₀ rest (n + 2) bs t ∧ Awaits .awaitingLength 1 t ∧ t.decOpcode = s.decOpcode ∧
      t.decLength = b.setWidth 16 := by
  have hzero : s.decIdx = 0 := BitVec.eq_of_toNat_eq ha.idx
  exact ⟨_, h.takes ha.idle (feed_firstLength (s := byteTaken b s) ha.field hzero),
    ⟨ha.idle, ha.field, congrArg (fun i => (i + 1).toNat) hzero⟩, rfl, rfl⟩

/-- The high byte of the length (R174): then the length is judged. -/
theorem Reached.secondLengthByte (h : Reached s₀ rest n (b :: bs) s) (ha : Awaits .awaitingLength 1 s) :
    ∃ t, Reached s₀ rest (n + 2) bs (judgeLength t) ∧ t.engPhase = .idle ∧ t.decOpcode = s.decOpcode ∧
      t.decLength = le16 (s.decLength.extractLsb' 0 8) b := by
  have hone : s.decIdx = 1 := BitVec.eq_of_toNat_eq ha.idx
  exact ⟨_, h.takes ha.idle (feed_secondLength (s := byteTaken b s) ha.field hone), ha.idle, rfl, rfl⟩

/-- The length bytes of a half make the half (R100). -/
theorem le16_of_lengthBytes (l : Half) :
    le16 (((l.extractLsb' 0 8).setWidth 16).extractLsb' 0 8) (l.extractLsb' 8 8) = l := by
  have hlow : ((l.extractLsb' 0 8).setWidth 16).extractLsb' 0 8 = l.extractLsb' 0 8 := by
    rw [← BitVec.setWidth_eq_extractLsb' (by omega), BitVec.setWidth_setWidth_of_le _ (by omega), BitVec.setWidth_eq]
  rw [hlow, le16_bytes16]

variable {op : Byte} {p : List Byte}

/-- The decoder has taken `k` payload bytes; after the last one it awaits the CRC (R174, R176). -/
def AwaitsPayload (p : List Byte) (k : Nat) (s : State) : Prop :=
  if k < p.length then Awaits .awaitingPayload k s else Awaits .awaitingCrc 0 s

/-- A length that fits begins the payload, and on an empty payload the CRC field (R174). -/
theorem judgeLength_awaits (hmax : p.length ≤ 4096) (hp : s.engPhase = .idle) (hop : s.decOpcode = op)
    (hl : s.decLength.toNat = p.length) : AwaitsPayload p 0 (judgeLength s) ∧ HoldsFields op p 0 (judgeLength s) := by
  unfold AwaitsPayload
  split
  · next hpos =>
    rw [judgeLength_payload (hl ▸ hpos) (hl ▸ hmax)]
    exact ⟨⟨hp, rfl, rfl⟩, hop, hl, rfl⟩
  · next hzero =>
    rw [judgeLength_empty (BitVec.eq_of_toNat_eq (hl.trans (Nat.eq_zero_of_not_pos hzero)))]
    exact ⟨⟨hp, rfl, rfl⟩, hop, hl, rfl⟩

/-- Payload byte `k` is stored after the `k` bytes before it. -/
theorem HoldsFields.after_storePayload {k : Nat} (h : HoldsFields op p k s) (hi : Inv s)
    (hidx : s.decIdx.toNat = k) (hk : k < p.length) :
    HoldsFields op p (k + 1) (storePayload p[k] s) := by
  refine ⟨h.opcode, h.length, ?_⟩
  have hread := h.payload
  simp only [Memory.readBytes, Nat.zero_add] at hread ⊢
  rw [List.range_succ, List.map_append, storePayload_decPayload, hidx, ← List.take_append_getElem hk, ← hread]
  congr 1
  · refine List.map_congr_left fun j hj => Memory.read_write_ne ?_
    rw [List.mem_range] at hj
    omega
  · exact congrArg (fun x => [x]) (Memory.read_write_eq hi.payloadForm.1)

/-- A payload byte (R175, R176). -/
theorem Reached.payloadByte {k : Nat} (hmax : p.length ≤ 4096) (hk : k < p.length)
    (h : Reached s₀ rest n (p[k] :: bs) s) (ha : Awaits .awaitingPayload k s) (hh : HoldsFields op p k s) :
    ∃ t, Reached s₀ rest (n + 2) bs t ∧ AwaitsPayload p (k + 1) t ∧ HoldsFields op p (k + 1) t := by
  have hidx : s.decIdx.toNat < 4096 := by rw [ha.idx]; omega
  have hcount : s.decIdx.toNat + 1 = k + 1 := congrArg (· + 1) ha.idx
  obtain ⟨hopcode, hlength, hpayload⟩ := hh.after_storePayload h.inv ha.idx hk
  unfold AwaitsPayload
  split
  · next hnext =>
    have hfeed := feed_payload (s := byteTaken p[k] s) (b := p[k]) ha.field hidx
      (show s.decIdx.toNat + 1 < s.decLength.toNat by rw [hcount, hh.length]; exact hnext)
    exact ⟨_, h.takes ha.idle hfeed, ⟨ha.idle, ha.field, (toNat_add_one hidx).trans hcount⟩, hopcode, hlength, hpayload⟩
  · next hlast =>
    have hfeed := feed_lastPayload (s := byteTaken p[k] s) (b := p[k]) ha.field hidx
      (show s.decIdx.toNat + 1 = s.decLength.toNat by rw [hcount, hh.length]; omega)
    exact ⟨_, h.takes ha.idle hfeed, ⟨ha.idle, rfl, rfl⟩, hopcode, hlength, hpayload⟩

/-- By induction on the payload bytes still to come. -/
theorem Reached.payloadBytes {k m : Nat} (hmax : p.length ≤ 4096) (hk : k + m = p.length)
    (h : Reached s₀ rest n (p.drop k ++ bs) s) (ha : AwaitsPayload p k s) (hh : HoldsFields op p k s) :
    ∃ t, Reached s₀ rest (n + 2 * m) bs t ∧ Awaits .awaitingCrc 0 t ∧ HoldsFields op p p.length t := by
  induction m generalizing k n s with
  | zero =>
    subst hk
    rw [List.drop_length] at h
    exact ⟨s, h, by simpa [AwaitsPayload] using ha, hh⟩
  | succ m ih =>
    have hlt : k < p.length := by omega
    rw [List.drop_eq_getElem_cons hlt] at h
    obtain ⟨t, hr, hawaits, hholds⟩ := h.payloadByte hmax hlt (by rwa [AwaitsPayload, if_pos hlt] at ha) hh
    rw [show n + 2 * (m + 1) = n + 2 + 2 * m by omega]
    exact ih (by omega) hr hawaits hholds

/-- CRC bytes 0 to 2 (R179). -/
theorem Reached.crcByte {k : Nat} (hk : k < 3) (h : Reached s₀ rest n (b :: bs) s) (ha : Awaits .awaitingCrc k s)
    (hh : HoldsFields op p p.length s) : ∃ t, Reached s₀ rest (n + 2) bs t ∧ Awaits .awaitingCrc (k + 1) t ∧
      HoldsFields op p p.length t ∧ t.decCrcRx = placeCrcByte s.decCrcRx k b := by
  have hidx := ha.idx
  refine ⟨_, h.takes ha.idle (feed_crc (s := byteTaken b s) ha.field (by simpa [byteTaken, hidx] using hk)),
    ⟨ha.idle, ha.field, ?_⟩, ⟨hh.opcode, hh.length, hh.payload⟩, congrArg (placeCrcByte s.decCrcRx · b) hidx⟩
  exact (toNat_add_one (show s.decIdx.toNat < 4096 by omega)).trans (congrArg (· + 1) hidx)

/-- The fourth CRC byte of a frame whose CRC matches (R177). -/
theorem Reached.lastCrcByte (hmax : p.length ≤ 4096) (h : Reached s₀ rest n (b :: bs) s) (ha : Awaits .awaitingCrc 3 s)
    (hh : HoldsFields op p p.length s) (hcrc : placeCrcByte s.decCrcRx 3 b = crc32 s₀.params.crc (frameBody op p)) :
    ∃ t, Reached s₀ rest (n + 2) bs t ∧ HoldsFields op p p.length t ∧ t.feedResult = some true ∧ t.frameReady = true ∧
      t.engPhase = .dispatch := by
  have hthree : s.decIdx = 3 := BitVec.eq_of_toNat_eq ha.idx
  have hmatch : placeCrcByte s.decCrcRx 3 b = crcCalc s := by rw [hcrc, hh.crcCalc_eq, h.params]
  have hfeed := feed_lastCrc (s := byteTaken b s) (b := b) ha.field hthree (hh.length.trans_le hmax)
  rw [judgeCrc_match hmatch] at hfeed
  exact ⟨_, h.takes ha.idle hfeed, ⟨hh.opcode, hh.length, hh.payload⟩, rfl, rfl, rfl⟩

/-- A word's four bytes, placed one after the other, make the word (R41, R103). -/
theorem placeCrcByte_bytes32 (rx v : Word) :
    placeCrcByte (placeCrcByte (placeCrcByte (placeCrcByte rx 0 (v.extractLsb' 0 8)) 1 (v.extractLsb' 8 8)) 2
      (v.extractLsb' 16 8)) 3 (v.extractLsb' 24 8) = v := by
  refine word_eq_of_bytes fun j hj => ?_
  rw [extract_placeCrcByte (by omega) hj, extract_placeCrcByte (by omega) hj, extract_placeCrcByte (by omega) hj,
    extract_placeCrcByte (by omega) hj]
  match j, hj with
  | 0, _ | 1, _ | 2, _ | 3, _ => rfl

/-- The CRC field of a frame: the frame is accepted on its last byte. -/
theorem Reached.crcField (hmax : p.length ≤ 4096)
    (h : Reached s₀ rest n (bytes32 (crc32 s₀.params.crc (frameBody op p))) s) (ha : Awaits .awaitingCrc 0 s)
    (hh : HoldsFields op p p.length s) :
    ∃ t, Reached s₀ rest (n + 8) [] t ∧ HoldsFields op p p.length t ∧ t.feedResult = some true ∧ t.frameReady = true ∧
      t.engPhase = .dispatch := by
  obtain ⟨s1, h1, ha1, hh1, hrx1⟩ := h.crcByte (by omega) ha hh
  obtain ⟨s2, h2, ha2, hh2, hrx2⟩ := h1.crcByte (by omega) ha1 hh1
  obtain ⟨s3, h3, ha3, hh3, hrx3⟩ := h2.crcByte (by omega) ha2 hh2
  refine h3.lastCrcByte hmax ha3 hh3 ?_
  rw [hrx3, hrx2, hrx1, placeCrcByte_bytes32]

/-- A whole frame, field by field. -/
theorem Reached.wholeFrame (hmax : p.length ≤ 4096) (h : Reached s₀ rest 0 (frame s₀.params.crc op p) s)
    (ha : Awaits .awaitingStart 0 s) :
    ∃ t, Reached s₀ rest (2 * (8 + p.length)) [] t ∧ HoldsFields op p p.length t ∧ t.feedResult = some true ∧
      t.frameReady = true ∧ t.engPhase = .dispatch := by
  rw [frame_eq_cons] at h
  obtain ⟨s1, h1, ha1⟩ := h.startByte ha
  obtain ⟨s2, h2, ha2, hop2⟩ := h1.opcodeByte ha1
  obtain ⟨s3, h3, ha3, hop3, hl3⟩ := h2.firstLengthByte ha2
  obtain ⟨s4, h4, hp4, hop4, hl4⟩ := h3.secondLengthByte ha3
  rw [hl3, le16_of_lengthBytes] at hl4
  obtain ⟨ha5, hh5⟩ := judgeLength_awaits hmax hp4 (hop4.trans (hop3.trans hop2)) (by rw [hl4, toNat_ofNat_length hmax])
  obtain ⟨s6, h6, ha6, hh6⟩ := h4.payloadBytes hmax (k := 0) (Nat.zero_add _) ha5 hh5
  rw [show 2 * (8 + p.length) = 0 + 2 + 2 + 2 + 2 + 2 * p.length + 8 by omega]
  exact h6.crcField hmax ha6 hh6

end Sys2Proof.Machine

namespace Sys2Proof.Proofs

open Sys2Proof.Machine Sys2Proof.Safety

/-- Settles O30: the frame's fields are read one after the other, and its last byte accepts it. -/
theorem wellFormedFrameIsAcceptedOnItsLastByte : Obligations.WellFormedFrameIsAcceptedOnItsLastByte := by
  unfold Obligations.WellFormedFrameIsAcceptedOnItsLastByte
  intro s op p rest hinv hp hd he hmax hinputs
  have hstart : Reached s rest 0 (frame s.params.crc op p) s := ⟨.refl s, hinputs, hinv, he, rfl, rfl, rfl⟩
  have hidx : s.decIdx = 0 := by simpa only [DecoderOk, hd] using hinv.decoder
  obtain ⟨t, hr, hh, hresult, hready, hphase⟩ := hstart.wholeFrame hmax ⟨hp, hd, congrArg BitVec.toNat hidx⟩
  exact ⟨t, hr.run.run, hresult, hready, hphase, hh.opcode, hh.length, hh.heldPayload_eq, hr.inputs, hr.txOut, hr.flash,
    hr.run.quiet⟩

end Sys2Proof.Proofs
end

section
/-! No fault is reachable (R184, R310): from a state that meets the invariant every step goes on, but for a forbidden use
of a FIFO port. -/

namespace Sys2Proof.Machine

open Sys2Proof.Safety

variable {s : State}

theorem NextInv.goesOn {o : Host.Outcome State Fault Refusal} (h : NextInv o) : ∃ t, o = .next t := by
  obtain ⟨t, ht, -⟩ := h
  exact ⟨t, ht⟩

theorem stepOps_portInstr (op : FifoOp) : stepOps (portInstr op) = true := by cases op <;> rfl

theorem stepOps_of_engineOp {i : Instr} (h : engineOp s = some i) : stepOps i = true := by
  cases hp : s.engPhase <;> simp only [engineOp, hp] at h
  case idle => split at h <;> cases h <;> rfl
  case dispatch => cases h; rfl
  all_goals nomatch h

theorem engineTurn_goesOn (h : Inv s) : ∃ t, engineTurn s = .next t := by
  cases ho : engineOp s <;> simp only [engineTurn, ho]
  case none => exact ⟨s, rfl⟩
  case some i => exact (exec_nextInv (stepOps_of_engineOp ho) h).goesOn

theorem portTurn_goesOn {a : Agent} {op : FifoOp} (h : Inv s) (hr : portRefusal a op = none) :
    ∃ t, portTurn a op s = .next t := by
  simp only [portTurn, hr]
  split
  · exact ⟨s, rfl⟩
  · exact (exec_nextInv (stepOps_portInstr op) h).goesOn

/-- Every event but a forbidden use of a FIFO port goes on. -/
theorem runTurn_goesOn (h : Inv s) (e : Turn) (hr : ∀ a op, e = .port a op → portRefusal a op = none) :
    ∃ t, runTurn e s = .next t := by
  cases e with
  | rx b => exact (exec_nextInv (i := .fifoPut b) rfl h).goesOn
  | engine => exact engineTurn_goesOn h
  | txAccept => exact (exec_nextInv (i := .engTx) rfl h).goesOn
  | elapse ms => exact ⟨_, rfl⟩
  | rst => exact ⟨_, rfl⟩
  | port a op => exact portTurn_goesOn h (hr a op rfl)

end Sys2Proof.Machine

namespace Sys2Proof.Proofs

open Sys2Proof.Machine Sys2Proof.Safety

/-- Settles O55: the next event is a forbidden use of a FIFO port, which is refused, or it goes on. -/
theorem invariantStatesNeverFault : Obligations.InvariantStatesNeverFault := by
  unfold Obligations.InvariantStatesNeverFault
  intro s h
  by_cases hr : ∃ a op r, nextTurn s = .port a op ∧ portRefusal a op = some r
  · obtain ⟨a, op, r, hturn, hrefused⟩ := hr
    exact .inr ⟨a, op, r, hturn, hrefused, step_of_portRefusal h.config hturn hrefused⟩
  · obtain ⟨t, ht⟩ := runTurn_goesOn (inv_begin h) (nextTurn s) fun a op hturn =>
      Option.eq_none_iff_forall_ne_some.2 fun r hrefused => hr ⟨a, op, r, hturn, hrefused⟩
    exact .inl ⟨t, by simp only [step, takeStep, h.config, ht]⟩

end Sys2Proof.Proofs
end

section
/-! ENGINE's dispatch (R220, R221) and what a command answers: the commands that touch no flash (R222 to R227, R232, R234),
the response's frame (R228, R236), and that a frame does not wait for ever where ENGINE is fair (R329). -/

namespace Sys2Proof.Machine

open Sys2Proof.Safety

variable {s t : State}

/-! ### ENG.DISPATCH -/

theorem exec_engDispatch_oversize (hp : s.engPhase = .dispatch) (hl : 4096 < s.decLength.toNat) :
    exec .engDispatch s = .fault .payloadOverflow :=
  (if_pos hp).trans (if_pos hl)

theorem CommandDone.engPhase_eq {op : Byte} {p : List Byte} (h : CommandDone op p s t) : t.engPhase = .tx := by
  cases h
  rfl

/-- A dispatch of a held frame enters TX with the command's response (R229). -/
theorem dispatch_enters_tx (hp : s.engPhase = .dispatch) (h : exec .engDispatch s = .next t) : t.engPhase = .tx := by
  rcases Nat.lt_or_ge 4096 s.decLength.toNat with hover | hfits
  · rw [exec_engDispatch_oversize hp hover] at h
    nomatch h
  · obtain ⟨u, hu, hdone⟩ := command_done s (wireFields_selectCommand s.decOpcode (heldPayload s))
    rw [dispatch_eq hp hfits, hu] at h
    injection h with h
    exact h ▸ hdone.engPhase_eq

/-- In DISPATCH, ENGINE's step is ENG.DISPATCH (R318). -/
theorem step_engine_dispatch (hc : configRefusal s.params = none) (hn : nextTurn s = .engine)
    (hp : s.engPhase = .dispatch) : step s = exec .engDispatch (beginTurn s) := by
  have hturn : engineTurn (beginTurn s) = exec .engDispatch (beginTurn s) := by
    simp only [engineTurn, engineOp, beginTurn_engPhase, hp]
  exact (step_engine hc hn).trans hturn

/-- ENGINE's step in DISPATCH ends the phase. -/
theorem engine_step_leaves_dispatch (hn : nextTurn s = .engine) (hp : s.engPhase = .dispatch) (h : step s = .next t) :
    t.engPhase = .tx := by
  rw [step_engine_dispatch (step_next h).1 hn hp] at h
  exact dispatch_enters_tx (s := beginTurn s) hp h

/-- Where ENGINE is fair, DISPATCH does not last for ever (R329): if it did, ENGINE would step in it. -/
theorem fair_engine_leaves_dispatch {turns : Nat → Turn} {ρ : Nat → State} (hrun : Run turns ρ)
    (hfair : EngineFair turns ρ) (n : Nat) : ∃ m, n ≤ m ∧ (ρ m).engPhase ≠ .dispatch := by
  by_contra! hdisp
  obtain ⟨m, hm, hturn | hhalted⟩ := hfair n
  · have hleft := engine_step_leaves_dispatch (s := { ρ m with inputs := [turns m] }) hturn (hdisp m hm) (hrun m)
    rw [hdisp (m + 1) (by omega)] at hleft
    nomatch hleft
  · rw [hdisp m hm] at hhalted
    nomatch hhalted

/-! ### The answers of the commands -/

/-- What a command leaves is a response of 1 or 3 payload bytes under its opcode, with the dispatch noted (R228, R237). -/
theorem CommandDone.response {op : Byte} {p : List Byte} (h : CommandDone op p s t) :
    ∃ q : List Byte, (q.length = 1 ∨ q.length = 3) ∧ t.txBuf = frame s.params.crc op q ∧ t.txIdx = 0 ∧
      t.engPhase = .tx ∧ t.frameDispatched = true ∧ t.engAfterTx ≠ .none := by
  obtain @⟨after, q, w, _, hflash, hafter, hshort, -, -, -⟩ := h
  refine ⟨q, hshort, ?_⟩
  rw [hflash.frame]
  exact ⟨rfl, rfl, rfl, rfl, hafter⟩

theorem exec_cmdInquiry (p : List Byte) (s : State) :
    exec (.cmdInquiry p) s = .next (answered .decoderReset 0x10 (inquiryAnswer s.params p) s) := rfl

section Inquiry

variable (c : Config.Params) {sub : Byte}

theorem inquiryOperand_of_length_ne_one {p : List Byte} (h : p.length ≠ 1) : inquiryOperand p = none := by
  match p, h with
  | [], _ => rfl
  | _ :: _ :: _, _ => rfl

/-- A payload that is not one byte long (R222). -/
theorem inquiryAnswer_of_length_ne_one {p : List Byte} (h : p.length ≠ 1) : inquiryAnswer c p = [0x06] := by
  rw [inquiryAnswer, inquiryOperand_of_length_ne_one h]
  rfl

/-- The version (R223). -/
theorem inquiryAnswer_version : inquiryAnswer c [c.subVersion] = [0x00, c.versionMajor, c.versionMinor] :=
  if_pos rfl

/-- The MTU, 4096 (R224). -/
theorem inquiryAnswer_mtu (hv : c.subMtu ≠ c.subVersion) : inquiryAnswer c [c.subMtu] = [0x00, 0x00, 0x10] :=
  (if_neg hv).trans (if_pos rfl)

/-- Any other subcode (R225). -/
theorem inquiryAnswer_other (hm : sub ≠ c.subMtu) (hv : sub ≠ c.subVersion) : inquiryAnswer c [sub] = [0x06] :=
  (if_neg hv).trans (if_neg hm)

end Inquiry

end Sys2Proof.Machine

namespace Sys2Proof.Proofs

open Sys2Proof.Machine Sys2Proof.Safety

/-- Settles O31: ENG.DISPATCH is the selected command, which goes on in every state; and a fair ENGINE steps in
DISPATCH, which ends it. -/
theorem dispatchRunsTheSelectedCommand : Obligations.DispatchRunsTheSelectedCommand := by
  unfold Obligations.DispatchRunsTheSelectedCommand
  refine ⟨fun s hp hl => ?_, fun turns ρ n hrun hfair _ => fair_engine_leaves_dispatch hrun hfair n⟩
  obtain ⟨t, ht, -⟩ := command_done s (wireFields_selectCommand s.decOpcode (heldPayload s))
  exact ⟨t, (dispatch_eq hp hl).trans ht, ht⟩

/-- Settles O32: the held frame decodes to the command that its opcode selects, which ENG.DISPATCH runs. -/
theorem stepRunsTheDecodedFrame : Obligations.StepRunsTheDecodedFrame := by
  unfold Obligations.StepRunsTheDecodedFrame
  intro s i rest hc hn hp hl hdecode
  rw [decode_frame _ _ (length_heldPayload.trans_le hl)] at hdecode
  obtain ⟨rfl, -⟩ := Decoded.instr.inj hdecode
  exact (step_engine_dispatch hc hn hp).trans (dispatch_eq (s := beginTurn s) hp hl)

/-- Settles O37: every command leaves a response of its own opcode, and a response is a frame. -/
theorem everyCommandAnswersWithItsOpcode : Obligations.EveryCommandAnswersWithItsOpcode := by
  unfold Obligations.EveryCommandAnswersWithItsOpcode
  intro s i op p hfields
  obtain ⟨t, ht, hdone⟩ := command_done s hfields
  obtain ⟨q, hshort, hbuf, hidx, hphase, hpulse, hafter⟩ := hdone.response
  refine ⟨t, q, ht, hbuf, hidx, hphase, hpulse, hafter, hshort, ?_⟩
  rw [hbuf, decode_frame _ _ (by omega)]

/-- Settles O38, over the four cases of INQUIRY's answer. -/
theorem inquiryAnswersVersionOrMtu : Obligations.InquiryAnswersVersionOrMtu := by
  unfold Obligations.InquiryAnswersVersionOrMtu
  intro s
  refine ⟨fun p hlen => ?_, fun sub hv => ?_, fun sub hm hv => ?_, fun sub hm hv => ?_⟩ <;> rw [exec_cmdInquiry]
  · rw [inquiryAnswer_of_length_ne_one _ hlen]
  · rw [hv, inquiryAnswer_version]
  · subst hm
    rw [inquiryAnswer_mtu _ hv]
  · rw [inquiryAnswer_other _ hm hv]

/-- Settles O39: READ's meaning is the dispatch and the ack. -/
theorem readIsAckedOnly : Obligations.ReadIsAckedOnly := by
  unfold Obligations.ReadIsAckedOnly
  exact fun s p => rfl

/-- Settles O40: both meanings are the dispatch and the error response. -/
theorem unknownOpcodeAnswersErrUnknown : Obligations.UnknownOpcodeAnswersErrUnknown := by
  unfold Obligations.UnknownOpcodeAnswersErrUnknown
  exact fun s op p => ⟨rfl, rfl⟩

/-- Settles O41: both meanings are the dispatch, with what follows noted, and the ack. -/
theorem bootAndResetAckFirst : Obligations.BootAndResetAckFirst := by
  unfold Obligations.BootAndResetAckFirst
  exact fun s p => ⟨rfl, rfl⟩

end Sys2Proof.Proofs
end

section
/-! A response leaves byte by byte on the sink's accepts (R229), what follows its last byte (R230 to R232, R234), and that
it ends where the sink at last accepts and waits unchanged where it does not (R329). -/

namespace Sys2Proof.Machine

open Sys2Proof.Safety

variable {s t : State} {b : Byte}

/-! ### ENG.TX -/

/-- A byte that is not the last (R229). -/
theorem exec_engTx_next (hp : s.engPhase = .tx) (hb : s.txBuf[s.txIdx]? = some b)
    (hnext : s.txIdx + 1 ≠ s.txBuf.length) : exec .engTx s = .next (handOver b s) := by
  simp only [exec, execEngTx, hp, hb, hnext, if_true, if_false]

/-- The last byte (R230). -/
theorem exec_engTx_last (hp : s.engPhase = .tx) (hb : s.txBuf[s.txIdx]? = some b)
    (hlast : s.txIdx + 1 = s.txBuf.length) : exec .engTx s = .next (endOfTransmit (handOver b s)) := by
  simp only [exec, execEngTx, hp, hb, hlast, if_true]

/-! ### The end of a response, by what follows it (R230) -/

theorem endOfTransmit_none (h : s.engAfterTx = .none) : endOfTransmit s = { s with engPhase := .idle } := by
  simp only [endOfTransmit, h]

theorem endOfTransmit_decoderReset (h : s.engAfterTx = .decoderReset) : endOfTransmit s =
    { decoderReset s with lastActivity := s.nowMs, engPhase := .idle, engAfterTx := .none } := by
  simp only [endOfTransmit, h]

theorem endOfTransmit_boot (h : s.engAfterTx = .boot) : endOfTransmit s =
    { s with bootRequest := true, lastActivity := s.nowMs, engPhase := .halted } := by
  simp only [endOfTransmit, h]

theorem endOfTransmit_reset (h : s.engAfterTx = .reset) : endOfTransmit s =
    { s with resetRequest := true, lastActivity := s.nowMs, engPhase := .halted } := by
  simp only [endOfTransmit, h]

/-- Whatever follows, TX is over and no byte more is handed over. -/
theorem endOfTransmit_leaves_tx (s : State) :
    (endOfTransmit s).engPhase ≠ .tx ∧ (endOfTransmit s).txOut = s.txOut := by
  cases h : s.engAfterTx with
  | none => rw [endOfTransmit_none h]; exact ⟨nofun, rfl⟩
  | decoderReset => rw [endOfTransmit_decoderReset h]; exact ⟨nofun, rfl⟩
  | boot => rw [endOfTransmit_boot h]; exact ⟨nofun, rfl⟩
  | reset => rw [endOfTransmit_reset h]; exact ⟨nofun, rfl⟩

/-! ### As many accepts as bytes -/

theorem step_txAccept (hc : configRefusal s.params = none) (hn : nextTurn s = .txAccept) :
    step s = exec .engTx (beginTurn s) := by
  simp only [step, takeStep, hc, hn, runTurn]

/-- A response of which `n` bytes are still to leave, with as many accepts of the sink pending. -/
structure Leaving (rest : List Turn) (n : Nat) (s : State) : Prop where
  /-- R353 -/
  config : configRefusal s.params = none
  /-- R44 -/
  phase : s.engPhase = .tx
  /-- the bytes still to leave (R45) -/
  remaining : s.txIdx + n = s.txBuf.length
  /-- an accept for each, and then what is pending besides -/
  inputs : s.inputs = List.replicate n .txAccept ++ rest

variable {rest : List Turn} {n : Nat}

theorem Leaving.step_eq (h : Leaving rest (n + 1) s) : step s = exec .engTx (beginTurn s) :=
  step_txAccept h.config (by rw [nextTurn, h.inputs]; rfl)

theorem Leaving.inputs_tail (h : Leaving rest (n + 1) s) : s.inputs.tail = List.replicate n .txAccept ++ rest := by
  rw [h.inputs]
  rfl

/-- The next byte to leave is the first of those still to leave. -/
theorem Leaving.next_byte (h : Leaving rest (n + 1) s) :
    ∃ b, s.txBuf[s.txIdx]? = some b ∧ s.txBuf.drop s.txIdx = b :: s.txBuf.drop (s.txIdx + 1) := by
  have hlt : s.txIdx < s.txBuf.length := by rw [← h.remaining]; omega
  exact ⟨_, List.getElem?_eq_getElem hlt, List.drop_eq_getElem_cons hlt⟩

/-- Where a byte is not the last, the others are still to leave after it. -/
theorem Leaving.after_handOver (h : Leaving rest (n + 1) s) (b : Byte) :
    Leaving rest n (handOver b (beginTurn s)) where
  config := h.config
  phase := h.phase
  remaining := by
    have hremaining := h.remaining
    simp only [handOver_txIdx, handOver_txBuf, beginTurn_txIdx, beginTurn_txBuf]
    omega
  inputs := h.inputs_tail

/-- By induction on the bytes still to leave: the sink's accepts take them in order, and then TX is over. -/
theorem Leaving.leaves (h : Leaving rest (n + 1) s) : ∃ t, runSteps (n + 1) s = .next t ∧
    t.txOut = s.txOut ++ s.txBuf.drop s.txIdx ∧ t.engPhase ≠ .tx ∧ t.inputs = rest ∧ t.fifoRd = s.fifoRd ∧
    t.flash = s.flash := by
  induction n generalizing s with
  | zero =>
    obtain ⟨b, hb, hdrop⟩ := h.next_byte
    obtain ⟨hkept, hrd⟩ := endOfTransmit_kept (handOver b (beginTurn s))
    obtain ⟨hphase, hout⟩ := endOfTransmit_leaves_tx (handOver b (beginTurn s))
    refine ⟨_, ?_, hout.trans ?_, hphase, hkept.inputs.trans h.inputs_tail, hrd, hkept.flash⟩
    · rw [runSteps, h.step_eq, exec_engTx_last (s := beginTurn s) h.phase hb h.remaining]
      rfl
    · rw [hdrop, List.drop_of_length_le h.remaining.ge]
      rfl
  | succ n ih =>
    obtain ⟨b, hb, hdrop⟩ := h.next_byte
    have hnotlast : s.txIdx + 1 ≠ s.txBuf.length := by rw [← h.remaining]; omega
    obtain ⟨t, hrun, hout, hphase, hinputs, hrd, hflash⟩ := ih (h.after_handOver b)
    refine ⟨t, ?_, hout.trans ?_, hphase, hinputs, hrd, hflash⟩
    · rw [runSteps, h.step_eq, exec_engTx_next (s := beginTurn s) h.phase hb hnotlast]
      exact hrun
    · rw [hdrop]
      exact List.append_assoc _ [b] _

/-! ### The sink in an infinite run (R329) -/

/-- How many bytes of the response are still to leave. -/
def bytesLeft (s : State) : Nat := s.txBuf.length - s.txIdx

/-- An accept in TX that does not end the response takes one of its bytes. -/
theorem bytesLeft_of_engTx (hp : s.engPhase = .tx) (h : exec .engTx s = .next t) (ht : t.engPhase = .tx) :
    bytesLeft t < bytesLeft s := by
  simp only [exec, execEngTx, hp, if_true] at h
  split at h
  · next b hb =>
    injection h with h
    subst h
    split at ht
    · exact absurd ht (endOfTransmit_leaves_tx _).1
    · next hnext =>
      have hlt := (List.getElem?_eq_some_iff.1 hb).1
      rw [if_neg hnext]
      simp only [bytesLeft, handOver_txBuf, handOver_txIdx]
      omega
  · split at h
    · injection h with h
      exact absurd ht (h ▸ (endOfTransmit_leaves_tx s).1)
    · nomatch h

/-- A step in TX that is neither the sink's accept nor block reset leaves the response, what has been sent of it and the
read cursor alone. -/
theorem step_in_tx_keeps (h : step s = .next t) (hp : s.engPhase = .tx) (ha : nextTurn s ≠ .txAccept)
    (hr : nextTurn s ≠ .rst) : t.engPhase = .tx ∧ t.txBuf = s.txBuf ∧ t.txIdx = s.txIdx ∧ t.txOut = s.txOut ∧
      t.fifoRd = s.fifoRd := by
  rw [step_outside_idle h (by simp [hp]) (fun _ => by simp [hp]) (fun hn => absurd hn ha) hr]
  exact ⟨hp, rfl, rfl, rfl, rfl⟩

/-- A step that stays in TX adds no byte to the response, and takes one on the sink's accept. -/
theorem step_stays_in_tx (h : step s = .next t) (hp : s.engPhase = .tx) (ht : t.engPhase = .tx) :
    bytesLeft t ≤ bytesLeft s ∧ (nextTurn s = .txAccept → bytesLeft t < bytesLeft s) := by
  obtain ⟨hc, hturn⟩ := step_next h
  by_cases hr : nextTurn s = .rst
  · rw [hr] at hturn
    injection hturn with hturn
    subst hturn
    nomatch ht
  · by_cases ha : nextTurn s = .txAccept
    · rw [step_txAccept hc ha] at h
      have hlt : bytesLeft t < bytesLeft s := bytesLeft_of_engTx (s := beginTurn s) hp h ht
      exact ⟨hlt.le, fun _ => hlt⟩
    · obtain ⟨-, hbuf, hidx, -, -⟩ := step_in_tx_keeps h hp ha hr
      exact ⟨by simp only [bytesLeft, hbuf, hidx, le_refl], fun hn => absurd hn ha⟩

section Runs

variable {turns : Nat → Turn} {ρ : Nat → State}

/-- While a run stays in TX, the bytes still to leave do not become more. -/
theorem bytesLeft_antitone (hrun : Run turns ρ) {k m : Nat} (hkm : k ≤ m) (htx : ∀ j, k ≤ j → (ρ j).engPhase = .tx) :
    bytesLeft (ρ m) ≤ bytesLeft (ρ k) := by
  induction m, hkm using Nat.le_induction with
  | base => exact le_refl _
  | succ m hkm ih => exact le_trans (step_stays_in_tx (hrun m) (htx m hkm) (htx (m + 1) (by omega))).1 ih

/-- Where the sink at last accepts, no run stays in TX: by induction on the bytes still to leave, each of which an accept
takes. -/
theorem fair_sink_ends_response (hrun : Run turns ρ) (hfair : SinkFair turns ρ) (k : Nat) :
    ∃ m, k ≤ m ∧ (ρ m).engPhase ≠ .tx := by
  induction hleft : bytesLeft (ρ k) using Nat.strong_induction_on generalizing k with
  | _ left ih =>
    by_contra! htx
    obtain ⟨m, hkm, haccept | hout⟩ := hfair k
    · have hlt : bytesLeft (ρ (m + 1)) < bytesLeft (ρ m) :=
        (step_stays_in_tx (hrun m) (htx m hkm) (htx (m + 1) (by omega))).2 haccept
      have hle : bytesLeft (ρ m) ≤ left := hleft ▸ bytesLeft_antitone hrun hkm htx
      obtain ⟨j, hmj, hout⟩ := ih _ (hlt.trans_le hle) (m + 1) rfl
      exact hout (htx j (by omega))
    · exact hout (htx m hkm)

/-- Where the sink never accepts, a response waits as it is. -/
theorem response_waits (hrun : Run turns ρ) {k m : Nat} (hkm : k ≤ m) (hp : (ρ k).engPhase = .tx)
    (hno : ∀ j, k ≤ j → turns j ≠ .txAccept ∧ turns j ≠ .rst) :
    (ρ m).engPhase = .tx ∧ (ρ m).txBuf = (ρ k).txBuf ∧ (ρ m).txIdx = (ρ k).txIdx ∧ (ρ m).txOut = (ρ k).txOut ∧
      (ρ m).fifoRd = (ρ k).fifoRd := by
  induction m, hkm using Nat.le_induction with
  | base => exact ⟨hp, rfl, rfl, rfl, rfl⟩
  | succ m hkm ih =>
    obtain ⟨hphase, hbuf, hidx, hout, hrd⟩ := ih
    obtain ⟨ha, hr⟩ := hno m hkm
    obtain ⟨hphase', hbuf', hidx', hout', hrd'⟩ :=
      step_in_tx_keeps (s := { ρ m with inputs := [turns m] }) (hrun m) hphase ha hr
    exact ⟨hphase', hbuf'.trans hbuf, hidx'.trans hidx, hout'.trans hout, hrd'.trans hrd⟩

end Runs

end Sys2Proof.Machine

namespace Sys2Proof.Proofs

open Sys2Proof.Machine Sys2Proof.Safety

/-- Settles O34: ENG.TX on a byte that is not the last. -/
theorem transmitHandsOverTheNextByte : Obligations.TransmitHandsOverTheNextByte := by
  unfold Obligations.TransmitHandsOverTheNextByte
  exact fun s b hp hb hlt => exec_engTx_next hp hb hlt.ne

/-- Settles O35: ENG.TX on the last byte, by what follows the response. -/
theorem lastResponseByteDecidesWhatFollows : Obligations.LastResponseByteDecidesWhatFollows := by
  unfold Obligations.LastResponseByteDecidesWhatFollows
  intro s b hp hb hlast
  rw [exec_engTx_last hp hb hlast]
  split
  · next ha => rw [endOfTransmit_none (s := handOver b s) ha]; rfl
  · next ha => rw [endOfTransmit_decoderReset (s := handOver b s) ha]; rfl
  · next ha => rw [endOfTransmit_boot (s := handOver b s) ha]; rfl
  · next ha => rw [endOfTransmit_reset (s := handOver b s) ha]; rfl

/-- Settles O36: the response's bytes leave one by one; a fair sink takes them all; and without the sink's accept a step
in TX changes nothing of the response. -/
theorem responseLeavesWholeAndInOrder : Obligations.ResponseLeavesWholeAndInOrder := by
  unfold Obligations.ResponseLeavesWholeAndInOrder
  refine ⟨fun s rest hc hp hidx hne hinputs => ?_, fun turns ρ n hrun hfair _ => ?_,
    fun turns ρ n hrun hp hno m hnm => response_waits hrun hnm hp hno⟩
  · obtain ⟨n, hlen⟩ := Nat.exists_eq_succ_of_ne_zero (List.length_pos_of_ne_nil hne).ne'
    have hleaving : Leaving rest (n + 1) s := ⟨hc, hp, by omega, by rw [hinputs, hlen]⟩
    simpa only [hlen, hidx, List.drop_zero] using hleaving.leaves
  · exact fair_sink_ends_response hrun hfair n

end Sys2Proof.Proofs
end

section
/-! HALTED (R233, R235, R361): until block reset, every event that the rules allow goes on, and only PRODUCER's put and
the passing of time change anything beside the pending events and the pulse. -/

namespace Sys2Proof.Machine

variable {s : State}

/-- The event is PRODUCER's put of this byte: a received byte, or its use of its port (R140, R321). -/
def putsByte (b : Byte) (e : Turn) : Prop := e = .rx b ∨ e = .port .producer (.put b)

/-- A permitted use of a FIFO port is PRODUCER's put or ENGINE's use of the consumer port (R140). -/
theorem permitted_port {a : Agent} {op : FifoOp} (h : portRefusal a op = none) :
    (∃ b, a = .producer ∧ op = .put b) ∨ a = .engine := by
  cases a with
  | engine => exact .inr rfl
  | producer =>
    cases op with
    | put b => exact .inl ⟨b, rfl, rfl⟩
    | get | isEmpty | full => nomatch h
  | other id => cases op <;> nomatch h

theorem portTurn_halted {a : Agent} {op : FifoOp} (hp : s.engPhase = .halted) (h : portRefusal a op = none) :
    portTurn a op s = .next s ∨ ∃ b, putsByte b (.port a op) ∧ portTurn a op s = exec (.fifoPut b) s := by
  rcases permitted_port h with ⟨b, rfl, rfl⟩ | rfl
  · exact .inr ⟨b, .inr rfl, rfl⟩
  · refine .inl ?_
    simp [portTurn, h, hp]

/-- What an event does in HALTED: nothing, a put, or the passing of time. -/
theorem runTurn_halted {e : Turn} (hp : s.engPhase = .halted) (hr : e ≠ .rst)
    (hport : ∀ a op, e = .port a op → portRefusal a op = none) :
    runTurn e s = .next s ∨ (∃ b, putsByte b e ∧ runTurn e s = exec (.fifoPut b) s) ∨
      ∃ ms, e = .elapse ms ∧ runTurn e s = .next { s with nowMs := s.nowMs + ms } := by
  cases e with
  | rx b => exact .inr (.inl ⟨b, .inl rfl, rfl⟩)
  | engine => exact .inl (by simp only [runTurn, engineTurn, engineOp, hp])
  | txAccept => exact .inl (exec_engTx_outside_tx (by simp [hp]))
  | elapse ms => exact .inr (.inr ⟨ms, rfl, rfl⟩)
  | rst => exact absurd rfl hr
  | port a op => exact (portTurn_halted hp (hport a op rfl)).imp id .inl

theorem exec_fifoPut_goesOn (b : Byte) (s : State) : ∃ t, exec (.fifoPut b) s = .next t ∧ t.nowMs = s.nowMs := by
  refine ⟨_, rfl, ?_⟩
  split <;> rfl

/-- In HALTED an allowed event that is no block reset goes on; only a put changes the FIFO and its result, and only the
passing of time changes `now_ms`. -/
theorem runTurn_halted_goesOn {e : Turn} (hp : s.engPhase = .halted) (hr : e ≠ .rst)
    (hport : ∀ a op, e = .port a op → portRefusal a op = none) :
    ∃ t, runTurn e s = .next t ∧
      ((∀ b, ¬ putsByte b e) → t.fifoMem = s.fifoMem ∧ t.fifoWr = s.fifoWr ∧ t.putResult = s.putResult) ∧
      ((∀ ms, e ≠ .elapse ms) → t.nowMs = s.nowMs) := by
  rcases runTurn_halted hp hr hport with hsame | ⟨b, hput, hexec⟩ | ⟨ms, htime, hlater⟩
  · exact ⟨s, hsame, fun _ => ⟨rfl, rfl, rfl⟩, fun _ => rfl⟩
  · obtain ⟨t, ht, hnow⟩ := exec_fifoPut_goesOn b s
    exact ⟨t, hexec.trans ht, fun hno => absurd hput (hno b), fun _ => hnow⟩
  · exact ⟨_, hlater, fun _ => ⟨rfl, rfl, rfl⟩, fun hno => absurd htime (hno ms)⟩

end Sys2Proof.Machine

namespace Sys2Proof.Proofs

open Sys2Proof.Machine

/-- Settles O42: in HALTED every allowed event goes on, and a step outside IDLE changes at most what a put and the
passing of time change. -/
theorem haltedUntilBlockReset : Obligations.HaltedUntilBlockReset := by
  unfold Obligations.HaltedUntilBlockReset
  intro s hc hp hr hport
  obtain ⟨t, ht, hfifo, htime⟩ := runTurn_halted_goesOn (s := beginTurn s) hp hr hport
  have hstep : step s = .next t := by simp only [step, takeStep, hc, ht]
  refine ⟨t, hstep, ?_, fun hrx hput => hfifo fun b => not_or.2 ⟨hrx b, hput b⟩, htime⟩
  exact step_outside_idle hstep (by simp [hp]) (fun _ => by simp [hp]) (fun _ => by simp [hp]) hr

end Sys2Proof.Proofs
end

section
/-! The flash port over one step (R264, R284): a step that changes flash or drives a request on the flash port is a
dispatch, and what its command may do there `CommandDone` says. -/

namespace Sys2Proof.Machine

open Sys2Proof.Safety

variable {s t : State}

theorem exec_fifoPut_flash {b : Byte} (h : exec (.fifoPut b) s = .next t) :
    t.flash = s.flash ∧ t.flashRequests = s.flashRequests := by
  injection h with h
  subst h
  split <;> exact ⟨rfl, rfl⟩

/-- A step leaves flash and the record of requests alone, or it is a dispatch that completes a command whose payload a
frame can carry. -/
theorem step_flash_cases (h : step s = .next t) :
    (t.flash = s.flash ∧ t.flashRequests = s.flashRequests) ∨
      ∃ p, p.length ≤ 4096 ∧ CommandDone s.decOpcode p (beginTurn s) t := by
  rcases step_cases h with rfl | ⟨ms, rfl⟩ | rfl | ⟨i, hop, -, hexec⟩
  · exact .inl ⟨rfl, rfl⟩
  · exact .inl ⟨rfl, rfl⟩
  · exact .inl ⟨rfl, rfl⟩
  · by_cases hput : ∃ b, i = .fifoPut b
    · obtain ⟨b, rfl⟩ := hput
      exact .inl (exec_fifoPut_flash (s := beginTurn s) hexec)
    · by_cases hdisp : i = .engDispatch
      · subst hdisp
        rcases dispatch_done hexec with rfl | ⟨-, p, hp, hdone⟩
        · exact .inl ⟨rfl, rfl⟩
        · exact .inr ⟨p, hp, hdone⟩
      · have hwire : wireFields i = none := by
          simp only [stepOps, Bool.and_eq_true, Option.isNone_iff_eq_none] at hop
          exact hop.1
        obtain ⟨hkept, -⟩ := port_kept hwire (fun b hb => hput ⟨b, hb⟩) hdisp hexec
        exact .inl ⟨hkept.flash, hkept.requests⟩

/-- A command whose payload a frame can carry changes no byte of the protected range (R284). -/
theorem CommandDone.flashByte_protected {op : Byte} {p : List Byte} (h : CommandDone op p s t) (hp : p.length ≤ 4096)
    {a : Nat} (ha : inProtected a = true) : flashByte t a = flashByte s a := by
  obtain ⟨hflash, -, -, -, -, -⟩ := h
  refine hflash.outside a fun hun => ?_
  rw [hun.2 hp] at ha
  nomatch ha

/-- The requests that a command adds: none erases a protected sector, and where one erases or programs, they stand
between an unlock and a lock, and the controller is locked again (R264). -/
theorem CommandDone.requests_bracketed {op : Byte} {p : List Byte} (h : CommandDone op p s t) :
    ∃ new, t.flashRequests = s.flashRequests ++ new ∧ Bracketed s.params new ∧
      ((∃ j, .eraseSector j ∈ new) ∨ (∃ a w, .programWord a w ∈ new) → t.flashLocked = true) := by
  obtain ⟨-, -, -, hrequests, hbracketed, hlocked⟩ := h
  exact ⟨_, hrequests, hbracketed, fun hchange => hlocked (.inr hchange)⟩

end Sys2Proof.Machine

namespace Sys2Proof.Proofs

open Sys2Proof.Machine

/-- Settles O51: only a dispatched command changes flash, and it changes no protected byte, because the payload that the
decoder holds is one a frame can carry. -/
theorem protectedRangeIsNeverChanged : Obligations.ProtectedRangeIsNeverChanged := by
  unfold Obligations.ProtectedRangeIsNeverChanged
  intro s t a h hlo hhi
  rcases step_flash_cases h with ⟨hflash, -⟩ | ⟨p, hp, hdone⟩
  · simp only [flashByte, hflash]
  · exact hdone.flashByte_protected hp (inProtected_iff.2 ⟨hlo, hhi⟩)

/-- Settles O52: a step that is no dispatch adds no request, and a command's requests are bracketed. -/
theorem flashRequestsAreBracketedAndOutsideProtection :
    Obligations.FlashRequestsAreBracketedAndOutsideProtection := by
  unfold Obligations.FlashRequestsAreBracketedAndOutsideProtection
  intro s t h
  rcases step_flash_cases h with ⟨-, hrequests⟩ | ⟨p, -, hdone⟩
  · exact ⟨[], by simpa using hrequests, by simp, by simp⟩
  · obtain ⟨new, hnew, ⟨houtside, hbracket⟩, hlocked⟩ := hdone.requests_bracketed
    exact ⟨new, hnew, houtside, fun hchange =>
      ⟨(hbracket hchange).1, (hbracket hchange).2, hlocked hchange⟩⟩

end Sys2Proof.Proofs
end

section
/-! ERASE and WRITE (R264 to R278): their rejections, and what an accepted one requests and changes. -/

namespace Sys2Proof.Machine

open Sys2Proof.Safety

variable {s : State} {p : List Byte}

theorem intersectsProtected_rangeOf : (rangeOf p).intersectsProtected = true ↔ meetsProtected p :=
  intersectsProtected_iff

theorem intersectsProtected_rangeOf_eq_false (h : ¬ meetsProtected p) : (rangeOf p).intersectsProtected = false :=
  Bool.eq_false_of_not_eq_true fun hp => h (intersectsProtected_rangeOf.1 hp)

/-! ### ERASE's checks (R266, R267) -/

theorem exec_cmdErase_wrongLength (hl : p.length ≠ 8) :
    exec (.cmdErase p) s = .next (answered .decoderReset 0x20 [0x06] s) := by
  have hoperand : eraseOperand p = none := if_neg hl
  simp only [exec, execCmdErase, hoperand]
  rfl

theorem exec_cmdErase_protected (hl : p.length = 8) (hp : meetsProtected p) :
    exec (.cmdErase p) s = .next (answered .decoderReset 0x20 [0xFF] s) := by
  have hoperand : eraseOperand p = some (rangeOf p) := if_pos hl
  simp only [exec, execCmdErase, hoperand, intersectsProtected_rangeOf.2 hp, if_true]
  rfl

/-- An accepted ERASE is the walk between unlock and lock, and an ack (R264, R268, R269). -/
theorem exec_cmdErase_accepted (hl : p.length = 8) (hp : ¬ meetsProtected p) :
    exec (.cmdErase p) s = .next (ack 0x20 (eraseRange (rangeOf p) (beginDispatch .decoderReset s))) := by
  have hoperand : eraseOperand p = some (rangeOf p) := if_pos hl
  simp only [exec, execCmdErase, hoperand, intersectsProtected_rangeOf_eq_false hp, Bool.false_eq_true, if_false]

/-! ### WRITE's checks (R272, R273) -/

theorem exec_cmdWrite_wrongLength (hl : p.length < 8 ∨ p.length ≠ 8 + (rangeOf p).size.toNat) :
    exec (.cmdWrite p) s = .next (answered .decoderReset 0x22 [0x06] s) := by
  have hoperand : writeOperand p = none := if_neg fun h => by omega
  simp only [exec, execCmdWrite, hoperand]
  rfl

theorem exec_cmdWrite_protected (hl : p.length = 8 + (rangeOf p).size.toNat) (hp : meetsProtected p) :
    exec (.cmdWrite p) s = .next (answered .decoderReset 0x22 [0xFF] s) := by
  have hoperand : writeOperand p = some (rangeOf p, p.drop 8) := if_pos ⟨by omega, hl⟩
  simp only [exec, execCmdWrite, hoperand, intersectsProtected_rangeOf.2 hp, if_true]
  rfl

/-! ### What an accepted ERASE does (R264, R268) -/

variable {r : Range}

/-- Only bytes of the selected sectors may change. -/
theorem eraseRange_flashOnly (r : Range) (s : State) :
    FlashOnly (inSelectedSector s.params r) s (eraseRange r s) := by
  have hwalk := eraseWalk_flashOnly r (inSelectedSector s.params r) (spans s.params) [] (flashUnlock s) rfl
    fun sp hsp hfirst hlimit x hlo hhi => ⟨sp, hsp, ⟨hfirst, hlimit⟩, hlo, hhi⟩
  exact ((flashUnlock_flashOnly _ s).trans hwalk).trans (flashLock_flashOnly _ _)

/-- The requests: an erase of each selected sector between unlock and lock. -/
theorem eraseRange_flashRequests (r : Range) (s : State) : (eraseRange r s).flashRequests =
    s.flashRequests ++ [.unlock] ++ (selectedSectors s.params r).map .eraseSector ++ [.lock] := by
  obtain ⟨-, hwalk, -⟩ := eraseWalk_facts r (spans s.params) [] (flashUnlock s) rfl rfl
  rw [List.length_nil, walked_eq_selected] at hwalk
  exact congrArg (· ++ [FlashRequest.lock]) hwalk

/-- Each erase uses up one result. -/
theorem eraseRange_flashResults (r : Range) (s : State) :
    (eraseRange r s).flashResults = s.flashResults.drop (selectedSectors s.params r).length := by
  obtain ⟨-, -, hwalk⟩ := eraseWalk_facts r (spans s.params) [] (flashUnlock s) rfl rfl
  rwa [List.length_nil, walked_eq_selected] at hwalk

theorem eraseRange_eq (r : Range) (s : State) : eraseRange r s = { s with
    flash := (eraseRange r s).flash
    flashLocked := true
    flashRequests := s.flashRequests ++ [.unlock] ++ (selectedSectors s.params r).map .eraseSector ++ [.lock]
    flashResults := s.flashResults.drop (selectedSectors s.params r).length
    draws := (eraseRange r s).draws } := by
  rw [← eraseRange_flashRequests, ← eraseRange_flashResults]
  exact (eraseRange_flashOnly r s).frame

/-- Where every erase succeeds, the selected sectors read as erased (R78). -/
theorem eraseRange_erased (hlen : (selectedSectors s.params r).length ≤ s.flashResults.length)
    (hok : ∀ q ∈ s.flashResults.take (selectedSectors s.params r).length, q = .ok) {a : Nat}
    (ha : inSelectedSector s.params r a) : flashByte (eraseRange r s) a = 0xFF := by
  rw [← walked_eq_selected] at hlen hok
  exact eraseWalk_ok r (spans s.params) [] (flashUnlock s) rfl rfl hlen hok a (.inr ha)

/-! ### What an accepted WRITE does (R264, R274) -/

/-- Only bytes of the words of the range may change. -/
theorem writeRange_flashOnly (r : Range) (data : List Byte) (s : State) :
    FlashOnly (inWrittenWords r) s (writeRange r data s) := by
  have hloop := programWords_flashOnly r.address data (inWrittenWords r) (wordCount r.size.toNat) 0 (flashUnlock s)
    (fun k hk _ _ x hlo hhi => ⟨k, hk, by rwa [← wordAddress_eq], by rwa [← wordAddress_eq]⟩) rfl
  exact ((flashUnlock_flashOnly _ s).trans hloop).trans (flashLock_flashOnly _ _)

/-- The requests: a program of each word of the range between unlock and lock. -/
theorem writeRange_flashRequests (r : Range) (data : List Byte) (s : State) : (writeRange r data s).flashRequests =
    s.flashRequests ++ [.unlock] ++ (List.range (wordCount r.size.toNat)).map
      (fun k => .programWord (wordAddress r k) (dataWord data (4 * k))) ++ [.lock] := by
  obtain ⟨-, hloop⟩ := programWords_facts r.address data (wordCount r.size.toNat) 0 (flashUnlock s)
  simp only [← wordAddress_eq, Nat.zero_add] at hloop ⊢
  exact congrArg (· ++ [FlashRequest.lock]) hloop

theorem writeRange_eq (r : Range) (data : List Byte) (s : State) : writeRange r data s = { s with
    flash := (writeRange r data s).flash
    flashLocked := true
    flashRequests := s.flashRequests ++ [.unlock] ++ (List.range (wordCount r.size.toNat)).map
      (fun k => .programWord (wordAddress r k) (dataWord data (4 * k))) ++ [.lock]
    flashResults := (writeRange r data s).flashResults
    draws := (writeRange r data s).draws } := by
  rw [← writeRange_flashRequests]
  exact (writeRange_flashOnly r data s).frame

/-- At a misaligned address flash stays as it is (R278). -/
theorem writeRange_misaligned (data : List Byte) (h : r.address.toNat % 4 ≠ 0) :
    (writeRange r data s).flash = s.flash :=
  programWords_misaligned data h _ 0 (flashUnlock s) rfl

end Sys2Proof.Machine

namespace Sys2Proof.Proofs

open Sys2Proof.Machine Sys2Proof.Safety

/-- Settles O43, by the two checks. -/
theorem eraseIsRejectedBeforeAnyRequest : Obligations.EraseIsRejectedBeforeAnyRequest := by
  unfold Obligations.EraseIsRejectedBeforeAnyRequest
  exact fun s p => ⟨exec_cmdErase_wrongLength, exec_cmdErase_protected⟩

/-- Settles O44: the walk's requests and results, the bytes that it may change, and those that it erases. -/
theorem eraseErasesTheSelectedSectors : Obligations.EraseErasesTheSelectedSectors := by
  unfold Obligations.EraseErasesTheSelectedSectors
  intro s p hl hp
  refine ⟨_, exec_cmdErase_accepted hl hp, ?_, fun a ha => ?_, fun hlen hok a ha => ?_⟩
  · exact congrArg (respond 0x20 [codeOk]) (eraseRange_eq (rangeOf p) (beginDispatch .decoderReset s))
  · exact (eraseRange_flashOnly (rangeOf p) (beginDispatch .decoderReset s)).outside a ha
  · exact eraseRange_erased (s := beginDispatch .decoderReset s) hlen hok ha

/-- Settles O45, by the two checks. -/
theorem writeIsRejectedBeforeAnyRequest : Obligations.WriteIsRejectedBeforeAnyRequest := by
  unfold Obligations.WriteIsRejectedBeforeAnyRequest
  exact fun s p => ⟨exec_cmdWrite_wrongLength, exec_cmdWrite_protected⟩

/-- Settles O46: the loop's requests, the bytes that it may change, and that a misaligned loop changes none. -/
theorem writeRequestsEveryWord : Obligations.WriteRequestsEveryWord := by
  unfold Obligations.WriteRequestsEveryWord
  intro s p hl hp
  refine ⟨_, exec_cmdWrite_accepted hl hp, ?_, fun a ha => ?_, fun ha => ?_⟩
  · exact congrArg (respond 0x22 [codeOk]) (writeRange_eq (rangeOf p) (p.drop 8) (beginDispatch .decoderReset s))
  · exact (writeRange_flashOnly (rangeOf p) (p.drop 8) (beginDispatch .decoderReset s)).outside a ha
  · exact writeRange_misaligned (s := beginDispatch .decoderReset s) (p.drop 8) ha

end Sys2Proof.Proofs
end

section
/-! VERIFY (R279 to R283): what it answers, and that inside the flash array the bytes it reads are flash's own. -/

namespace Sys2Proof.Machine

open Sys2Proof.Safety

variable {s t : State} {p : List Byte}

/-! ### What is read (R16, R281) -/

theorem length_memRead (r : Range) (s : State) : (memRead r s).1.length = r.size.toNat :=
  (memReadBytes_spec s r.size.toNat s.draws r.address).1

/-- A byte read inside the flash array is flash's byte at its address modulo 2^32. -/
theorem getElem?_memRead {r : Range} {i : Nat} (hi : i < r.size.toNat)
    (hin : inFlash s.params (readAddress r i) = true) :
    (memRead r s).1[i]? = some (flashByte s (readAddress r i)) :=
  (memReadBytes_spec s r.size.toNat s.draws r.address).2 i hi hin

/-- A range inside the flash array reads the same where flash is the same. -/
theorem memRead_congr {r : Range} (hp : s.params = t.params) (hf : ∀ a, flashByte s a = flashByte t a)
    (hin : ∀ i < r.size.toNat, inFlash s.params (readAddress r i) = true) : (memRead r s).1 = (memRead r t).1 := by
  refine List.ext_getElem? fun i => ?_
  by_cases hi : i < r.size.toNat
  · rw [getElem?_memRead hi (hin i hi), getElem?_memRead hi (hp ▸ hin i hi), hf]
  · rw [List.getElem?_eq_none (by rw [length_memRead]; omega), List.getElem?_eq_none (by rw [length_memRead]; omega)]

/-! ### What is answered (R280, R282) -/

theorem exec_cmdVerify_wrongLength (hl : p.length ≠ 12) :
    exec (.cmdVerify p) s = .next (answered .decoderReset 0x23 [0x06] s) := by
  have hoperand : verifyOperand p = none := if_neg hl
  simp only [exec, execCmdVerify, hoperand]
  rfl

/-- The payload of VERIFY's response where it has read these bytes (R282). -/
def verifyAnswer (c : Config.CrcSpec) (p bytes : List Byte) : List Byte :=
  if crc32 c bytes = field32 p 8 then [0x00] else [0x05]

/-- The bytes that VERIFY reads: its dispatch comes first (R220). -/
def verifyBytes (p : List Byte) (s : State) : List Byte := (memRead (rangeOf p) (beginDispatch .decoderReset s)).1

/-- A VERIFY of 12 bytes reads its range, records the read, and compares. -/
theorem exec_cmdVerify_read (hl : p.length = 12) : exec (.cmdVerify p) s = .next
    { answered .decoderReset 0x23 (verifyAnswer s.params.crc p (verifyBytes p s)) s with
      flashRequests := s.flashRequests ++ [.read (rangeOf p).address (rangeOf p).size]
      draws := (memRead (rangeOf p) (beginDispatch .decoderReset s)).2.draws } := by
  have hoperand : verifyOperand p = some (rangeOf p, field32 p 8) := if_pos hl
  simp only [exec, execCmdVerify, hoperand]
  by_cases hcrc : crc32 s.params.crc (verifyBytes p s) = field32 p 8
  · rw [show verifyAnswer s.params.crc p (verifyBytes p s) = [0x00] from if_pos hcrc]
    exact if_pos hcrc
  · rw [show verifyAnswer s.params.crc p (verifyBytes p s) = [0x05] from if_neg hcrc]
    exact if_neg hcrc

/-- A VERIFY leaves flash alone. -/
theorem exec_cmdVerify_flash (h : exec (.cmdVerify p) s = .next t) : t.flash = s.flash := by
  by_cases hl : p.length = 12
  · rw [exec_cmdVerify_read hl] at h
    injection h with h
    exact h ▸ rfl
  · rw [exec_cmdVerify_wrongLength hl] at h
    injection h with h
    exact h ▸ rfl

/-- On the same flash and with the same parameters, VERIFY of a range inside the flash array queues the same
response. -/
theorem exec_cmdVerify_txBuf_congr {s' t' : State} (hp : s.params = s'.params)
    (hf : ∀ a, flashByte s a = flashByte s' a)
    (hin : ∀ i < (rangeOf p).size.toNat, inFlash s.params (readAddress (rangeOf p) i) = true)
    (h : exec (.cmdVerify p) s = .next t) (h' : exec (.cmdVerify p) s' = .next t') : t.txBuf = t'.txBuf := by
  by_cases hl : p.length = 12
  · have hread : verifyBytes p s = verifyBytes p s' :=
      memRead_congr (s := beginDispatch .decoderReset s) (t := beginDispatch .decoderReset s') hp hf hin
    rw [exec_cmdVerify_read hl] at h h'
    injection h with h
    injection h' with h'
    subst h h'
    simp only [answered, hp, hread]
  · rw [exec_cmdVerify_wrongLength hl] at h h'
    injection h with h
    injection h' with h'
    subst h h'
    simp only [answered, hp]

end Sys2Proof.Machine

namespace Sys2Proof.Proofs

open Sys2Proof.Machine Sys2Proof.Safety

/-- Settles O48: the bytes are those that `memRead` gives, and the one request is its read. -/
theorem verifyComparesTheCrcOfTheRange : Obligations.VerifyComparesTheCrcOfTheRange := by
  unfold Obligations.VerifyComparesTheCrcOfTheRange
  intro s p
  refine ⟨exec_cmdVerify_wrongLength, fun hl => ⟨_, _, _, length_memRead _ (beginDispatch .decoderReset s), ?_, ?_,
    exec_cmdVerify_read hl⟩⟩
  · exact fun i hi hin => getElem?_memRead (s := beginDispatch .decoderReset s) hi hin
  · exact fun q hq => ⟨_, _, List.mem_singleton.1 hq⟩

/-- Settles O49: the bytes read are the same in both states, so the answer is. -/
theorem verifyIsIdempotentInsideFlash : Obligations.VerifyIsIdempotentInsideFlash := by
  unfold Obligations.VerifyIsIdempotentInsideFlash
  exact fun s t s' t' p hp hf hin h h' =>
    ⟨exec_cmdVerify_txBuf_congr hp hf hin h h', exec_cmdVerify_flash h, exec_cmdVerify_flash h'⟩

end Sys2Proof.Proofs
end

section
/-! Which operation a step runs (R318, R321, R49): the next event's, and for ENGINE's events the one of its phase. -/

namespace Sys2Proof.Machine

variable {s : State}

/-- With a well-formed configuration a step is the next event's turn. -/
theorem step_eq_runTurn {e : Turn} (hc : configRefusal s.params = none) (hn : nextTurn s = e) :
    step s = runTurn e (beginTurn s) := by
  simp only [step, takeStep, hc, hn]

/-! ### ENGINE's step outside IDLE and DISPATCH (R229, R235) -/

theorem engineTurn_tx (hp : s.engPhase = .tx) : engineTurn s = .next s := by
  simp only [engineTurn, engineOp, hp]

theorem engineTurn_halted (hp : s.engPhase = .halted) : engineTurn s = .next s := by
  simp only [engineTurn, engineOp, hp]

/-! ### ENGINE's use of its FIFO port (R140, R170) -/

theorem portRefusal_engine {op : FifoOp} (hop : ∀ b, op ≠ .put b) : portRefusal .engine op = none := by
  cases op with
  | put b => exact absurd rfl (hop b)
  | get | isEmpty | full => rfl

theorem portTurn_engine_idle {op : FifoOp} (hop : ∀ b, op ≠ .put b) (hp : s.engPhase = .idle) :
    portTurn .engine op s = exec (portInstr op) s := by
  simp only [portTurn, portRefusal_engine hop]
  exact if_neg fun h => h.2 hp

theorem portTurn_engine_outside_idle {op : FifoOp} (hop : ∀ b, op ≠ .put b) (hp : s.engPhase ≠ .idle) :
    portTurn .engine op s = .next s := by
  simp only [portTurn, portRefusal_engine hop]
  exact if_pos ⟨trivial, hp⟩

end Sys2Proof.Machine

namespace Sys2Proof.Proofs

open Sys2Proof.Machine

/-- Settles O33: the step is the next event's turn, and ENGINE's turns go by its phase. -/
theorem stepRunsTheAgentsOperation : Obligations.StepRunsTheAgentsOperation := by
  unfold Obligations.StepRunsTheAgentsOperation
  intro s hc
  have hstep {e : Turn} (hn : nextTurn s = e) : step s = runTurn e (beginTurn s) := step_eq_runTurn hc hn
  refine ⟨fun b hn => hstep hn, fun hn => hstep hn, fun hn hp => ?halted, fun hn hp => ?tx,
    fun hn hp => step_engine_dispatch hc hn hp, fun hn hp hne => ?feed, fun hn hp he => ?timeout, fun b hn => hstep hn,
    fun op hop hn hp => ?outsideIdle, fun hn hp => ?get, fun hn hp => ?isEmpty, fun hn hp => ?full,
    fun ms hn => ?elapse, fun hn => hstep hn⟩
  case halted => exact (hstep hn).trans (engineTurn_halted (s := beginTurn s) hp)
  case tx => exact (hstep hn).trans (engineTurn_tx (s := beginTurn s) hp)
  case feed => exact (hstep hn).trans (engineTurn_idle_nonempty (s := beginTurn s) hp (fifoEmpty_eq_false_iff.2 hne))
  case timeout => exact (hstep hn).trans (engineTurn_idle_empty (s := beginTurn s) hp (fifoEmpty_iff.2 he))
  case outsideIdle => exact (hstep hn).trans (portTurn_engine_outside_idle (s := beginTurn s) hop hp)
  case get => exact (hstep hn).trans (portTurn_engine_idle (s := beginTurn s) (op := .get) nofun hp)
  case isEmpty => exact (hstep hn).trans (portTurn_engine_idle (s := beginTurn s) (op := .isEmpty) nofun hp)
  case full => exact (hstep hn).trans (portTurn_engine_idle (s := beginTurn s) (op := .full) nofun hp)
  case elapse => exact ⟨s.nowMs + ms, BitVec.toNat_add s.nowMs ms, hstep hn⟩

end Sys2Proof.Proofs
end

section
/-! The reset state and block reset (R350): the base case of the machine's invariant, and what a block reset leaves. -/

namespace Sys2Proof.Machine

open Sys2Proof.Safety

/-- The parameters of `State.reset` are those of a block: 64 slots, and sectors at their running offsets (R9, R72). -/
theorem configRefusal_defaultParams : configRefusal Config.defaultParams = none := by decide

theorem Memory.wf_nil (fill : Byte) : Memory.wf fill [] := ⟨.nil, nofun⟩

/-- The base case of the invariant: the buffers and the flash list are empty, the decoder is in AwaitingStart and ENGINE
in IDLE. -/
theorem inv_reset : Inv State.reset where
  config := configRefusal_defaultParams
  cursors := by decide
  fifoForm := ⟨Memory.wf_nil _, nofun⟩
  payloadForm := ⟨Memory.wf_nil _, nofun⟩
  flashForm := ⟨Memory.wf_nil _, nofun⟩
  locked := rfl
  response := Nat.zero_le _
  decoder := rfl
  engine := ⟨rfl, rfl⟩
  requests := fun _ => ⟨rfl, rfl⟩

/-- A step at `rst` is the block reset (R350). -/
theorem step_rst {s : State} (hc : configRefusal s.params = none) (hn : nextTurn s = .rst) :
    step s = .next (blockReset (beginTurn s)) :=
  step_eq_runTurn hc hn

end Sys2Proof.Machine

namespace Sys2Proof.Proofs

open Sys2Proof.Machine

/-- Settles O54: the base case of the invariant. -/
theorem resetMeetsInvariant : Obligations.ResetMeetsInvariant := inv_reset

/-- Settles O58: the step is the block reset, which puts each register of the block at its reset value (R350) and keeps
flash (R77), the parameters and the time. -/
theorem blockResetClearsTheBlockAndKeepsFlash : Obligations.BlockResetClearsTheBlockAndKeepsFlash := by
  unfold Obligations.BlockResetClearsTheBlockAndKeepsFlash
  intro s hc hn
  exact ⟨blockReset (beginTurn s), step_rst hc hn, by simp⟩

end Sys2Proof.Proofs
end
